-- ==== Sys2Proof/Word.lean ====
section
/-! DEFINITION. The word types of the U128 CORE and the 128-bit value made of two 64-bit limbs (00_scope.md R1;
10_state.md R21). -/

namespace Sys2Proof

/-- A 64-bit limb (R1). -/
abbrev Limb := BitVec 64

/-- A 32-bit command word or control register (R70). -/
abbrev CmdWord := BitVec 32

/-- One byte of the character buffer (R26). -/
abbrev Byte := BitVec 8

/-- R1, R21: a value is the pair of its upper and lower limb, in a fixed logical order. The spec writes it
`{hi, lo}`. -/
structure Value where
  hi : Limb
  lo : Limb
deriving DecidableEq, Repr

/-- R1: a value is "interpreted as `upper * 2^64 + lower`". -/
def Value.toNat (v : Value) : Nat := v.hi.toNat * 2 ^ 64 + v.lo.toNat

/-- The value of a number, reduced modulo 2^128 (R2). -/
def Value.ofNat (n : Nat) : Value := ⟨BitVec.ofNat 64 (n / 2 ^ 64), BitVec.ofNat 64 n⟩

/-- The source's zero value. -/
def Value.zero : Value := ⟨0, 0⟩

/-- The source's one value. -/
def Value.one : Value := ⟨0, 1⟩

/-- Bit `i` of a value, bit 0 the least significant (00_scope.md section 5). -/
def Value.bit (v : Value) (i : Nat) : Bool :=
  if i < 64 then v.lo.getLsbD i else v.hi.getLsbD (i - 64)

end Sys2Proof
end

