-- ==== Sys2Proof/Config.lean ====
section
/-! DEFINITION. What an implementation or platform fixes (00_scope.md R3), and the one free value of the spec. A
constant without a body is left open: nothing in Lean can evaluate it. -/

namespace Sys2Proof

/-- R32, R240; 93_implementation_defined.md row 1: the byte that `CBUF[k]` holds after reset number `draw`, until
something writes it. FREE VALUE (log 2, log 3): safe. -/
opaque Config.cbufDraw (draw k : Nat) : Byte

/-- R3, D30: `MMIO_BASE` is OPEN and 4096-byte aligned; this is its 4096-byte page number (log 14). -/
opaque Config.mmioPage : Nat

/-- R41: the bus address of the MMIO window, `MMIO_BASE`. -/
def Config.mmioBase : Nat := 4096 * Config.mmioPage

/-- R248, D42: `LAT_SIMPLE`, OPEN. No step uses a latency (R250; log 11). -/
opaque Config.latSimple : Nat

/-- R248, D42: `LAT_MUL`, OPEN. -/
opaque Config.latMul : Nat

/-- R248, D42: `LAT_DIV(a, b)`, OPEN. -/
opaque Config.latDiv (a b : Value) : Nat

/-- R248, D42: `LAT_STRENC(a, base, m)`, OPEN. -/
opaque Config.latStrenc (a : Value) (base m : Nat) : Nat

/-- R248, D42: `LAT_STRDEC(SLEN)`, OPEN. -/
opaque Config.latStrdec (slen : Nat) : Nat

end Sys2Proof
end

