-- ==== Sys2Proof/Syntax.lean ====
section
/-! DEFINITION. The commands of the U128 CORE: one constructor for each row of the opcode table (30_encoding.md
R74), with the operands its format gives it (R71, R72). -/

namespace Sys2Proof

/-- A 4-bit register field: the number of a value register `V0`..`V15` (R20, R71). -/
abbrev Reg := Fin 16

/-- The eight formats of R72. -/
inductive Format where
  | rrr | rrrr | rr | crr | cr | ri | enc | dec
deriving DecidableEq, Repr

/-- R74: the twenty commands. Operands stand in the order of the assembler syntax (R78). -/
inductive Instr where
  | add (rd rs1 rs2 : Reg)
  | sub (rd rs1 rs2 : Reg)
  | neg (rd rs1 : Reg)
  | mul (rd rs1 rs2 : Reg)
  | and (rd rs1 rs2 : Reg)
  | or (rd rs1 rs2 : Reg)
  | xor (rd rs1 rs2 : Reg)
  | not (rd rs1 : Reg)
  | shl (rd rs1 rs2 : Reg)
  | shr (rd rs1 rs2 : Reg)
  | divu (rd rs1 rs2 : Reg)
  | remu (rd rs1 rs2 : Reg)
  | divmod (rd rd2 rs1 rs2 : Reg)
  | cmp (rs1 rs2 : Reg)
  | tst (rs1 : Reg)
  | bits (rd rs1 : Reg)
  | strenc (rs1 : Reg) (base minlen : BitVec 8)
  | strdec (rd : Reg) (base : BitVec 8)
  | ldi (rd : Reg) (imm : BitVec 16)
  | mov (rd rs1 : Reg)
deriving DecidableEq, Repr

end Sys2Proof
end

