-- ==== Sys2Proof/Machine/State.lean ====
section
/-! DEFINITION. The state of the U128 CORE (10_state.md), the host's side of the port as data (20_memory.md), and the
state after reset (R32). STATE IS PLAIN DATA. -/

namespace Sys2Proof.Machine

/-- R23: the four bits of `FLAGS` that exist. Bits 31:4 "read as 0, and are never written": they have no storage, and
`flagsWord` gives the 32-bit register. -/
structure Flags where
  eq : Bool
  lt : Bool
  gt : Bool
  nz : Bool
deriving DecidableEq, Repr

/-- R210: the causes of a command fault. -/
inductive Cause where
  | illegalCommand
  | divideByZero
  | invalidBase
deriving DecidableEq, Repr

/-- R220: one entry of the model's fault log: the cause and the command word that raised it. -/
structure FaultRecord where
  cause : Cause
  cmd : CmdWord
deriving DecidableEq, Repr

/-- One access of the host to the MMIO window (R40, R41): the offset that the core decodes, the width in bytes, and for
a write the data, of which the low `8 * width` bits are significant (log 13, log 14). -/
inductive Access where
  | read (offset : BitVec 12) (width : Nat)
  | write (offset : BitVec 12) (width : Nat) (data : BitVec 64)
deriving DecidableEq, Repr

/-- What happens next on the host's side of the port (R40, R55, R56, R240; log 1). -/
inductive HostEvent where
  /-- The port accepts an access. `late` matters only for a `STATUS` read accepted while `PEND` is full: whether the
  core completes the pending command first (R56; the choice that 93_implementation_defined.md row 5 leaves free; log 4). -/
  | access (a : Access) (late : Bool)
  /-- The port accepts nothing for long enough that the core does its own next piece of work. -/
  | idle
  /-- Reset is asserted and deasserted (R240, R241). `keepHeld` is whether the accesses held at that moment are still
  performed afterwards, which the spec does not say (log 7). -/
  | reset (keepHeld : Bool)
deriving DecidableEq, Repr

/-- What the port answers to an access that it performs (R45 to R55). -/
inductive Response where
  /-- A read's data, zero-extended to 64 bits. -/
  | data (d : BitVec 64)
  /-- A write was performed. -/
  | written
  /-- R53: the error response, with the data a read returns. -/
  | error (d : BitVec 64)
deriving DecidableEq, Repr

/-- An access together with its answer. -/
structure BusRecord where
  access : Access
  response : Response
deriving DecidableEq, Repr

/-- Why the machine stops. -/
inductive Fault where
  /-- R53, D34: the host made a bus error: a reserved offset, a width the location does not accept or a misaligned
  offset; "a model treats a bus error as a fault of the host agent". Raised by `performAccess`. `answer` is what the core
  returned; no state of the core changed. SAFE: nothing is claimed of a run that makes one (log 5). -/
  | hostBusError (access : Access) (answer : Response)
deriving DecidableEq, Repr

/-- Why a command has no meaning here. -/
inductive Refusal where
  /-- A command of the opcode table whose meaning is not modelled yet, by its mnemonic. Raised only by an arm of
  `exec`; no arm raises it. SAFE. -/
  | notModelled (mnemonic : String)
deriving DecidableEq, Repr

/-- The bytes of `CBUF` that have been written since reset, as (offset, byte) pairs in rising order of offset. An offset
that is not listed holds no value known to the model: it reads as the free draw of the last reset (log 2). -/
abbrev Memory := List Host.Cell

/-- Every piece of state that the spec gives the machine (10_state.md, opening table), the accesses that the port holds
(R55), the model's fault log (R220), and the model's own fields `draw`, `inputs` and `responses`. -/
structure State where
  /-- R20: the value registers `V0`..`V15`. -/
  regs : Vector Value 16
  /-- R23: `FLAGS`. -/
  flags : Flags
  /-- R24: `STATUS.FAULT`. -/
  fault : Bool
  /-- R24: `STATUS.ERR`. -/
  err : BitVec 4
  /-- R25: `FCMD`. -/
  fcmd : CmdWord
  /-- R27: `SLEN`. -/
  slen : BitVec 32
  /-- R26: `CBUF`, the bytes written since reset. -/
  cbuf : Memory
  /-- R29: `PEND`; `STATUS.BUSY` is whether it is full. -/
  pend : Option CmdWord
  /-- R55: the accesses accepted and not yet performed, oldest first. -/
  held : List Access
  /-- R220: every fault raised, newest first; no step clears it. -/
  faultLog : List FaultRecord
  /-- The model's own: which reset drew the bytes of `CBUF` (log 3). -/
  draw : Nat
  /-- The model's own: what the host does next (log 1). -/
  inputs : List HostEvent
  /-- The model's own: what the port has answered, newest first (log 9). -/
  responses : List BusRecord
deriving DecidableEq, Repr

/-- R32, R240, R242: the machine right after reset: every value register 0, `FLAGS`, `STATUS`, `FCMD` and `SLEN` 0, `PEND`
empty, every byte of `CBUF` unspecified. `draw`, `inputs` and `responses` hold values of the model's own (log 3, log 6,
log 9). -/
def State.reset : State where
  regs := Vector.replicate 16 Value.zero
  flags := ⟨false, false, false, false⟩
  fault := false
  err := 0
  fcmd := 0
  slen := 0
  cbuf := []
  pend := none
  held := []
  faultLog := []
  draw := 0
  inputs := []
  responses := []

end Sys2Proof.Machine
end

