-- ==== Sys2Proof/Machine/Ops.lean ====
section
/-! DEFINITION. The named operations over registers, the character buffer and the fault record: every read and write of
state that a command or the port makes goes through one of them. -/

namespace Sys2Proof.Machine

/-- R20: `V[i]`. No register is hardwired. -/
def State.readReg (s : State) (i : Reg) : Value := s.regs[i]

/-- R20: `V[i] <- v`. -/
def State.writeReg (s : State) (i : Reg) (v : Value) : State := { s with regs := s.regs.set i v }

/-- The byte the memory lists at an offset; none where nothing is listed. -/
def Memory.get? : Memory → Nat → Option Byte
  | [], _ => none
  | (a, b) :: rest, k => if a = k then some b else Memory.get? rest k

/-- The memory with one byte written, offsets kept in rising order. -/
def Memory.put : Memory → Nat → Byte → Memory
  | [], k, b => [(k, b)]
  | (a, c) :: rest, k, b =>
    if k < a then (k, b) :: (a, c) :: rest
    else if k = a then (k, b) :: rest
    else (a, c) :: Memory.put rest k b

/-- The offsets of the list rise strictly, starting at `low` or above, and stay inside the buffer. -/
def Memory.risesFrom : Nat → Memory → Bool
  | _, [] => true
  | low, (a, _) :: rest => decide (low ≤ a) && decide (a < 256) && Memory.risesFrom (a + 1) rest

/-- The canonical form: offsets strictly rising, each one of `CBUF`'s 0..255 (R26; log 2). -/
def Memory.wf (m : Memory) : Bool := Memory.risesFrom 0 m

/-- R26, R32: `CBUF[k]`. A byte that nothing has written since reset reads as the value drawn for it at reset
(`FREE VALUE`, log 2). -/
def State.cbufByte (s : State) (k : Nat) : Byte :=
  match Memory.get? s.cbuf k with
  | some b => b
  | none => Config.cbufDraw s.draw k

/-- R26: `CBUF[k] <- b`. -/
def State.setCbufByte (s : State) (k : Nat) (b : Byte) : State := { s with cbuf := Memory.put s.cbuf k b }

/-- R52: `MemRead(k, n)`, "sum over j in 0..n-1 of CBUF[k+j] * 2^(8j)" (little-endian, R43). -/
def State.memRead (s : State) : Nat → Nat → Nat
  | _, 0 => 0
  | k, n + 1 => (s.cbufByte k).toNat + 256 * s.memRead (k + 1) n

/-- R43, R52: `MemWrite(k, n, v)`: the byte at offset `k + j` receives bits `8j+7:8j` of `v`. -/
def State.memWrite : State → Nat → Nat → Nat → State
  | s, _, 0, _ => s
  | s, k, n + 1, v => State.memWrite (s.setCbufByte k (BitVec.ofNat 8 v)) (k + 1) n (v / 256)

/-- R174: `for k in 0..n-1: CBUF[k] <- t[k]`, from offset `k` on. -/
def State.writeBytes : State → Nat → List Byte → State
  | s, _, [] => s
  | s, k, b :: rest => State.writeBytes (s.setCbufByte k b) (k + 1) rest

/-- R61, R175: `CBUF[k .. k+n-1]`, one byte at a time. -/
def State.readBytes (s : State) : Nat → Nat → List Byte
  | _, 0 => []
  | k, n + 1 => s.cbufByte k :: s.readBytes (k + 1) n

/-- R210: the code that `STATUS.ERR` records. -/
def Cause.code : Cause → BitVec 4
  | .illegalCommand => 1
  | .divideByZero => 2
  | .invalidBase => 3

/-- R213: a command raises a fault with cause `c`. No destination is written; the first fault since reset or the last
clear is recorded in `STATUS` and `FCMD`; R220: every fault is added to the log. `PEND` is emptied by `retire`, as after
every command (R76). -/
def raiseFault (c : Cause) (cmd : CmdWord) (s : State) : State :=
  let s := { s with faultLog := ⟨c, cmd⟩ :: s.faultLog }
  if s.fault then s else { s with fault := true, err := c.code, fcmd := cmd }

/-- R24, R48, R217: what a host write to `STATUS` with bit 1 set does. There is no other return from a fault. -/
def clearFault (s : State) : State := { s with fault := false, err := 0, fcmd := 0 }

/-- R76: `PEND <- empty`. -/
def retire (s : State) : State := { s with pend := none }

/-- R27, R51: a host write of `w` to `SLEN` stores `min(w, 256)`. -/
def State.writeSlen (s : State) (w : BitVec 32) : State := { s with slen := BitVec.ofNat 32 (min w.toNat 256) }

/-- R240, R241: reset. Every piece of the core's state takes its reset value and `CBUF` is drawn anew (log 3); a pending
command is abandoned; held accesses are kept or dropped as the event says (log 7); the fault log is cleared by no step
(R220; log 8); what the host has been answered and will do is not the core's. -/
def State.resetInput (s : State) (keepHeld : Bool) : State :=
  { State.reset with
    held := if keepHeld then s.held else []
    faultLog := s.faultLog
    draw := s.draw + 1
    inputs := s.inputs
    responses := s.responses }

end Sys2Proof.Machine
end

