-- ==== Sys2Proof/Machine/Flags.lean ====
section
/-! DEFINITION. The comparator, the flags it computes, and the 32-bit views of `FLAGS` and `STATUS` (10_state.md R23,
R24; 45_compare.md). -/

namespace Sys2Proof.Machine

/-- R200: `eq`, "two values are equal iff both limbs are equal". -/
def valueEq (a b : Value) : Bool := a.hi == b.hi && a.lo == b.lo

/-- R200: `lt`, the upper limb first, the lower limb breaking ties. -/
def valueLt (a b : Value) : Bool := decide (a.hi < b.hi) || (a.hi == b.hi && decide (a.lo < b.lo))

/-- R150, R200: the test `a >= b` of the divider, the same comparison. -/
def valueGe (a b : Value) : Bool := !valueLt a b

/-- R200: the flags after `CMP`; `NZ` is unchanged. -/
def cmpFlags (a b : Value) (f : Flags) : Flags :=
  let eq := valueEq a b
  let lt := valueLt a b
  { f with eq := eq, lt := lt, gt := !eq && !lt }

/-- R201: the flags after `TST`; `EQ`, `LT`, `GT` are unchanged. -/
def tstFlags (a : Value) (f : Flags) : Flags := { f with nz := (a.hi ||| a.lo) != 0 }

/-- One bit of a register at a position. -/
def bitAt (b : Bool) (i : Nat) : Nat := if b then 2 ^ i else 0

/-- R23: the 32-bit register `FLAGS`. -/
def flagsWord (s : State) : BitVec 32 :=
  BitVec.ofNat 32 (bitAt s.flags.eq 0 + bitAt s.flags.lt 1 + bitAt s.flags.gt 2 + bitAt s.flags.nz 3)

/-- R24, R29: `STATUS.BUSY` is 1 while a command is latched in `PEND`. -/
def busy (s : State) : Bool := s.pend.isSome

/-- R24: the 32-bit register `STATUS`: `BUSY` bit 0, `FAULT` bit 1, `ERR` bits 7:4; the other bits read 0. -/
def statusWord (s : State) : BitVec 32 :=
  BitVec.ofNat 32 (bitAt (busy s) 0 + bitAt s.fault 1 + s.err.toNat * 2 ^ 4)

end Sys2Proof.Machine
end

