-- ==== Sys2Proof/Machine/Bus.lean ====
section
/-! DEFINITION. The host's accesses to the MMIO window (20_memory.md sections 2 to 5). -/

namespace Sys2Proof.Machine

/-- R42: the locations of the MMIO window. -/
inductive Location where
  | cmd | status | flags | slen | fcmd
  | limbLo (i : Reg)
  | limbHi (i : Reg)
  | chars (k : Nat)
deriving DecidableEq, Repr

/-- R42, R53, R54: the location that accepts an access of `width` bytes at an offset; none where the access is a bus
error (a reserved offset, a width the location does not accept, or a misaligned offset). -/
def locate (off width : Nat) : Option Location :=
  if off < 0x100 then
    if width = 4 then
      match off with
      | 0x000 => some .cmd
      | 0x004 => some .status
      | 0x008 => some .flags
      | 0x00C => some .slen
      | 0x010 => some .fcmd
      | _ => none
    else none
  else if off < 0x200 then
    if width = 8 ∧ off % 8 = 0 then
      if off % 16 = 0 then some (.limbLo (Fin.ofNat 16 ((off - 0x100) / 16)))
      else some (.limbHi (Fin.ofNat 16 ((off - 0x100) / 16)))
    else none
  else if 0x400 ≤ off ∧ off < 0x500 then
    if (width = 1 ∨ width = 2 ∨ width = 4 ∨ width = 8) ∧ (off - 0x400) % width = 0 then some (.chars (off - 0x400))
    else none
  else none

/-- R45, R46, R48 to R51: the data of a read, zero-extended to 64 bits. A read changes nothing (R58). -/
def readLocation (s : State) (width : Nat) : Location → BitVec 64
  | .cmd => 0
  | .status => (statusWord s).setWidth 64
  | .flags => (flagsWord s).setWidth 64
  | .slen => s.slen.setWidth 64
  | .fcmd => s.fcmd.setWidth 64
  | .limbLo i => (s.readReg i).lo
  | .limbHi i => (s.readReg i).hi
  | .chars k => BitVec.ofNat 64 (s.memRead k width)

/-- R45, R46, R48 to R51: a write. `FLAGS` and `FCMD` ignore it; a limb write leaves the other limb unchanged. The port
performs a write to `CMD` only while `PEND` is empty (R55). -/
def writeLocation (s : State) (width : Nat) (d : BitVec 64) : Location → State
  | .cmd => { s with pend := some (d.setWidth 32) }
  | .status => if d.getLsbD 1 then clearFault s else s
  | .flags => s
  | .slen => s.writeSlen (d.setWidth 32)
  | .fcmd => s
  | .limbLo i => s.writeReg i { s.readReg i with lo := d }
  | .limbHi i => s.writeReg i { s.readReg i with hi := d }
  | .chars k => s.memWrite k width d.toNat

/-- The answer to an access is put on record. -/
def State.respond (s : State) (a : Access) (r : Response) : State := { s with responses := ⟨a, r⟩ :: s.responses }

/-- R53: what the core answers to a bus error. -/
def busErrorAnswer : Response := .error 0

/-- The port performs one access (R42 to R54) and responds. A bus error is a fault of the host agent (R53, D34; log 5). -/
def performAccess (a : Access) (s : State) : Host.Outcome State Fault Refusal :=
  match a with
  | .read off width =>
    match locate off.toNat width with
    | none => .fault (.hostBusError a busErrorAnswer)
    | some l => .next (s.respond a (.data (readLocation s width l)))
  | .write off width d =>
    match locate off.toNat width with
    | none => .fault (.hostBusError a busErrorAnswer)
    | some l => .next ((writeLocation s width d l).respond a .written)

/-- R48: a 4-byte read of `STATUS`, the one access that is never held. -/
def isStatusRead (a : Access) : Bool := a == .read 0x004 4

/-- R41: the offset that a bus address has in the window; none outside it. -/
def windowOffset (addr : Nat) : Option (BitVec 12) :=
  if Config.mmioBase ≤ addr ∧ addr < Config.mmioBase + 4096 then some (BitVec.ofNat 12 (addr - Config.mmioBase))
  else none

end Sys2Proof.Machine
end

