-- ==== Sys2Proof/Machine/Operands.lean ====
section
/-! DEFINITION. How the operand fields of a command enter its rule (30_encoding.md R73; 42_logic_shift.md R134). A
register operand is read by `State.readReg`. -/

namespace Sys2Proof.Machine

/-- R73: `sext_128(IMM16)`: "`lower = value` (truncated/ sign-extended to 64 bits)", upper limb all ones where negative. -/
def immOperand (imm : BitVec 16) : Value :=
  ⟨if imm.msb then BitVec.allOnes 64 else 0, imm.signExtend 64⟩

/-- R73: `zext_128(BASE)`. -/
def baseOperand (base : BitVec 8) : Value := ⟨0, base.setWidth 64⟩

/-- R73: `BASE` and `MINLEN` are unsigned counts 0..255. -/
def countOperand (x : BitVec 8) : Nat := x.toNat

/-- R134: the shift amount is the whole register value; the shift "is performed only when `n.hi == 0` and `n.lo < 128`".
None where it is out of that range. -/
def shiftOperand (n : Value) : Option Nat := if n.hi = 0 ∧ n.lo < 128 then some n.lo.toNat else none

/-- A count written zero-extended into a value register (R171). -/
def countValue (n : Nat) : Value := ⟨0, BitVec.ofNat 64 n⟩

end Sys2Proof.Machine
end

