-- ==== Sys2Proof/Machine/Arith.lean ====
section
/-! DEFINITION. The adder, the subtracter, negation and the multiplier (41_arith.md), limb by limb as the spec has them. -/

namespace Sys2Proof.Machine

/-- R110: addition with the carry propagated from the lower to the upper limb; the carry out of bit 127 is discarded. -/
def valueAdd (a b : Value) : Value :=
  let lo := a.lo + b.lo
  let c : Limb := if lo < a.lo then 1 else 0
  ⟨a.hi + b.hi + c, lo⟩

/-- R111: subtraction with the borrow propagated from the lower to the upper limb. -/
def valueSub (a b : Value) : Value :=
  let lo := a.lo - b.lo
  let w : Limb := if a.lo < lo then 1 else 0
  ⟨a.hi - b.hi - w, lo⟩

/-- R112: "two's complement — bitwise NOT of both limbs, then add one". -/
def valueNeg (a : Value) : Value := valueAdd ⟨~~~a.hi, ~~~a.lo⟩ Value.one

/-- R113: the 32-bit digit of weight 2^(32i), in a 64-bit word. -/
def digit (a : Value) (i : Nat) : Limb :=
  let limb := if i < 2 then a.lo else a.hi
  (limb >>> (32 * (i % 2))) &&& 0xFFFFFFFF

/-- R113: bits 31:0 of a partial product. -/
def lowHalf (p : Limb) : Limb := p &&& 0xFFFFFFFF

/-- R113: bits 63:32 of a partial product. -/
def highHalf (p : Limb) : Limb := p >>> 32

/-- R113: schoolbook multiplication on 32-bit digits. The ten products with `i + j <= 3` are summed into four 64-bit
accumulators, then the carries are propagated. -/
def valueMul (a b : Value) : Value :=
  let p (i j : Nat) : Limb := digit a i * digit b j
  let acc0 := lowHalf (p 0 0)
  let acc1 := highHalf (p 0 0) + lowHalf (p 0 1) + lowHalf (p 1 0)
  let acc2 := highHalf (p 0 1) + highHalf (p 1 0) + lowHalf (p 0 2) + lowHalf (p 1 1) + lowHalf (p 2 0)
  let acc3 := highHalf (p 0 2) + highHalf (p 1 1) + highHalf (p 2 0) + lowHalf (p 0 3) + lowHalf (p 1 2)
    + lowHalf (p 2 1) + lowHalf (p 3 0)
  let acc1 := acc1 + (acc0 >>> 32)
  let acc0 := lowHalf acc0
  let acc2 := acc2 + (acc1 >>> 32)
  let acc1 := lowHalf acc1
  let acc3 := acc3 + (acc2 >>> 32)
  let acc2 := lowHalf acc2
  let acc3 := lowHalf acc3
  ⟨(acc3 <<< 32) ||| acc2, (acc1 <<< 32) ||| acc0⟩

/-- R110: `ADD vd, vs1, vs2`. -/
def execAdd (rd rs1 rs2 : Reg) (s : State) : Host.Outcome State Fault Refusal :=
  .next (s.writeReg rd (valueAdd (s.readReg rs1) (s.readReg rs2)))

/-- R111: `SUB vd, vs1, vs2`. -/
def execSub (rd rs1 rs2 : Reg) (s : State) : Host.Outcome State Fault Refusal :=
  .next (s.writeReg rd (valueSub (s.readReg rs1) (s.readReg rs2)))

/-- R112: `NEG vd, vs1`. -/
def execNeg (rd rs1 : Reg) (s : State) : Host.Outcome State Fault Refusal :=
  .next (s.writeReg rd (valueNeg (s.readReg rs1)))

/-- R113: `MUL vd, vs1, vs2`. -/
def execMul (rd rs1 rs2 : Reg) (s : State) : Host.Outcome State Fault Refusal :=
  .next (s.writeReg rd (valueMul (s.readReg rs1) (s.readReg rs2)))

end Sys2Proof.Machine
end

