-- ==== Sys2Proof/Machine/BitLength.lean ====
section
/-! DEFINITION. Bit length and BITS (44_codec.md section 1). The divider uses it too. -/

namespace Sys2Proof.Machine

/-- The number of leading zeros among the low `n` bits of a limb, counted from bit `n - 1` down. -/
def leadingZeros (x : Limb) : Nat → Nat
  | 0 => 0
  | n + 1 => if x.getLsbD n then 0 else leadingZeros x n + 1

/-- R170: `clz64`, the number of leading zero bits of a 64-bit limb. -/
def clz64 (x : Limb) : Nat := leadingZeros x 64

/-- R170: `bits(v)`, the 1-based position of the highest set bit, 0 for zero. -/
def bitLength (v : Value) : Nat :=
  if v = Value.zero then 0
  else if v.hi ≠ 0 then 128 - clz64 v.hi
  else 64 - clz64 v.lo

/-- R171: `BITS vd, vs1`. -/
def execBits (rd rs1 : Reg) (s : State) : Host.Outcome State Fault Refusal :=
  .next (s.writeReg rd (countValue (bitLength (s.readReg rs1))))

end Sys2Proof.Machine
end

