-- ==== Sys2Proof/WellFormed.lean ====
section
/-! DEFINITION. Which commands are well formed. The types of the operands already hold every bound of R71; the one
further condition is R75(c). -/

namespace Sys2Proof

/-- R75(c): a `DIVMOD` with `RD == RD2` is illegal; every other command is well formed for every operand (R81). -/
def Instr.wellFormed : Instr → Bool
  | .add _ _ _ => true
  | .sub _ _ _ => true
  | .neg _ _ => true
  | .mul _ _ _ => true
  | .and _ _ _ => true
  | .or _ _ _ => true
  | .xor _ _ _ => true
  | .not _ _ => true
  | .shl _ _ _ => true
  | .shr _ _ _ => true
  | .divu _ _ _ => true
  | .remu _ _ _ => true
  | .divmod rd rd2 _ _ => rd != rd2
  | .cmp _ _ => true
  | .tst _ => true
  | .bits _ _ => true
  | .strenc _ _ _ => true
  | .strdec _ _ => true
  | .ldi _ _ => true
  | .mov _ _ => true

end Sys2Proof
end

