-- ==== Sys2Proof/Decode.lean ====
section
/-! DEFINITION. Decoding a command word, total on all 2^32 words and rejecting by name (30_encoding.md R70 to R77), and
the encoder (R79) after it. -/

namespace Sys2Proof

/-- Why a command word is illegal: the three cases of R75, in the order in which R215 checks them. -/
inductive DecodeError where
  /-- R75(a): the `OPC` is not in the table of R74. -/
  | undefinedOpcode
  /-- R75(b): a bit that the format marks "must be zero" is 1. -/
  | mustBeZeroBits
  /-- R75(c): `DIVMOD` with `RD == RD2`. -/
  | sameDestinations
deriving DecidableEq, Repr

/-- `cmd[hi:lo]`: the field of bits `hi` down to `lo`, as an unsigned number (00_scope.md section 5). -/
def field (w : CmdWord) (hi lo : Nat) : Nat := w.toNat / 2 ^ lo % 2 ^ (hi - lo + 1)

/-- R71: `OPC`, bits 7:0. -/
def fieldOPC (w : CmdWord) : Nat := field w 7 0

/-- R71: `RD`, bits 11:8. -/
def fieldRD (w : CmdWord) : Reg := Fin.ofNat 16 (field w 11 8)

/-- R71: `RS1`, bits 15:12. -/
def fieldRS1 (w : CmdWord) : Reg := Fin.ofNat 16 (field w 15 12)

/-- R71: `RS2`, bits 19:16. -/
def fieldRS2 (w : CmdWord) : Reg := Fin.ofNat 16 (field w 19 16)

/-- R71: `RD2`, bits 23:20. -/
def fieldRD2 (w : CmdWord) : Reg := Fin.ofNat 16 (field w 23 20)

/-- R71: `BASE`, bits 23:16. -/
def fieldBASE (w : CmdWord) : BitVec 8 := BitVec.ofNat 8 (field w 23 16)

/-- R71: `MINLEN`, bits 31:24. -/
def fieldMINLEN (w : CmdWord) : BitVec 8 := BitVec.ofNat 8 (field w 31 24)

/-- R71: `IMM16`, bits 31:16. -/
def fieldIMM16 (w : CmdWord) : BitVec 16 := BitVec.ofNat 16 (field w 31 16)

/-- R74: the command that an opcode selects, with the fields its format uses; none where the opcode is undefined. -/
def selectRow (opc : Nat) (w : CmdWord) : Option Instr :=
  match opc with
  | 0x01 => some (.add (fieldRD w) (fieldRS1 w) (fieldRS2 w))
  | 0x02 => some (.sub (fieldRD w) (fieldRS1 w) (fieldRS2 w))
  | 0x03 => some (.neg (fieldRD w) (fieldRS1 w))
  | 0x04 => some (.mul (fieldRD w) (fieldRS1 w) (fieldRS2 w))
  | 0x08 => some (.and (fieldRD w) (fieldRS1 w) (fieldRS2 w))
  | 0x09 => some (.or (fieldRD w) (fieldRS1 w) (fieldRS2 w))
  | 0x0A => some (.xor (fieldRD w) (fieldRS1 w) (fieldRS2 w))
  | 0x0B => some (.not (fieldRD w) (fieldRS1 w))
  | 0x0C => some (.shl (fieldRD w) (fieldRS1 w) (fieldRS2 w))
  | 0x0D => some (.shr (fieldRD w) (fieldRS1 w) (fieldRS2 w))
  | 0x10 => some (.divu (fieldRD w) (fieldRS1 w) (fieldRS2 w))
  | 0x11 => some (.remu (fieldRD w) (fieldRS1 w) (fieldRS2 w))
  | 0x12 => some (.divmod (fieldRD w) (fieldRD2 w) (fieldRS1 w) (fieldRS2 w))
  | 0x18 => some (.cmp (fieldRS1 w) (fieldRS2 w))
  | 0x19 => some (.tst (fieldRS1 w))
  | 0x20 => some (.bits (fieldRD w) (fieldRS1 w))
  | 0x21 => some (.strenc (fieldRS1 w) (fieldBASE w) (fieldMINLEN w))
  | 0x22 => some (.strdec (fieldRD w) (fieldBASE w))
  | 0x30 => some (.ldi (fieldRD w) (fieldIMM16 w))
  | 0x31 => some (.mov (fieldRD w) (fieldRS1 w))
  | _ => none

/-- R72, R74: the format of each command. -/
def Instr.format : Instr → Format
  | .add _ _ _ => .rrr
  | .sub _ _ _ => .rrr
  | .neg _ _ => .rr
  | .mul _ _ _ => .rrr
  | .and _ _ _ => .rrr
  | .or _ _ _ => .rrr
  | .xor _ _ _ => .rrr
  | .not _ _ => .rr
  | .shl _ _ _ => .rrr
  | .shr _ _ _ => .rrr
  | .divu _ _ _ => .rrr
  | .remu _ _ _ => .rrr
  | .divmod _ _ _ _ => .rrrr
  | .cmp _ _ => .crr
  | .tst _ => .cr
  | .bits _ _ => .rr
  | .strenc _ _ _ => .enc
  | .strdec _ _ => .dec
  | .ldi _ _ => .ri
  | .mov _ _ => .rr

/-- R72's column "must be zero", each range as its high and low bit. -/
def mustBeZero : Format → List (Nat × Nat)
  | .rrr => [(31, 20)]
  | .rrrr => [(31, 24)]
  | .rr => [(31, 16)]
  | .crr => [(31, 20), (11, 8)]
  | .cr => [(31, 16), (11, 8)]
  | .ri => [(15, 12)]
  | .enc => [(11, 8)]
  | .dec => [(31, 24), (15, 12)]

/-- R75(b): every bit that the format marks "must be zero" is 0. -/
def mustBeZeroHolds (f : Format) (w : CmdWord) : Bool :=
  (mustBeZero f).all fun range => field w range.1 range.2 == 0

/-- R76: `MUST_BE_ZERO_MASK`. The decoder reads the ranges of R72; that the masks say the same is stated as an
obligation. -/
def mustBeZeroMask : Format → CmdWord
  | .rrr => 0xFFF00000
  | .rrrr => 0xFF000000
  | .rr => 0xFFFF0000
  | .crr => 0xFFF00F00
  | .cr => 0xFFFF0F00
  | .ri => 0x0000F000
  | .enc => 0x00000F00
  | .dec => 0xFF00F000

/-- R76, R215: the decoder. The checks stand in the order (a) opcode, (b) must-be-zero bits, (c) `DIVMOD`'s
destinations. -/
def decode (w : CmdWord) : Except DecodeError Instr :=
  match selectRow (fieldOPC w) w with
  | none => .error .undefinedOpcode
  | some i =>
    if mustBeZeroHolds i.format w then
      if i.wellFormed then .ok i else .error .sameDestinations
    else .error .mustBeZeroBits

/-- R74: the opcode of each command. -/
def Instr.opcode : Instr → Nat
  | .add _ _ _ => 0x01
  | .sub _ _ _ => 0x02
  | .neg _ _ => 0x03
  | .mul _ _ _ => 0x04
  | .and _ _ _ => 0x08
  | .or _ _ _ => 0x09
  | .xor _ _ _ => 0x0A
  | .not _ _ => 0x0B
  | .shl _ _ _ => 0x0C
  | .shr _ _ _ => 0x0D
  | .divu _ _ _ => 0x10
  | .remu _ _ _ => 0x11
  | .divmod _ _ _ _ => 0x12
  | .cmp _ _ => 0x18
  | .tst _ => 0x19
  | .bits _ _ => 0x20
  | .strenc _ _ _ => 0x21
  | .strdec _ _ => 0x22
  | .ldi _ _ => 0x30
  | .mov _ _ => 0x31

/-- R79: the operand fields of a command shifted to their positions, summed; absent fields are 0. -/
def Instr.operandFields : Instr → Nat
  | .add rd rs1 rs2 => rd.val * 2 ^ 8 + rs1.val * 2 ^ 12 + rs2.val * 2 ^ 16
  | .sub rd rs1 rs2 => rd.val * 2 ^ 8 + rs1.val * 2 ^ 12 + rs2.val * 2 ^ 16
  | .neg rd rs1 => rd.val * 2 ^ 8 + rs1.val * 2 ^ 12
  | .mul rd rs1 rs2 => rd.val * 2 ^ 8 + rs1.val * 2 ^ 12 + rs2.val * 2 ^ 16
  | .and rd rs1 rs2 => rd.val * 2 ^ 8 + rs1.val * 2 ^ 12 + rs2.val * 2 ^ 16
  | .or rd rs1 rs2 => rd.val * 2 ^ 8 + rs1.val * 2 ^ 12 + rs2.val * 2 ^ 16
  | .xor rd rs1 rs2 => rd.val * 2 ^ 8 + rs1.val * 2 ^ 12 + rs2.val * 2 ^ 16
  | .not rd rs1 => rd.val * 2 ^ 8 + rs1.val * 2 ^ 12
  | .shl rd rs1 rs2 => rd.val * 2 ^ 8 + rs1.val * 2 ^ 12 + rs2.val * 2 ^ 16
  | .shr rd rs1 rs2 => rd.val * 2 ^ 8 + rs1.val * 2 ^ 12 + rs2.val * 2 ^ 16
  | .divu rd rs1 rs2 => rd.val * 2 ^ 8 + rs1.val * 2 ^ 12 + rs2.val * 2 ^ 16
  | .remu rd rs1 rs2 => rd.val * 2 ^ 8 + rs1.val * 2 ^ 12 + rs2.val * 2 ^ 16
  | .divmod rd rd2 rs1 rs2 => rd.val * 2 ^ 8 + rs1.val * 2 ^ 12 + rs2.val * 2 ^ 16 + rd2.val * 2 ^ 20
  | .cmp rs1 rs2 => rs1.val * 2 ^ 12 + rs2.val * 2 ^ 16
  | .tst rs1 => rs1.val * 2 ^ 12
  | .bits rd rs1 => rd.val * 2 ^ 8 + rs1.val * 2 ^ 12
  | .strenc rs1 base minlen => rs1.val * 2 ^ 12 + base.toNat * 2 ^ 16 + minlen.toNat * 2 ^ 24
  | .strdec rd base => rd.val * 2 ^ 8 + base.toNat * 2 ^ 16
  | .ldi rd imm => rd.val * 2 ^ 8 + imm.toNat * 2 ^ 16
  | .mov rd rs1 => rd.val * 2 ^ 8 + rs1.val * 2 ^ 12

/-- R79: the command word of a command, "the sum of its fields shifted to their positions". -/
def encode (i : Instr) : CmdWord := BitVec.ofNat 32 (i.opcode + i.operandFields)

/-- One row of the machine-readable opcode table: a word selects the row iff `(w & mask) == match`
(30_encoding.md, opening). -/
structure TableRow where
  opc : Nat
  pattern : CmdWord
  mask : CmdWord
deriving DecidableEq, Repr

/-- opcode_table.json: `match` (here `pattern`) and `mask` of the twenty rows, in the table's order. The decoder does
not read this list; that both select the same words is stated as an obligation. -/
def opcodeTable : List TableRow := [
  ⟨0x01, 0x00000001, 0xFFF000FF⟩, ⟨0x02, 0x00000002, 0xFFF000FF⟩, ⟨0x03, 0x00000003, 0xFFFF00FF⟩,
  ⟨0x04, 0x00000004, 0xFFF000FF⟩, ⟨0x08, 0x00000008, 0xFFF000FF⟩, ⟨0x09, 0x00000009, 0xFFF000FF⟩,
  ⟨0x0A, 0x0000000A, 0xFFF000FF⟩, ⟨0x0B, 0x0000000B, 0xFFFF00FF⟩, ⟨0x0C, 0x0000000C, 0xFFF000FF⟩,
  ⟨0x0D, 0x0000000D, 0xFFF000FF⟩, ⟨0x10, 0x00000010, 0xFFF000FF⟩, ⟨0x11, 0x00000011, 0xFFF000FF⟩,
  ⟨0x12, 0x00000012, 0xFF0000FF⟩, ⟨0x18, 0x00000018, 0xFFF00FFF⟩, ⟨0x19, 0x00000019, 0xFFFF0FFF⟩,
  ⟨0x20, 0x00000020, 0xFFFF00FF⟩, ⟨0x21, 0x00000021, 0x00000FFF⟩, ⟨0x22, 0x00000022, 0xFF00F0FF⟩,
  ⟨0x30, 0x00000030, 0x0000F0FF⟩, ⟨0x31, 0x00000031, 0xFFFF00FF⟩]

/-- The row that a word selects by its mask and pattern. -/
def TableRow.selects (r : TableRow) (w : CmdWord) : Bool := (w &&& r.mask) == r.pattern

/-- The instruction the decoder reads from a word of `nbits` bits whose bits above `nbits` are 0. A command is 32 bits
(R70): a wider word is none. -/
def decodeTableWord (nbits w : Nat) : Option Instr :=
  if w % 2 ^ nbits < 2 ^ 32 then
    match decode (BitVec.ofNat 32 (w % 2 ^ nbits)) with
    | .ok i => some i
    | .error _ => none
  else none

end Sys2Proof
end

