-- ==== Sys2Proof/Machine/Logic.lean ====
section
/-! DEFINITION. The bitwise and shift primitives (42_logic_shift.md). -/

namespace Sys2Proof.Machine

/-- R130: limb-wise AND. -/
def valueAnd (a b : Value) : Value := ⟨a.hi &&& b.hi, a.lo &&& b.lo⟩

/-- R131: limb-wise OR. -/
def valueOr (a b : Value) : Value := ⟨a.hi ||| b.hi, a.lo ||| b.lo⟩

/-- R132: limb-wise exclusive OR. -/
def valueXor (a b : Value) : Value := ⟨a.hi ^^^ b.hi, a.lo ^^^ b.lo⟩

/-- R133: limb-wise complement. -/
def valueNot (a : Value) : Value := ⟨~~~a.hi, ~~~a.lo⟩

/-- R135: the left shift by `n < 128`, by its four cases. -/
def shiftLeftBy (a : Value) (n : Nat) : Value :=
  if n = 0 then a
  else if n < 64 then ⟨(a.hi <<< n) ||| (a.lo >>> (64 - n)), a.lo <<< n⟩
  else if n = 64 then ⟨a.lo, 0⟩
  else ⟨a.lo <<< (n - 64), 0⟩

/-- R136: the right shift by `n < 128`, by its four cases; vacated bits are 0. -/
def shiftRightBy (a : Value) (n : Nat) : Value :=
  if n = 0 then a
  else if n < 64 then ⟨a.hi >>> n, (a.lo >>> n) ||| (a.hi <<< (64 - n))⟩
  else if n = 64 then ⟨0, a.hi⟩
  else ⟨0, a.hi >>> (n - 64)⟩

/-- R134, R135: the left shift by a 128-bit amount; 0 where the amount is out of range. -/
def valueShl (a n : Value) : Value :=
  match shiftOperand n with
  | none => Value.zero
  | some k => shiftLeftBy a k

/-- R134, R136: the right shift by a 128-bit amount; 0 where the amount is out of range. -/
def valueShr (a n : Value) : Value :=
  match shiftOperand n with
  | none => Value.zero
  | some k => shiftRightBy a k

/-- R130: `AND vd, vs1, vs2`. -/
def execAnd (rd rs1 rs2 : Reg) (s : State) : Host.Outcome State Fault Refusal :=
  .next (s.writeReg rd (valueAnd (s.readReg rs1) (s.readReg rs2)))

/-- R131: `OR vd, vs1, vs2`. -/
def execOr (rd rs1 rs2 : Reg) (s : State) : Host.Outcome State Fault Refusal :=
  .next (s.writeReg rd (valueOr (s.readReg rs1) (s.readReg rs2)))

/-- R132: `XOR vd, vs1, vs2`. -/
def execXor (rd rs1 rs2 : Reg) (s : State) : Host.Outcome State Fault Refusal :=
  .next (s.writeReg rd (valueXor (s.readReg rs1) (s.readReg rs2)))

/-- R133: `NOT vd, vs1`. -/
def execNot (rd rs1 : Reg) (s : State) : Host.Outcome State Fault Refusal :=
  .next (s.writeReg rd (valueNot (s.readReg rs1)))

/-- R135: `SHL vd, vs1, vs2`. -/
def execShl (rd rs1 rs2 : Reg) (s : State) : Host.Outcome State Fault Refusal :=
  .next (s.writeReg rd (valueShl (s.readReg rs1) (s.readReg rs2)))

/-- R136: `SHR vd, vs1, vs2`. -/
def execShr (rd rs1 rs2 : Reg) (s : State) : Host.Outcome State Fault Refusal :=
  .next (s.writeReg rd (valueShr (s.readReg rs1) (s.readReg rs2)))

end Sys2Proof.Machine
end

