-- ==== Sys2Proof/Machine/Divide.lean ====
section
/-! DEFINITION. The restoring long divider and its commands (43_divide.md). -/

namespace Sys2Proof.Machine

/-- R150: the loop of the general case, for the bits `n - 1` down to 0 of the dividend. -/
def divLoop (a b : Value) : Nat → Value → Value → Value × Value
  | 0, q, r => (q, r)
  | i + 1, q, r =>
    let q := shiftLeftBy q 1
    let r := shiftLeftBy r 1
    let r := if a.bit i then valueOr r Value.one else r
    if valueGe r b then divLoop a b i (valueOr q Value.one) (valueSub r b)
    else divLoop a b i q r

/-- R150: `DIVCORE(a, b)`, the quotient and the remainder; none where it raises `DIVIDE_BY_ZERO`. The fast paths stand in
the order written. -/
def divCore (a b : Value) : Option (Value × Value) :=
  if b = Value.zero then none
  else if b = Value.one then some (a, Value.zero)
  else if a = b then some (Value.one, Value.zero)
  else if a = Value.zero ∨ valueLt a b = true then some (Value.zero, a)
  else some (divLoop a b (bitLength a) Value.zero Value.zero)

/-- R152: `DIVU vd, vs1, vs2`. R213: on a zero divisor the destination is not written. -/
def execDivu (rd rs1 rs2 : Reg) (s : State) : Host.Outcome State Fault Refusal :=
  match divCore (s.readReg rs1) (s.readReg rs2) with
  | none => .next (raiseFault .divideByZero (encode (.divu rd rs1 rs2)) s)
  | some (q, _) => .next (s.writeReg rd q)

/-- R153: `REMU vd, vs1, vs2`. -/
def execRemu (rd rs1 rs2 : Reg) (s : State) : Host.Outcome State Fault Refusal :=
  match divCore (s.readReg rs1) (s.readReg rs2) with
  | none => .next (raiseFault .divideByZero (encode (.remu rd rs1 rs2)) s)
  | some (_, r) => .next (s.writeReg rd r)

/-- R154: `DIVMOD vq, vr, vs1, vs2`. R75(c): with `RD == RD2` it is illegal; the decoder never answers that form, and the
meaning takes the same fault (log 12). -/
def execDivmod (rd rd2 rs1 rs2 : Reg) (s : State) : Host.Outcome State Fault Refusal :=
  if rd = rd2 then .next (raiseFault .illegalCommand (encode (.divmod rd rd2 rs1 rs2)) s)
  else
    match divCore (s.readReg rs1) (s.readReg rs2) with
    | none => .next (raiseFault .divideByZero (encode (.divmod rd rd2 rs1 rs2)) s)
    | some (q, r) => .next ((s.writeReg rd q).writeReg rd2 r)

end Sys2Proof.Machine
end

