-- ==== Sys2Proof/Machine/Codec.lean ====
section
/-! DEFINITION. The base-N string encoder and decoder (44_codec.md sections 2 and 3). Character codes are ASCII
(00_scope.md section 5). -/

namespace Sys2Proof.Machine

/-- R172: the render alphabet "0123456789abcdef". -/
def renderAlphabet : List Byte :=
  [0x30, 0x31, 0x32, 0x33, 0x34, 0x35, 0x36, 0x37, 0x38, 0x39, 0x61, 0x62, 0x63, 0x64, 0x65, 0x66]

/-- R172: `ALPHA[d]`, for a digit `d` in 0..15. -/
def alpha (d : Nat) : Byte := renderAlphabet.getD d 0x30

/-- R173: the loop `while x != 0`, least significant digit first, each consed in front of `t`. A value below 2^128 has
at most 128 digits in a base of 2 or more, which is the fuel that `renderText` gives (log 10). -/
def renderLoop (base : Value) : Nat → Value → List Byte → List Byte
  | 0, _, t => t
  | fuel + 1, x, t =>
    if x = Value.zero then t
    else
      match divCore x base with
      | none => t
      | some (q, d) => renderLoop base fuel q (alpha d.lo.toNat :: t)

/-- R173: the text of a value before padding. -/
def renderText (base : Value) (a : Value) : List Byte :=
  if a = Value.zero then [0x30] else renderLoop base 128 a []

/-- R173: left padding with '0' to the minimum length `m`. -/
def padText (m : Nat) (t : List Byte) : List Byte :=
  if t.length < m then List.replicate (m - t.length) 0x30 ++ t else t

/-- R173: `base < 2 or base > 16` is false. -/
def renderBaseOk (base : BitVec 8) : Bool := decide (2 ≤ base.toNat) && decide (base.toNat ≤ 16)

/-- R174: the text goes to `CBUF[0..n-1]`, `SLEN <- n`; the other bytes keep their values. -/
def placeText (t : List Byte) (s : State) : State :=
  { s.writeBytes 0 t with slen := BitVec.ofNat 32 t.length }

/-- R173: `STRENC vs1, base, minlen`. -/
def execStrenc (rs1 : Reg) (base minlen : BitVec 8) (s : State) : Host.Outcome State Fault Refusal :=
  if renderBaseOk base then
    .next (placeText (padText (countOperand minlen) (renderText (baseOperand base) (s.readReg rs1))) s)
  else .next (raiseFault .invalidBase (encode (.strenc rs1 base minlen)) s)

/-- R175: the whitespace set `WS`. -/
def isSpace (c : Byte) : Bool :=
  c == 0x20 || c == 0x09 || c == 0x0A || c == 0x0B || c == 0x0C || c == 0x0D

/-- R175: a NUL ends the text, then leading whitespace is skipped. -/
def trimText (t : List Byte) : List Byte := (t.takeWhile (· != 0)).dropWhile isSpace

/-- R175: the text `STRDEC` parses: `CBUF[0 .. SLEN-1]`, trimmed. -/
def parseInput (s : State) : List Byte := trimText (s.readBytes 0 s.slen.toNat)

/-- R176: the window, the last `min(len(t), n)` characters. -/
def window (n : Nat) (t : List Byte) : List Byte := t.drop (t.length - n)

/-- R177, R178: the digit a character stands for: '0'..'9', and for base 16 either case of 'a'..'f'. None where it is no
digit of any base. -/
def digitOf (c : Byte) : Option Nat :=
  let n := c.toNat
  if 0x30 ≤ n ∧ n ≤ 0x39 then some (n - 0x30)
  else if 0x61 ≤ n ∧ n ≤ 0x66 then some (n - 0x61 + 10)
  else if 0x41 ≤ n ∧ n ≤ 0x46 then some (n - 0x41 + 10)
  else none

/-- R177: `HEXPREFIX`, from the accumulator `x` on, stopping at the first character that is no hex digit. -/
def hexPrefix : Limb → List Byte → Limb
  | x, [] => x
  | x, c :: rest =>
    match digitOf c with
    | none => x
    | some d => hexPrefix (x * 16 + BitVec.ofNat 64 d) rest

/-- R177: base 16, the two parts of the window decoded independently. -/
def parseHex (t : List Byte) : Value :=
  let w := window 32 t
  let u := w.length - 16
  ⟨hexPrefix 0 (w.take u), hexPrefix 0 (w.drop u)⟩

/-- R178: a decimal or octal digit, '0' up to '0' + base - 1, as its value. -/
def smallDigit (base : Nat) (c : Byte) : Option Nat :=
  if 0x30 ≤ c.toNat ∧ c.toNat < 0x30 + base then some (c.toNat - 0x30) else none

/-- R178: `v <- (v * B) + digit` with the wrapping multiply and add, stopping at the first character that is no digit. -/
def digitLoop (base : Nat) : Value → List Byte → Value
  | v, [] => v
  | v, c :: rest =>
    match smallDigit base c with
    | none => v
    | some d => digitLoop base (valueAdd (valueMul v (countValue base)) (countValue d)) rest

/-- R176, R178: base 10, the last 39 characters. -/
def parseDecimal (t : List Byte) : Value := digitLoop 10 Value.zero (window 39 t)

/-- R176, R178: base 8, the last 43 characters. -/
def parseOctal (t : List Byte) : Value := digitLoop 8 Value.zero (window 43 t)

/-- R179: the scan over the window; `u` is how many characters of the upper portion are left. -/
def bitLoop : Nat → Value → List Byte → Value
  | _, v, [] => v
  | u, v, c :: rest =>
    match smallDigit 2 c with
    | none => v
    | some d =>
      if 0 < u then bitLoop (u - 1) ⟨(v.hi <<< 1) ||| BitVec.ofNat 64 d, v.lo⟩ rest
      else bitLoop 0 ⟨v.hi, (v.lo <<< 1) ||| BitVec.ofNat 64 d⟩ rest

/-- R176, R179: base 2, the last 128 characters, the last 64 of them the lower portion. -/
def parseBinary (t : List Byte) : Value :=
  let w := window 128 t
  bitLoop (w.length - 64) Value.zero w

/-- R180: the value of a text in a base; 0 for the empty text, and 0 for a base other than 2, 8, 10 or 16 (a soft
failure, R219). -/
def parseText (base : Nat) (t : List Byte) : Value :=
  if t = [] then Value.zero
  else if base = 16 then parseHex t
  else if base = 10 then parseDecimal t
  else if base = 8 then parseOctal t
  else if base = 2 then parseBinary t
  else Value.zero

/-- R180: `STRDEC vd, base`. It never faults. -/
def execStrdec (rd : Reg) (base : BitVec 8) (s : State) : Host.Outcome State Fault Refusal :=
  .next (s.writeReg rd (parseText (countOperand base) (parseInput s)))

end Sys2Proof.Machine
end

