-- ==== Sys2Proof/Machine/Compare.lean ====
section
/-! DEFINITION. CMP and TST (45_compare.md). -/

namespace Sys2Proof.Machine

/-- R200: `CMP vs1, vs2`. -/
def execCmp (rs1 rs2 : Reg) (s : State) : Host.Outcome State Fault Refusal :=
  .next { s with flags := cmpFlags (s.readReg rs1) (s.readReg rs2) s.flags }

/-- R201: `TST vs1`. -/
def execTst (rs1 : Reg) (s : State) : Host.Outcome State Fault Refusal :=
  .next { s with flags := tstFlags (s.readReg rs1) s.flags }

end Sys2Proof.Machine
end

