-- ==== Sys2Proof/Machine/Move.lean ====
section
/-! DEFINITION. LDI and MOV (40_move.md). -/

namespace Sys2Proof.Machine

/-- R100: `LDI vd, imm`. -/
def execLdi (rd : Reg) (imm : BitVec 16) (s : State) : Host.Outcome State Fault Refusal :=
  .next (s.writeReg rd (immOperand imm))

/-- R101: `MOV vd, vs1`. -/
def execMov (rd rs1 : Reg) (s : State) : Host.Outcome State Fault Refusal :=
  .next (s.writeReg rd (s.readReg rs1))

end Sys2Proof.Machine
end

