-- ==== Sys2Proof/Machine/Dispatch.lean ====
section
/-! DEFINITION. The meaning of each command (30_encoding.md R74). -/

namespace Sys2Proof.Machine

/-- R74, R76: "execute the rule of OPCODE_MAP[opc] with the fields of rule R71". -/
def exec (i : Instr) (s : State) : Host.Outcome State Fault Refusal :=
  match i with
  | .add rd rs1 rs2 => Sys2Proof.Machine.execAdd rd rs1 rs2 s
  | .sub rd rs1 rs2 => Sys2Proof.Machine.execSub rd rs1 rs2 s
  | .neg rd rs1 => Sys2Proof.Machine.execNeg rd rs1 s
  | .mul rd rs1 rs2 => Sys2Proof.Machine.execMul rd rs1 rs2 s
  | .and rd rs1 rs2 => Sys2Proof.Machine.execAnd rd rs1 rs2 s
  | .or rd rs1 rs2 => Sys2Proof.Machine.execOr rd rs1 rs2 s
  | .xor rd rs1 rs2 => Sys2Proof.Machine.execXor rd rs1 rs2 s
  | .not rd rs1 => Sys2Proof.Machine.execNot rd rs1 s
  | .shl rd rs1 rs2 => Sys2Proof.Machine.execShl rd rs1 rs2 s
  | .shr rd rs1 rs2 => Sys2Proof.Machine.execShr rd rs1 rs2 s
  | .divu rd rs1 rs2 => Sys2Proof.Machine.execDivu rd rs1 rs2 s
  | .remu rd rs1 rs2 => Sys2Proof.Machine.execRemu rd rs1 rs2 s
  | .divmod rd rd2 rs1 rs2 => Sys2Proof.Machine.execDivmod rd rd2 rs1 rs2 s
  | .cmp rs1 rs2 => Sys2Proof.Machine.execCmp rs1 rs2 s
  | .tst rs1 => Sys2Proof.Machine.execTst rs1 s
  | .bits rd rs1 => Sys2Proof.Machine.execBits rd rs1 s
  | .strenc rs1 base minlen => Sys2Proof.Machine.execStrenc rs1 base minlen s
  | .strdec rd base => Sys2Proof.Machine.execStrdec rd base s
  | .ldi rd imm => Sys2Proof.Machine.execLdi rd imm s
  | .mov rd rs1 => Sys2Proof.Machine.execMov rd rs1 s

end Sys2Proof.Machine
end

