-- ==== Sys2Proof/Machine/Sequence.lean ====
section
/-! DEFINITION. What one step does: completing the pending command (10_state.md R29; 30_encoding.md R76) and the port's
order of accesses (20_memory.md R55, R56). -/

namespace Sys2Proof.Machine

/-- R76, R213: what stands around the execution of a command: `PEND` is emptied in every case. -/
def retireOutcome : Host.Outcome State Fault Refusal → Host.Outcome State Fault Refusal
  | .next t => .next (retire t)
  | .fault r => .fault r
  | .refused r => .refused r

/-- R29, R76: the core completes the command word in `PEND` as one atomic step. An illegal word raises
`ILLEGAL_COMMAND` (R211). -/
def completeCommand (w : CmdWord) (s : State) : Host.Outcome State Fault Refusal :=
  match decode w with
  | .error _ => .next (retire (raiseFault .illegalCommand w s))
  | .ok i => retireOutcome (exec i s)

/-- The unit's own next piece of work while the port accepts nothing: the pending command; else the oldest held access
(R55); else nothing, the core being idle (R226, R242). `rest` is what is left of the host's events once the command is
completed or the core is idle. -/
def ownWork (rest : List HostEvent) (s : State) : Host.Outcome State Fault Refusal :=
  match s.pend with
  | some w => completeCommand w { s with inputs := rest }
  | none =>
    match s.held with
    | [] => .next { s with inputs := rest }
    | h :: hs => performAccess h { s with held := hs }

/-- R45, R48, R55, R56: the port's next access is `a`. While `PEND` is full it is held, unless it is a `STATUS` read, which
sees the values before the pending command completes or (`late`) after it, before any held access. While `PEND` is empty
the accesses held earlier go first. -/
def portAccess (a : Access) (late : Bool) (rest : List HostEvent) (s : State) : Host.Outcome State Fault Refusal :=
  match s.pend with
  | some w =>
    if isStatusRead a then
      if late then completeCommand w s else performAccess a { s with inputs := rest }
    else .next { s with held := s.held ++ [a], inputs := rest }
  | none =>
    match s.held with
    | [] => performAccess a { s with inputs := rest }
    | h :: hs =>
      if isStatusRead a && late then performAccess a { s with inputs := rest }
      else performAccess h { s with held := hs }

/-- One step: the host's next event, or the unit's own work. R250: with no event left a full `PEND` is completed. -/
def nextStep (s : State) : Host.Outcome State Fault Refusal :=
  match s.inputs with
  | [] => ownWork [] s
  | .idle :: rest => ownWork rest s
  | .access a late :: rest => portAccess a late rest s
  | .reset keepHeld :: rest => .next (State.resetInput { s with inputs := rest } keepHeld)

/-- The state with a command word latched in `PEND` and the core's turn next, the host's events after it (log 6). -/
def latchCommand (s : State) (w : CmdWord) : State := { s with pend := some w, inputs := .idle :: s.inputs }

end Sys2Proof.Machine
end

