-- ==== Sys2Proof/Machine/Step.lean ====
section
/-! DEFINITION. One step of the machine, and the state that runs a given word next. -/

namespace Sys2Proof.Machine

/-- One step (Sequence.lean). -/
def step (s : State) : Host.Outcome State Fault Refusal := nextStep s

/-- The state whose very next step completes the command word made of the low `nbits` bits of `w`, the bits above them
0: the word in `PEND` (R29), and the core's turn first (log 6). -/
def State.withFetchWord (s : State) (nbits w : Nat) : State := latchCommand s (BitVec.ofNat 32 (w % 2 ^ nbits))

end Sys2Proof.Machine
end

