-- ==== Sys2Proof/Machine/Assembler.lean ====
section
/-! DEFINITION. The assembler syntax, the pseudo-instructions and the host's pseudo-operations (30_encoding.md R78, R80,
R83, R84). Text is a list of characters. The machine does not use this file. -/

namespace Sys2Proof.Machine

/-- R83: the pseudo-instructions. -/
inductive Pseudo where
  | clr (vd : Reg)
  | ones (vd : Reg)
  | inc (vd vt : Reg)
  | decr (vd vt : Reg)
  | sqr (vd vs : Reg)
  | swap (va vb vt : Reg)
deriving DecidableEq, Repr

/-- R83: the scratch register "must differ from `vd`"; for `SWAP` from both registers swapped (log 16). -/
def pseudoWellFormed : Pseudo → Bool
  | .clr _ => true
  | .ones _ => true
  | .inc vd vt => vt != vd
  | .decr vd vt => vt != vd
  | .sqr _ _ => true
  | .swap va vb vt => vt != va && vt != vb

/-- R83: the expansion of each pseudo-instruction. -/
def expandPseudo : Pseudo → List Instr
  | .clr vd => [.ldi vd 0]
  | .ones vd => [.ldi vd (-1)]
  | .inc vd vt => [.ldi vt 1, .add vd vd vt]
  | .decr vd vt => [.ldi vt 1, .sub vd vd vt]
  | .sqr vd vs => [.mul vd vs vs]
  | .swap va vb vt => [.mov vt va, .mov va vb, .mov vb vt]

/-- R80: the host's pseudo-operations. `hr32 off late` carries the choice that R56 leaves free: whether an `HR32 0x004`
accepted while `PEND` is full sees `STATUS` after the pending command (`late`) or before it; for any other read the flag
has no effect (log 4, log 16). `poll n` reads `STATUS` `n` times while the command is pending and once after it, the
number that R80 leaves to the timing (log 16). -/
inductive HostOp where
  | hw32 (off w : Nat)
  | hr32 (off : Nat) (late : Bool)
  | hw64 (off d : Nat)
  | hr64 (off : Nat)
  | hw8 (off b : Nat)
  | ld128 (i : Reg) (x : Nat)
  | rd128 (i : Reg)
  | text (t : List Byte)
  | command (i : Instr)
  | poll (n : Nat)
deriving DecidableEq, Repr

/-- A write accepted by the port; no write is late (log 4). -/
def writeEvent (off width d : Nat) : HostEvent := .access (.write (BitVec.ofNat 12 off) width (BitVec.ofNat 64 d)) false

/-- A read accepted by the port. `late` matters for a `STATUS` read accepted while `PEND` is full alone, where R56 leaves
it free (log 4, log 16). -/
def readEvent (off width : Nat) (late : Bool) : HostEvent := .access (.read (BitVec.ofNat 12 off) width) late

/-- R80: one `HW8 0x400+k, s[k]` for each character. -/
def textEvents : Nat → List Byte → List HostEvent
  | _, [] => []
  | k, b :: rest => writeEvent (0x400 + k) 1 b.toNat :: textEvents (k + 1) rest

/-- R80: the accesses that a pseudo-operation stands for. -/
def hostEvents : HostOp → List HostEvent
  | .hw32 off w => [writeEvent off 4 w]
  | .hr32 off late => [readEvent off 4 late]
  | .hw64 off d => [writeEvent off 8 d]
  | .hr64 off => [readEvent off 8 false]
  | .hw8 off b => [writeEvent off 1 b]
  | .ld128 i x => [writeEvent (0x100 + 16 * i.val) 8 (x % 2 ^ 64), writeEvent (0x108 + 16 * i.val) 8 (x / 2 ^ 64)]
  | .rd128 i => [readEvent (0x100 + 16 * i.val) 8 false, readEvent (0x108 + 16 * i.val) 8 false]
  | .text t => textEvents 0 t ++ [writeEvent 0x00C 4 t.length]
  | .command i => [writeEvent 0x000 4 (encode i).toNat]
  | .poll n => List.replicate n (readEvent 0x004 4 false) ++ [readEvent 0x004 4 true]

/-- A decimal number. -/
def decimalText (n : Nat) : List Char := Nat.toDigits 10 n

/-- R78: "Registers are written `v0`..`v15`." -/
def regText (r : Reg) : List Char := 'v' :: decimalText r.val

/-- R78: the `LDI` immediate, in -32768..32767. -/
def immText (imm : BitVec 16) : List Char :=
  if imm.msb then '-' :: decimalText (2 ^ 16 - imm.toNat) else decimalText imm.toNat

/-- R74, R78: the mnemonic and the operands of a command, in the order of the syntax table. -/
def asmParts : Instr → String × List (List Char)
  | .add rd rs1 rs2 => ("ADD", [regText rd, regText rs1, regText rs2])
  | .sub rd rs1 rs2 => ("SUB", [regText rd, regText rs1, regText rs2])
  | .neg rd rs1 => ("NEG", [regText rd, regText rs1])
  | .mul rd rs1 rs2 => ("MUL", [regText rd, regText rs1, regText rs2])
  | .and rd rs1 rs2 => ("AND", [regText rd, regText rs1, regText rs2])
  | .or rd rs1 rs2 => ("OR", [regText rd, regText rs1, regText rs2])
  | .xor rd rs1 rs2 => ("XOR", [regText rd, regText rs1, regText rs2])
  | .not rd rs1 => ("NOT", [regText rd, regText rs1])
  | .shl rd rs1 rs2 => ("SHL", [regText rd, regText rs1, regText rs2])
  | .shr rd rs1 rs2 => ("SHR", [regText rd, regText rs1, regText rs2])
  | .divu rd rs1 rs2 => ("DIVU", [regText rd, regText rs1, regText rs2])
  | .remu rd rs1 rs2 => ("REMU", [regText rd, regText rs1, regText rs2])
  | .divmod rd rd2 rs1 rs2 => ("DIVMOD", [regText rd, regText rd2, regText rs1, regText rs2])
  | .cmp rs1 rs2 => ("CMP", [regText rs1, regText rs2])
  | .tst rs1 => ("TST", [regText rs1])
  | .bits rd rs1 => ("BITS", [regText rd, regText rs1])
  | .strenc rs1 base minlen => ("STRENC", [regText rs1, decimalText base.toNat, decimalText minlen.toNat])
  | .strdec rd base => ("STRDEC", [regText rd, decimalText base.toNat])
  | .ldi rd imm => ("LDI", [regText rd, immText imm])
  | .mov rd rs1 => ("MOV", [regText rd, regText rs1])

/-- R78: "its mnemonic followed by its operands separated by commas". -/
def asmText (i : Instr) : List Char :=
  let (mnemonic, operands) := asmParts i
  mnemonic.toList ++ ' ' :: ", ".toList.intercalate operands

/-- One upper-case hexadecimal digit. -/
def hexDigitText (d : Nat) : Char := "0123456789ABCDEF".toList.getD d '0'

/-- The low `n` hexadecimal digits of a number, the most significant first. -/
def hexText : Nat → Nat → List Char
  | 0, _ => []
  | n + 1, w => hexText n (w / 16) ++ [hexDigitText (w % 16)]

/-- R78: the text of a command word; a word illegal under R75 "is written `.word 0xXXXXXXXX`". -/
def disassemble (w : CmdWord) : List Char :=
  match decode w with
  | .ok i => asmText i
  | .error _ => ".word 0x".toList ++ hexText 8 w.toNat

/-- Digits of a base, from the accumulator on; none at any other character. -/
def readDigits (base : Nat) : Nat → List Char → Option Nat
  | acc, [] => some acc
  | acc, c :: rest =>
    match digitOf (BitVec.ofNat 8 c.toNat) with
    | some d => if d < base ∧ c.toNat < 128 then readDigits base (acc * base + d) rest else none
    | none => none

/-- R78: "Numbers are decimal or `0x`-prefixed hexadecimal". -/
def readNumber (t : List Char) : Option Nat :=
  match t with
  | [] => none
  | '0' :: 'x' :: c :: rest => readDigits 16 0 (c :: rest)
  | c :: rest => readDigits 10 0 (c :: rest)

/-- R78: a register operand. -/
def readReg (t : List Char) : Option Reg :=
  match t with
  | 'v' :: c :: rest =>
    match readDigits 10 0 (c :: rest) with
    | some n => if h : n < 16 then some ⟨n, h⟩ else none
    | none => none
  | _ => none

/-- R71, R78: a `BASE` or `MINLEN` operand, 0..255. -/
def readByte (t : List Char) : Option (BitVec 8) :=
  match readNumber t with
  | some n => if n < 256 then some (BitVec.ofNat 8 n) else none
  | none => none

/-- R78: the `LDI` immediate "may be negative and must lie in -32768..32767". -/
def readImm (t : List Char) : Option (BitVec 16) :=
  match t with
  | '-' :: rest =>
    match readNumber rest with
    | some n => if n ≤ 32768 then some (BitVec.ofNat 16 (65536 - n)) else none
    | none => none
  | _ =>
    match readNumber t with
    | some n => if n ≤ 32767 then some (BitVec.ofNat 16 n) else none
    | none => none

/-- The text without leading spaces. -/
def skipSpaces (t : List Char) : List Char := t.dropWhile (· == ' ')

/-- The text without leading and trailing spaces. -/
def trimSpaces (t : List Char) : List Char := (skipSpaces (skipSpaces t).reverse).reverse

/-- The operands of a line, split at the commas. -/
def splitCommas : List Char → List (List Char)
  | [] => [[]]
  | ',' :: rest => [] :: splitCommas rest
  | c :: rest =>
    match splitCommas rest with
    | [] => [[c]]
    | t :: ts => (c :: t) :: ts

/-- R74, R78, R83: the commands that a mnemonic with its operands stands for. A `DIVMOD` with one register twice and a
pseudo-instruction with a wrong scratch register are refused (R75, R83). -/
def assembleParts (mnemonic : String) (operands : List (List Char)) : Option (List Instr) :=
  match mnemonic, operands with
  | "ADD", [d, a, b] => do return [.add (← readReg d) (← readReg a) (← readReg b)]
  | "SUB", [d, a, b] => do return [.sub (← readReg d) (← readReg a) (← readReg b)]
  | "NEG", [d, a] => do return [.neg (← readReg d) (← readReg a)]
  | "MUL", [d, a, b] => do return [.mul (← readReg d) (← readReg a) (← readReg b)]
  | "AND", [d, a, b] => do return [.and (← readReg d) (← readReg a) (← readReg b)]
  | "OR", [d, a, b] => do return [.or (← readReg d) (← readReg a) (← readReg b)]
  | "XOR", [d, a, b] => do return [.xor (← readReg d) (← readReg a) (← readReg b)]
  | "NOT", [d, a] => do return [.not (← readReg d) (← readReg a)]
  | "SHL", [d, a, b] => do return [.shl (← readReg d) (← readReg a) (← readReg b)]
  | "SHR", [d, a, b] => do return [.shr (← readReg d) (← readReg a) (← readReg b)]
  | "DIVU", [d, a, b] => do return [.divu (← readReg d) (← readReg a) (← readReg b)]
  | "REMU", [d, a, b] => do return [.remu (← readReg d) (← readReg a) (← readReg b)]
  | "DIVMOD", [q, r, a, b] => do
    let i := Instr.divmod (← readReg q) (← readReg r) (← readReg a) (← readReg b)
    if i.wellFormed then return [i] else none
  | "CMP", [a, b] => do return [.cmp (← readReg a) (← readReg b)]
  | "TST", [a] => do return [.tst (← readReg a)]
  | "BITS", [d, a] => do return [.bits (← readReg d) (← readReg a)]
  | "STRENC", [a, b, m] => do return [.strenc (← readReg a) (← readByte b) (← readByte m)]
  | "STRDEC", [d, b] => do return [.strdec (← readReg d) (← readByte b)]
  | "LDI", [d, i] => do return [.ldi (← readReg d) (← readImm i)]
  | "MOV", [d, a] => do return [.mov (← readReg d) (← readReg a)]
  | "CLR", [d] => do return expandPseudo (.clr (← readReg d))
  | "ONES", [d] => do return expandPseudo (.ones (← readReg d))
  | "INC", [d, t] => do
    let p := Pseudo.inc (← readReg d) (← readReg t)
    if pseudoWellFormed p then return expandPseudo p else none
  | "DECR", [d, t] => do
    let p := Pseudo.decr (← readReg d) (← readReg t)
    if pseudoWellFormed p then return expandPseudo p else none
  | "SQR", [d, a] => do return expandPseudo (.sqr (← readReg d) (← readReg a))
  | "SWAP", [a, b, t] => do
    let p := Pseudo.swap (← readReg a) (← readReg b) (← readReg t)
    if pseudoWellFormed p then return expandPseudo p else none
  | _, _ => none

/-- R78, R83: the command words of one line of assembly; none where the line is no command. Spaces may stand around an
operand (log 16). -/
def assemble (line : List Char) : Option (List CmdWord) :=
  let line := trimSpaces line
  let mnemonic := line.takeWhile (· != ' ')
  let operands := (splitCommas (line.drop mnemonic.length)).map trimSpaces
  (assembleParts (String.ofList mnemonic) operands).map (·.map encode)

end Sys2Proof.Machine
end

