-- ==== Sys2Proof/Safety.lean ====
section
/-! DEFINITION. Runs of the machine, the invariant of its state, and what a safe run is. -/

namespace Sys2Proof.Machine

/-- The machine after reset with a host that is about to do `events` (log 6). -/
def State.start (events : List HostEvent) : State := { State.reset with inputs := events }

/-- Any number of steps, each answering a next state. -/
inductive Runs : State → State → Prop where
  | refl (s : State) : Runs s s
  | step (s t u : State) (h : step s = .next t) (rest : Runs t u) : Runs s u

/-- A state that some host brings the machine to. -/
def Reachable (s : State) : Prop := ∃ events, Runs (State.start events) s

/-- What every step keeps: the registers stay in the values that 10_state.md calls legal. -/
structure State.Inv (s : State) : Prop where
  /-- R27: the legal values of `SLEN` are 0..256. -/
  slen_legal : s.slen.toNat ≤ 256
  /-- R26: the bytes listed are bytes of `CBUF`, in the canonical form (log 2). -/
  cbuf_wf : Memory.wf s.cbuf = true
  /-- R24, R25: `ERR` and `FCMD` are 0 when `FAULT` is 0. -/
  clear_record : s.fault = false → s.err = 0 ∧ s.fcmd = 0
  /-- R24, R210, R213, R220: when `FAULT` is 1, `ERR` and `FCMD` record a fault that the log holds. -/
  fault_record : s.fault = true → ∃ r ∈ s.faultLog, s.err = r.cause.code ∧ s.fcmd = r.cmd
  /-- R23: `EQ`, `LT`, `GT` are all 0 (after reset) or exactly one is 1. -/
  flags_one_hot : (s.flags.eq && s.flags.lt) = false ∧ (s.flags.eq && s.flags.gt) = false ∧
    (s.flags.lt && s.flags.gt) = false

/-- D43: no command has faulted in the run that led here. -/
def State.faultFree (s : State) : Prop := s.faultLog = []

/-- A step is safe when it answers a next state: the host makes no bus error in it (R53). -/
def SafeStep (s : State) : Prop := ∃ t, step s = .next t

end Sys2Proof.Machine
end

