-- ==== Sys2Proof/Certificates/Slice0/Obligations.lean ====
section
/-! DEFINITION. The statements for the provers. Each docstring says which rule of the spec it formalises; one that rests on
a sentence the spec marks as derived, or on a choice of the model, says so. -/

namespace Sys2Proof.Machine.Claims

/-! Words that several statements share. -/

/-- Nothing but value registers differs between `s` and `t`: every flag, the fault record, `SLEN`, every byte of `CBUF`,
`PEND`, the held accesses, the fault log and the model's own fields are unchanged. -/
structure KeepsAllButRegs (s t : State) : Prop where
  rest : t = { s with regs := t.regs }
  bytes : ∀ k, t.cbufByte k = s.cbufByte k

/-- `t` is `s` with `V[rd]` holding `v`, and with nothing else changed. -/
structure WritesOnly (s t : State) (rd : Reg) (v : Value) : Prop where
  result : t.readReg rd = v
  others : ∀ r, r ≠ rd → t.readReg r = s.readReg r
  frame : KeepsAllButRegs s t

/-- The command answers a next state in which `V[rd]` holds `v` and nothing else has changed. -/
def Writes (i : Instr) (s : State) (rd : Reg) (v : Value) : Prop :=
  ∃ t, exec i s = .next t ∧ WritesOnly s t rd v

/-- The command is the one that the decoder reads from the word made of these summed fields (R79). -/
def EncodedAs (i : Instr) (word : Nat) : Prop := word < 2 ^ 32 ∧ decode (BitVec.ofNat 32 word) = .ok i

/-- The sum of the register fields `RD`, `RS1`, `RS2` at their positions (R71, R79). -/
def regFields (rd rs1 rs2 : Nat) : Nat := rd * 2 ^ 8 + rs1 * 2 ^ 12 + rs2 * 2 ^ 16

/-- R213, but for `PEND`: `t` is `s` with the fault of cause `c` (code `code`, word `w`) recorded, or not recorded where an
earlier fault is on record, and logged (R220); nothing else has changed. -/
structure RaisesOnly (s t : State) (c : Cause) (code : BitVec 4) (w : CmdWord) : Prop where
  first : s.fault = false → t.fault = true ∧ t.err = code ∧ t.fcmd = w
  later : s.fault = true → t.fault = true ∧ t.err = s.err ∧ t.fcmd = s.fcmd
  logged : t.faultLog = ⟨c, w⟩ :: s.faultLog
  frame : t = { s with fault := t.fault, err := t.err, fcmd := t.fcmd, faultLog := t.faultLog }
  bytes : ∀ k, t.cbufByte k = s.cbufByte k

/-- With a command pending the next step is the core's: in an idle slot, with no event left, or ahead of a `STATUS` read
that is to see the values after the command (R56; log 1, log 4). `rest` is what is left of the events then. -/
def CoreTurn (s : State) (rest : List HostEvent) : Prop :=
  s.inputs = .idle :: rest ∨ (s.inputs = [] ∧ rest = []) ∨
    (rest = s.inputs ∧ ∃ later, s.inputs = .access (.read 0x004 4) true :: later)

/-- When a command raises a fault of its own (R154, R212), or is the `DIVMOD` that R75(c) makes illegal (log 12). -/
def CommandFaults (i : Instr) (s : State) : Prop :=
  (∃ rd rs1 rs2, (i = .divu rd rs1 rs2 ∨ i = .remu rd rs1 rs2 ∨ ∃ rd2, i = .divmod rd rd2 rs1 rs2) ∧
    (s.readReg rs2).toNat = 0) ∨
  (∃ rd rs1 rs2, i = .divmod rd rd rs1 rs2) ∨
  (∃ rs1 base m, i = .strenc rs1 base m ∧ (base.toNat < 2 ∨ 16 < base.toNat))

/-- When a command word raises a fault, and which (R210 to R212). -/
def FaultCase (w : CmdWord) (s : State) (c : Cause) (code : BitVec 4) : Prop :=
  (c = .illegalCommand ∧ code = 1 ∧ ∃ e, decode w = .error e) ∨
  (c = .divideByZero ∧ code = 2 ∧ ∃ rd rs1 rs2 : Reg, (decode w = .ok (.divu rd rs1 rs2) ∨
    decode w = .ok (.remu rd rs1 rs2) ∨ ∃ rd2, decode w = .ok (.divmod rd rd2 rs1 rs2)) ∧
    (s.readReg rs2).toNat = 0) ∨
  (c = .invalidBase ∧ code = 3 ∧ ∃ rs1 base m, decode w = .ok (.strenc rs1 base m) ∧
    (base.toNat < 2 ∨ 16 < base.toNat))

/-- R74: the twenty opcodes with their formats. -/
def opcodeFormats : List (Nat × Format) :=
  [(0x01, .rrr), (0x02, .rrr), (0x03, .rr), (0x04, .rrr), (0x08, .rrr), (0x09, .rrr), (0x0A, .rrr), (0x0B, .rr),
   (0x0C, .rrr), (0x0D, .rrr), (0x10, .rrr), (0x11, .rrr), (0x12, .rrrr), (0x18, .crr), (0x19, .cr), (0x20, .rr),
   (0x21, .enc), (0x22, .dec), (0x30, .ri), (0x31, .rr)]

/-- R75: the three cases of an illegal word, with the masks of R76. -/
def Illegal (w : CmdWord) : Prop :=
  (∀ p ∈ opcodeFormats, p.1 ≠ w.toNat % 256) ∨
  (∃ p ∈ opcodeFormats, p.1 = w.toNat % 256 ∧ w &&& mustBeZeroMask p.2 ≠ 0) ∨
  (w.toNat % 256 = 0x12 ∧ w.toNat / 2 ^ 8 % 16 = w.toNat / 2 ^ 20 % 16)

/-- The value registers that a command reads (its register source fields). -/
def sources : Instr → List Reg
  | .add _ a b => [a, b]
  | .sub _ a b => [a, b]
  | .neg _ a => [a]
  | .mul _ a b => [a, b]
  | .and _ a b => [a, b]
  | .or _ a b => [a, b]
  | .xor _ a b => [a, b]
  | .not _ a => [a]
  | .shl _ a b => [a, b]
  | .shr _ a b => [a, b]
  | .divu _ a b => [a, b]
  | .remu _ a b => [a, b]
  | .divmod _ _ a b => [a, b]
  | .cmp a b => [a, b]
  | .tst a => [a]
  | .bits _ a => [a]
  | .strenc a _ _ => [a]
  | .strdec _ _ => []
  | .ldi _ _ => []
  | .mov _ a => [a]

/-- The value registers that a command writes (R82: "exactly the registers its `RD` (and, for `DIVMOD`, `RD2`) field
names"). -/
def destinations : Instr → List Reg
  | .add d _ _ => [d]
  | .sub d _ _ => [d]
  | .neg d _ => [d]
  | .mul d _ _ => [d]
  | .and d _ _ => [d]
  | .or d _ _ => [d]
  | .xor d _ _ => [d]
  | .not d _ => [d]
  | .shl d _ _ => [d]
  | .shr d _ _ => [d]
  | .divu d _ _ => [d]
  | .remu d _ _ => [d]
  | .divmod d d2 _ _ => [d, d2]
  | .cmp _ _ => []
  | .tst _ => []
  | .bits d _ => [d]
  | .strenc _ _ _ => []
  | .strdec d _ => [d]
  | .ldi d _ => [d]
  | .mov d _ => [d]

/-- The two commands that write `FLAGS` (R23). -/
def writesFlags (i : Instr) : Prop := (∃ a b, i = .cmp a b) ∨ (∃ a, i = .tst a)

/-- The one command that writes `CBUF` and `SLEN` (R26, R61). -/
def writesText (i : Instr) : Prop := ∃ a b m, i = .strenc a b m

/-- The one command that reads `CBUF` and `SLEN` (R26, R61). -/
def readsText (i : Instr) : Prop := ∃ d b, i = .strdec d b

/-- The character of a digit 0..15 in the alphabet "0123456789abcdef" (R172, ASCII). -/
def digitChar (d : Nat) : Byte := BitVec.ofNat 8 (if d < 10 then 0x30 + d else 0x57 + d)

/-- R173: the text of the number `a` in a base, padded on the left with '0' to `m` characters. `Nat.digits` lists the
digits of a positive number, the least significant first. -/
def rendered (base a m : Nat) : List Byte :=
  let t := if a = 0 then [digitChar 0] else ((Nat.digits base a).reverse.map digitChar)
  List.replicate (m - t.length) (digitChar 0) ++ t

/-- R175: the text that a parse reads: `CBUF[0..SLEN-1]` before its first NUL, without its leading whitespace. -/
def parsedText (s : State) : List Byte :=
  ((((List.range s.slen.toNat).map s.cbufByte).takeWhile (· != 0)).dropWhile
    (fun c => decide (c.toNat ∈ [0x20, 0x09, 0x0A, 0x0B, 0x0C, 0x0D])))

/-- R176: the last `min(len(t), n)` characters. -/
def lastChars (n : Nat) (t : List Byte) : List Byte := t.drop (t.length - min t.length n)

/-- The value of a character as a digit of a base, none where it is no digit of it (R177 to R179: either case of the
letters is a digit of base 16). -/
def digitValue (base : Nat) (c : Byte) : Option Nat :=
  let n := c.toNat
  let d := if 0x30 ≤ n ∧ n ≤ 0x39 then n - 0x30
    else if 0x41 ≤ n ∧ n ≤ 0x46 then n - 0x41 + 10
    else if 0x61 ≤ n ∧ n ≤ 0x66 then n - 0x61 + 10 else base
  if d < base then some d else none

/-- The number that the digits at the front of a text write, the most significant first, up to its first character that is
no digit of the base. -/
def prefixNumber (base : Nat) (t : List Byte) : Nat :=
  ((t.takeWhile (fun c => (digitValue base c).isSome)).filterMap (digitValue base)).foldl (fun v d => v * base + d) 0

/-- R177: the upper part is the window's first `max(W - 16, 0)` characters, the lower part the rest. -/
def hexNumber (w : List Byte) : Nat :=
  prefixNumber 16 (w.take (w.length - 16)) * 2 ^ 64 + prefixNumber 16 (w.drop (w.length - 16))

/-- R179: the upper portion is the window's first `max(W - 64, 0)` characters; a stop inside it leaves the lower limb 0. -/
def binaryNumber (w : List Byte) : Nat :=
  let upper := w.take (w.length - 64)
  prefixNumber 2 upper * 2 ^ 64 +
    (if upper.all (fun c => (digitValue 2 c).isSome) then prefixNumber 2 (w.drop (w.length - 64)) else 0)

/-- R180: the number that `STRDEC` parses, before it is reduced modulo 2^128. -/
def parsedNumber (base : Nat) (t : List Byte) : Nat :=
  if base = 16 then hexNumber (lastChars 32 t)
  else if base = 10 then prefixNumber 10 (lastChars 39 t)
  else if base = 8 then prefixNumber 8 (lastChars 43 t)
  else if base = 2 then binaryNumber (lastChars 128 t)
  else 0

/-- No command is pending and the port holds no access. -/
def Quiet (s : State) : Prop := s.pend = none ∧ s.held = []

/-- R42, R53, R54: an access of `width` bytes at an offset is one the map accepts. -/
def Accepted (off width : Nat) : Prop :=
  (width = 4 ∧ off ∈ [0x000, 0x004, 0x008, 0x00C, 0x010]) ∨
  (width = 8 ∧ 0x100 ≤ off ∧ off < 0x200 ∧ off % 8 = 0) ∨
  (width ∈ [1, 2, 4, 8] ∧ 0x400 ≤ off ∧ off < 0x500 ∧ off % width = 0)

/-- The offset of an access. -/
def offsetOf : Access → Nat
  | .read off _ => off.toNat
  | .write off _ _ => off.toNat

/-- The width of an access. -/
def widthOf : Access → Nat
  | .read _ width => width
  | .write _ width _ => width

/-- The next event is the acceptance of this access. -/
def NextAccess (s : State) (a : Access) (late : Bool) (rest : List HostEvent) : Prop :=
  s.inputs = .access a late :: rest

/-- `s` with the next event taken and the answer to it on record. -/
def answered (s : State) (rest : List HostEvent) (a : Access) (r : Response) : State :=
  { s with inputs := rest, responses := ⟨a, r⟩ :: s.responses }

/-- R56: one access performed, and the command that it issues, if any, executed at once. -/
def performWhole (a : Access) (s : State) : Host.Outcome State Fault Refusal :=
  match performAccess a s with
  | .next t =>
    match t.pend with
    | some w => completeCommand w t
    | none => .next t
  | .fault r => .fault r
  | .refused r => .refused r

/-- R56: accesses performed one at a time in their order, each command executed between the access that issued it and the
next. -/
def sequentialRun : List Access → State → Host.Outcome State Fault Refusal
  | [], s => .next s
  | a :: rest, s =>
    match performWhole a s with
    | .next t => sequentialRun rest t
    | .fault r => .fault r
    | .refused r => .refused r

/-- The accesses among the host's events, in order. -/
def accessesOf : List HostEvent → List Access
  | [] => []
  | .access a _ :: rest => a :: accessesOf rest
  | .idle :: rest => accessesOf rest
  | .reset _ :: rest => accessesOf rest

/-- Host events without a reset and without a `STATUS` read, the accesses whose answer no timing can change. -/
def PlainEvents (events : List HostEvent) : Prop :=
  ∀ e ∈ events, e = .idle ∨ ∃ a late, e = .access a late ∧ isStatusRead a = false

/-- Commands executed one after another. -/
def execAll : List Instr → State → Host.Outcome State Fault Refusal
  | [], s => .next s
  | i :: rest, s =>
    match exec i s with
    | .next t => execAll rest t
    | .fault r => .fault r
    | .refused r => .refused r

end Sys2Proof.Machine.Claims

open Sys2Proof Sys2Proof.Machine Sys2Proof.Machine.Claims

/-! ## Reset -/

/-- R32: every piece of state after reset has the value of the table; each byte of `CBUF` holds the value drawn for it
(a free value, log 2). -/
def Obligations.ResetLeavesTheValuesOfTheTable : Prop :=
  (∀ i, (State.reset.readReg i).hi = 0 ∧ (State.reset.readReg i).lo = 0) ∧ flagsWord State.reset = 0 ∧
  statusWord State.reset = 0 ∧ State.reset.fcmd = 0 ∧ State.reset.slen = 0 ∧ State.reset.pend = none ∧
  ∀ k, k < 256 → State.reset.cbufByte k = Config.cbufDraw State.reset.draw k

/-- 70_reset_and_hazards.md section 1: a reset event gives every piece of the core's state its reset value, whatever the
state was, a pending command being abandoned. The model's choices: `CBUF` is drawn anew (log 3), held accesses are kept or
dropped as the event says (log 7), the fault log stays (R220; log 8). -/
def Obligations.ResetInputAbandonsThePendingCommand : Prop :=
  ∀ s keep rest, s.inputs = .reset keep :: rest → ∃ t, step s = .next t ∧
    (∀ i, (t.readReg i).toNat = 0) ∧ flagsWord t = 0 ∧ statusWord t = 0 ∧ t.fcmd = 0 ∧ t.slen = 0 ∧ t.pend = none ∧
    (∀ k, k < 256 → t.cbufByte k = Config.cbufDraw (s.draw + 1) k) ∧
    t.held = (if keep then s.held else []) ∧ t.faultLog = s.faultLog ∧ t.inputs = rest ∧ t.responses = s.responses

/-! ## Encoding -/

/-- 95_test_vectors.md section 2: words written out from the spec's encodings, one of each format, decode as the table says, and
the illegal ones are refused for the reason given. -/
def Obligations.WordsOfTheSpecDecode : Prop :=
  decode 0x00021301 = .ok (.add 3 1 2) ∧ decode 0x00421312 = .ok (.divmod 3 4 1 2) ∧
  decode 0x00001203 = .ok (.neg 2 1) ∧ decode 0x00021018 = .ok (.cmp 1 2) ∧ decode 0x00001019 = .ok (.tst 1) ∧
  decode 0xFFFF0130 = .ok (.ldi 1 (-1)) ∧ decode 0x0C0A1021 = .ok (.strenc 1 10 12) ∧
  decode 0x000A0222 = .ok (.strdec 2 10) ∧ decode 0x00000000 = .error .undefinedOpcode ∧
  decode 0x10021301 = .error .mustBeZeroBits ∧ decode 0x00331312 = .error .sameDestinations

/-- 30_encoding.md sections 1 and 4: for every well-formed command, with every operand at every value, decoding its encoding
gives it back. -/
def Obligations.DecodeOfEncodeIsTheCommand : Prop :=
  ∀ i : Instr, i.wellFormed = true → decode (encode i) = .ok i

/-- 30_encoding.md section 3: a word that decodes is the encoding of the command it decodes to, which is well formed. -/
def Obligations.EncodeOfDecodeIsTheWord : Prop :=
  ∀ (w : CmdWord) (i : Instr), decode w = .ok i → encode i = w ∧ i.wellFormed = true

/-- 30_encoding.md, opening, and opcode_table.json: "a word selects the row iff `(w & mask) == match`". The decoder reads a command
from exactly the words that select a row, `DIVMOD` with `RD == RD2` apart, and from such a word the command of the one
row it selects. -/
def Obligations.DecoderAgreesWithTheOpcodeTable : Prop :=
  ∀ w : CmdWord,
    ((∃ i, decode w = .ok i) ↔ ∃ r ∈ opcodeTable, r.selects w = true ∧
      ¬ (r.opc = 0x12 ∧ w.toNat / 2 ^ 8 % 16 = w.toNat / 2 ^ 20 % 16)) ∧
    (∀ i, decode w = .ok i → ∃ r ∈ opcodeTable, r.opc = i.opcode ∧ r.selects w = true ∧
      ∀ r' ∈ opcodeTable, r'.selects w = true → r' = r)

/-- R75: a word is illegal exactly in the three cases (with the masks of R76), and an illegal command raises
`ILLEGAL_COMMAND` and writes no register, no `FLAGS`, no `CBUF` and no `SLEN`; every other word decodes. -/
def Obligations.IllegalWordsRaiseIllegalCommand : Prop :=
  ∀ w : CmdWord, (¬ Illegal w ↔ ∃ i, decode w = .ok i) ∧
    ∀ s rest, Illegal w → s.pend = some w → CoreTurn s rest → ∃ t, step s = .next t ∧
      t.faultLog = ⟨.illegalCommand, w⟩ :: s.faultLog ∧ (s.fault = false → t.fault = true ∧ t.err = 1 ∧ t.fcmd = w) ∧
      t.regs = s.regs ∧ t.flags = s.flags ∧ t.slen = s.slen ∧ ∀ k, t.cbufByte k = s.cbufByte k

/-! ## The step -/

/-- R29: the core completes the command in `PEND` as one atomic step: it executes the command's rule, then empties `PEND`,
making `BUSY` read 0; of a word that does not decode it raises `ILLEGAL_COMMAND` and nothing else (R76). The next step is
that one in an idle slot, with no event left, and ahead of a late `STATUS` read. -/
def Obligations.StepCompletesThePendingCommand : Prop :=
  ∀ (s : State) (w : CmdWord) (rest : List HostEvent), s.pend = some w → CoreTurn s rest →
    (∀ i t, decode w = .ok i → exec i { s with inputs := rest } = .next t →
      step s = .next { t with pend := none } ∧ (statusWord { t with pend := none }).getLsbD 0 = false) ∧
    (∀ e, decode w = .error e → ∃ t, step s = .next t ∧ (statusWord t).getLsbD 0 = false ∧
      RaisesOnly { s with pend := none, inputs := rest } t .illegalCommand 1 w)

/-- The model's own `withFetchWord` (log 6): the very next step executes the word's command and nothing else. -/
def Obligations.WithFetchWordRunsTheWord : Prop :=
  ∀ (s t : State) (w : CmdWord) (i : Instr), decode w = .ok i → exec i { s with pend := some w } = .next t →
    step (s.withFetchWord 32 w.toNat) = .next { t with pend := none }

/-- R213, R216: no command stops the machine; each answers a next state, its own effect or the record of its fault. -/
def Obligations.EveryCommandAnswersANextState : Prop :=
  (∀ (i : Instr) (s : State), ∃ t, exec i s = .next t) ∧
  (∀ (s : State) (r : Refusal), step s ≠ .refused r) ∧
  (∀ (s : State) (w : CmdWord), s.pend = some w → s.inputs = [] → ∃ t, step s = .next t)

/-! ## Load and move -/

/-- R100: `LDI` writes the 16-bit immediate sign-extended to 128 bits. -/
def Obligations.LdiWritesTheSignExtendedImmediate : Prop :=
  ∀ (rd : Reg) (imm : BitVec 16) (s : State),
    EncodedAs (.ldi rd imm) (0x30 + rd.val * 2 ^ 8 + imm.toNat * 2 ^ 16) ∧
    ∃ v : Value, v.toNat = (imm.signExtend 128).toNat ∧ v.lo = imm.signExtend 64 ∧
      v.hi = (if 0 ≤ imm.toInt then 0 else BitVec.allOnes 64) ∧ Writes (.ldi rd imm) s rd v

/-- R101: `MOV` copies both limbs. -/
def Obligations.MovCopiesBothLimbs : Prop :=
  ∀ (rd rs1 : Reg) (s : State), EncodedAs (.mov rd rs1) (0x31 + regFields rd rs1 0) ∧
    Writes (.mov rd rs1) s rd ⟨(s.readReg rs1).hi, (s.readReg rs1).lo⟩

/-! ## Adder, subtracter, negation, multiplier -/

/-- R110: `ADD` adds limb by limb with the carry propagated from the lower to the upper limb. -/
def Obligations.AddPropagatesTheCarry : Prop :=
  ∀ (rd rs1 rs2 : Reg) (s : State), EncodedAs (.add rd rs1 rs2) (0x01 + regFields rd rs1 rs2) ∧
    (let a := s.readReg rs1
     let b := s.readReg rs2
     let lo := a.lo + b.lo
     let c : Limb := if lo.toNat < a.lo.toNat then 1 else 0
     Writes (.add rd rs1 rs2) s rd ⟨a.hi + b.hi + c, lo⟩)

/-- R111: `SUB` subtracts limb by limb with the borrow propagated from the lower to the upper limb. -/
def Obligations.SubPropagatesTheBorrow : Prop :=
  ∀ (rd rs1 rs2 : Reg) (s : State), EncodedAs (.sub rd rs1 rs2) (0x02 + regFields rd rs1 rs2) ∧
    (let a := s.readReg rs1
     let b := s.readReg rs2
     let lo := a.lo - b.lo
     let w : Limb := if lo.toNat > a.lo.toNat then 1 else 0
     Writes (.sub rd rs1 rs2) s rd ⟨a.hi - b.hi - w, lo⟩)

/-- R112: `NEG` complements both limbs and adds one, by the addition of R110. -/
def Obligations.NegComplementsAndAddsOne : Prop :=
  ∀ (rd rs1 : Reg) (s : State), EncodedAs (.neg rd rs1) (0x03 + regFields rd rs1 0) ∧
    (let a := s.readReg rs1
     Writes (.neg rd rs1) s rd ⟨~~~a.hi + (if ~~~a.lo = BitVec.allOnes 64 then 1 else 0), ~~~a.lo + 1⟩)

/-- R113: `MUL` writes `(a * b) mod 2^128`; "only the result is normative". -/
def Obligations.MulWritesTheProductModulo : Prop :=
  ∀ (rd rs1 rs2 : Reg) (s : State), EncodedAs (.mul rd rs1 rs2) (0x04 + regFields rd rs1 rs2) ∧
    ∃ v : Value, v.toNat = (s.readReg rs1).toNat * (s.readReg rs2).toNat % 2 ^ 128 ∧ Writes (.mul rd rs1 rs2) s rd v

/-- 41_arith.md sections 1 and 2, the lines "Result" marked derived: `ADD`, `SUB` and `NEG` are addition, subtraction and
negation modulo 2^128. -/
def Obligations.AddSubNegWrapModulo : Prop :=
  ∀ (rd rs1 rs2 : Reg) (s : State),
    (∃ v : Value, v.toNat = ((s.readReg rs1).toNat + (s.readReg rs2).toNat) % 2 ^ 128 ∧
      Writes (.add rd rs1 rs2) s rd v) ∧
    (∃ v : Value, v.toNat = ((s.readReg rs1).toNat + 2 ^ 128 - (s.readReg rs2).toNat) % 2 ^ 128 ∧
      Writes (.sub rd rs1 rs2) s rd v) ∧
    (∃ v : Value, v.toNat = (2 ^ 128 - (s.readReg rs1).toNat) % 2 ^ 128 ∧ Writes (.neg rd rs1) s rd v)

/-- 41_arith.md section 4 (R115, in part marked derived): the laws of the adder, the subtracter, negation, the multiplier and
the bitwise commands. -/
def Obligations.ArithmeticLaws : Prop :=
  ∀ a b c : Value,
    valueAdd a Value.zero = a ∧ valueMul a Value.one = a ∧ valueSub a a = Value.zero ∧ valueXor a a = Value.zero ∧
    valueNot (valueNot a) = a ∧ valueSub (valueAdd a b) b = a ∧ valueAdd a b = valueAdd b a ∧
    valueMul a b = valueMul b a ∧ valueMul (valueMul a b) c = valueMul a (valueMul b c) ∧
    valueMul a (valueAdd b c) = valueAdd (valueMul a b) (valueMul a c) ∧
    valueNeg a = valueSub Value.zero a ∧ valueNeg a = valueAdd (valueNot a) Value.one

/-! ## Bitwise and shifts -/

/-- R130, R131, R132, R133: the bitwise commands work limb by limb. -/
def Obligations.BitwiseCommandsWorkLimbByLimb : Prop :=
  ∀ (rd rs1 rs2 : Reg) (s : State),
    (let a := s.readReg rs1
     let b := s.readReg rs2
     (EncodedAs (.and rd rs1 rs2) (0x08 + regFields rd rs1 rs2) ∧
       Writes (.and rd rs1 rs2) s rd ⟨a.hi &&& b.hi, a.lo &&& b.lo⟩) ∧
     (EncodedAs (.or rd rs1 rs2) (0x09 + regFields rd rs1 rs2) ∧
       Writes (.or rd rs1 rs2) s rd ⟨a.hi ||| b.hi, a.lo ||| b.lo⟩) ∧
     (EncodedAs (.xor rd rs1 rs2) (0x0A + regFields rd rs1 rs2) ∧
       Writes (.xor rd rs1 rs2) s rd ⟨a.hi ^^^ b.hi, a.lo ^^^ b.lo⟩) ∧
     (EncodedAs (.not rd rs1) (0x0B + regFields rd rs1 0) ∧ Writes (.not rd rs1) s rd ⟨~~~a.hi, ~~~a.lo⟩))

/-- R134, R135: the five cases of the left shift by the whole register `V[RS2]`. -/
def Obligations.ShlHasTheFiveCases : Prop :=
  ∀ (rd rs1 rs2 : Reg) (s : State), EncodedAs (.shl rd rs1 rs2) (0x0C + regFields rd rs1 rs2) ∧
    (let a := s.readReg rs1
     let n := s.readReg rs2
     Writes (.shl rd rs1 rs2) s rd
       (if n.hi ≠ 0 ∨ 128 ≤ n.lo.toNat then ⟨0, 0⟩
        else if n.lo.toNat = 0 then a
        else if n.lo.toNat < 64 then
          ⟨(a.hi <<< n.lo.toNat) ||| (a.lo >>> (64 - n.lo.toNat)), a.lo <<< n.lo.toNat⟩
        else if n.lo.toNat = 64 then ⟨a.lo, 0⟩
        else ⟨a.lo <<< (n.lo.toNat - 64), 0⟩))

/-- R134, R136: the five cases of the right shift by the whole register `V[RS2]`. -/
def Obligations.ShrHasTheFiveCases : Prop :=
  ∀ (rd rs1 rs2 : Reg) (s : State), EncodedAs (.shr rd rs1 rs2) (0x0D + regFields rd rs1 rs2) ∧
    (let a := s.readReg rs1
     let n := s.readReg rs2
     Writes (.shr rd rs1 rs2) s rd
       (if n.hi ≠ 0 ∨ 128 ≤ n.lo.toNat then ⟨0, 0⟩
        else if n.lo.toNat = 0 then a
        else if n.lo.toNat < 64 then
          ⟨a.hi >>> n.lo.toNat, (a.lo >>> n.lo.toNat) ||| (a.hi <<< (64 - n.lo.toNat))⟩
        else if n.lo.toNat = 64 then ⟨0, a.hi⟩
        else ⟨0, a.hi >>> (n.lo.toNat - 64)⟩))

/-- 42_logic_shift.md section 2, the lines "Result" marked derived: a shift multiplies or divides by a power of two; an amount
of 128 or more gives 0. -/
def Obligations.ShiftsScaleByPowersOfTwo : Prop :=
  ∀ (rd rs1 rs2 : Reg) (s : State),
    (∃ v : Value, Writes (.shl rd rs1 rs2) s rd v ∧
      v.toNat = if (s.readReg rs2).toNat < 128 then
        (s.readReg rs1).toNat * 2 ^ (s.readReg rs2).toNat % 2 ^ 128 else 0) ∧
    (∃ v : Value, Writes (.shr rd rs1 rs2) s rd v ∧
      v.toNat = if (s.readReg rs2).toNat < 128 then (s.readReg rs1).toNat / 2 ^ (s.readReg rs2).toNat else 0)

/-- 42_logic_shift.md section 2 (R137, marked derived; the `a << 64` law as 90_conflicts.md C1 corrects it). -/
def Obligations.ShiftLaws : Prop :=
  ∀ a n : Value,
    valueShl a Value.zero = a ∧ valueShr a Value.zero = a ∧
    (128 ≤ n.toNat → valueShl a n = Value.zero ∧ valueShr a n = Value.zero) ∧
    valueShl a ⟨0, 64⟩ = ⟨a.lo, 0⟩ ∧ valueShr a ⟨0, 64⟩ = ⟨0, a.hi⟩ ∧
    (n.toNat < 128 → valueShr (valueShl a n) n = valueAnd a (Value.ofNat (2 ^ (128 - n.toNat) - 1)))

/-! ## Divider -/

/-- 43_divide.md sections 1 and 2 (the result of `DIVCORE` is marked derived in R151): on a nonzero divisor `DIVU`, `REMU` and
`DIVMOD` write the floor quotient and the remainder, and nothing else. -/
def Obligations.DivisionWritesFloorAndRemainder : Prop :=
  ∀ (rd rd2 rs1 rs2 : Reg) (s : State), (s.readReg rs2).toNat ≠ 0 →
    ∃ q r : Value, q.toNat = (s.readReg rs1).toNat / (s.readReg rs2).toNat ∧
      r.toNat = (s.readReg rs1).toNat % (s.readReg rs2).toNat ∧
      Writes (.divu rd rs1 rs2) s rd q ∧ Writes (.remu rd rs1 rs2) s rd r ∧
      (rd ≠ rd2 → ∃ t, exec (.divmod rd rd2 rs1 rs2) s = .next t ∧ t.readReg rd = q ∧ t.readReg rd2 = r ∧
        (∀ x, x ≠ rd → x ≠ rd2 → t.readReg x = s.readReg x) ∧ KeepsAllButRegs s t)

/-- 43_divide.md section 2, the encodings and the faults of `DIVU`, `REMU` and `DIVMOD`: on a zero divisor each raises
`DIVIDE_BY_ZERO` (code 2) and writes no destination. -/
def Obligations.DivisionByZeroWritesNoDestination : Prop :=
  ∀ (rd rd2 rs1 rs2 : Reg) (s : State), (s.readReg rs2).toNat = 0 →
    EncodedAs (.divu rd rs1 rs2) (0x10 + regFields rd rs1 rs2) ∧
    EncodedAs (.remu rd rs1 rs2) (0x11 + regFields rd rs1 rs2) ∧
    (∃ t, exec (.divu rd rs1 rs2) s = .next t ∧
      RaisesOnly s t .divideByZero 2 (BitVec.ofNat 32 (0x10 + regFields rd rs1 rs2))) ∧
    (∃ t, exec (.remu rd rs1 rs2) s = .next t ∧
      RaisesOnly s t .divideByZero 2 (BitVec.ofNat 32 (0x11 + regFields rd rs1 rs2))) ∧
    (rd ≠ rd2 → EncodedAs (.divmod rd rd2 rs1 rs2) (0x12 + regFields rd rs1 rs2 + rd2.val * 2 ^ 20) ∧
      ∃ t, exec (.divmod rd rd2 rs1 rs2) s = .next t ∧
        RaisesOnly s t .divideByZero 2 (BitVec.ofNat 32 (0x12 + regFields rd rs1 rs2 + rd2.val * 2 ^ 20)))

/-! ## Comparator -/

/-- R200: `CMP` compares limb by limb, the upper limb first, and writes `EQ`, `LT`, `GT` alone. -/
def Obligations.CmpWritesEqLtGt : Prop :=
  ∀ (rs1 rs2 : Reg) (s : State), EncodedAs (.cmp rs1 rs2) (0x18 + regFields 0 rs1 rs2) ∧
    (let a := s.readReg rs1
     let b := s.readReg rs2
     ∃ t, exec (.cmp rs1 rs2) s = .next t ∧
       (t.flags.eq = true ↔ a.hi = b.hi ∧ a.lo = b.lo) ∧
       (t.flags.lt = true ↔ a.hi.toNat < b.hi.toNat ∨ (a.hi = b.hi ∧ a.lo.toNat < b.lo.toNat)) ∧
       (t.flags.gt = true ↔ t.flags.eq = false ∧ t.flags.lt = false) ∧
       t.flags.nz = s.flags.nz ∧ t = { s with flags := t.flags } ∧ ∀ k, t.cbufByte k = s.cbufByte k)

/-- R201: `TST` writes `NZ` alone. -/
def Obligations.TstWritesNz : Prop :=
  ∀ (rs1 : Reg) (s : State), EncodedAs (.tst rs1) (0x19 + regFields 0 rs1 0) ∧
    ∃ t, exec (.tst rs1) s = .next t ∧
      (t.flags.nz = true ↔ (s.readReg rs1).hi ||| (s.readReg rs1).lo ≠ 0) ∧
      t.flags.eq = s.flags.eq ∧ t.flags.lt = s.flags.lt ∧ t.flags.gt = s.flags.gt ∧
      t = { s with flags := t.flags } ∧ ∀ k, t.cbufByte k = s.cbufByte k

/-- 45_compare.md, the line "Result" of `CMP` marked derived: the order is that of unsigned 128-bit numbers and exactly one of
`EQ`, `LT`, `GT` is 1, as bits 0, 1 and 2 of `FLAGS` show it; bit 3, `NZ`, stays. -/
def Obligations.CmpIsTheUnsignedOrder : Prop :=
  ∀ (rs1 rs2 : Reg) (s : State), ∃ t, exec (.cmp rs1 rs2) s = .next t ∧
    (flagsWord t).toNat % 8 =
      (if (s.readReg rs1).toNat = (s.readReg rs2).toNat then 1
       else if (s.readReg rs1).toNat < (s.readReg rs2).toNat then 2 else 4) ∧
    (flagsWord t).toNat / 8 = if s.flags.nz then 1 else 0

/-! ## Bit length and codec -/

/-- R170, R171: `BITS` writes the 1-based position of the highest set bit, 0 for zero. -/
def Obligations.BitsWritesThePositionOfTheHighestSetBit : Prop :=
  ∀ (rd rs1 : Reg) (s : State), EncodedAs (.bits rd rs1) (0x20 + regFields rd rs1 0) ∧
    ∃ n : Nat, n ≤ 128 ∧ (∀ j, n ≤ j → j < 128 → (s.readReg rs1).bit j = false) ∧
      (0 < n → (s.readReg rs1).bit (n - 1) = true) ∧ Writes (.bits rd rs1) s rd ⟨0, BitVec.ofNat 64 n⟩

/-- R173, R174: `STRENC` writes the digits of the value, most significant first, padded with '0', from offset 0, and their
count into `SLEN`; with a base outside 2..16 it raises `INVALID_BASE` (code 3) and writes nothing. -/
def Obligations.StrencRendersTheDigits : Prop :=
  ∀ (rs1 : Reg) (base m : BitVec 8) (s : State),
    EncodedAs (.strenc rs1 base m) (0x21 + rs1.val * 2 ^ 12 + base.toNat * 2 ^ 16 + m.toNat * 2 ^ 24) ∧
    ((2 ≤ base.toNat ∧ base.toNat ≤ 16) →
      let text := rendered base.toNat (s.readReg rs1).toNat m.toNat
      ∃ t, exec (.strenc rs1 base m) s = .next t ∧ t.slen.toNat = text.length ∧
        (∀ k (h : k < text.length), t.cbufByte k = text[k]) ∧
        (∀ k, text.length ≤ k → t.cbufByte k = s.cbufByte k) ∧
        t = { s with cbuf := t.cbuf, slen := t.slen }) ∧
    ((base.toNat < 2 ∨ 16 < base.toNat) → ∃ t, exec (.strenc rs1 base m) s = .next t ∧
      RaisesOnly s t .invalidBase 3
        (BitVec.ofNat 32 (0x21 + rs1.val * 2 ^ 12 + base.toNat * 2 ^ 16 + m.toNat * 2 ^ 24)))

/-- 44_codec.md section 2, the sentence after R174's procedure marked derived: a rendered text has 1 to 255 characters, so no byte
outside `CBUF` is written, and at least `MINLEN` of them. -/
def Obligations.RenderedTextFitsTheBuffer : Prop :=
  ∀ (rs1 : Reg) (base m : BitVec 8) (s : State), 2 ≤ base.toNat → base.toNat ≤ 16 →
    ∃ t, exec (.strenc rs1 base m) s = .next t ∧ 1 ≤ t.slen.toNat ∧ t.slen.toNat ≤ 255 ∧ m.toNat ≤ t.slen.toNat

/-- R175, R176, R177, R178, R179, R180: `STRDEC` parses the text before the first NUL and after leading whitespace, by the
window and the rule of its base, wraps modulo 2^128, writes 0 for an unsupported base, and changes nothing else. -/
def Obligations.StrdecParsesTheWindow : Prop :=
  ∀ (rd : Reg) (base : BitVec 8) (s : State),
    EncodedAs (.strdec rd base) (0x22 + rd.val * 2 ^ 8 + base.toNat * 2 ^ 16) ∧
    ∃ v : Value, v.toNat = parsedNumber base.toNat (parsedText s) % 2 ^ 128 ∧ Writes (.strdec rd base) s rd v

/-- 44_codec.md section 3 (R181, marked derived): rendering a value in base 2, 8, 10 or 16 and parsing the text in the same base
gives the value back, whatever the minimum length. -/
def Obligations.StrdecOfStrencIsTheValue : Prop :=
  ∀ (rs1 rd : Reg) (base m : BitVec 8) (s : State), base.toNat ∈ [2, 8, 10, 16] →
    ∃ t u, exec (.strenc rs1 base m) s = .next t ∧ exec (.strdec rd base) t = .next u ∧
      u.readReg rd = s.readReg rs1

/-! ## Faults -/

/-- R213: what a faulting command does to the whole state. -/
def Obligations.FaultWritesOnlyItsRecord : Prop :=
  ∀ (s : State) (w : CmdWord) (c : Cause) (code : BitVec 4) (rest : List HostEvent),
    s.pend = some w → CoreTurn s rest → FaultCase w s c code →
    ∃ t, step s = .next t ∧
      (s.fault = false → t.fault = true ∧ t.err = code ∧ t.fcmd = w) ∧
      (s.fault = true → t.fault = true ∧ t.err = s.err ∧ t.fcmd = s.fcmd) ∧
      t.faultLog = ⟨c, w⟩ :: s.faultLog ∧ t.pend = none ∧
      t = { s with fault := t.fault, err := t.err, fcmd := t.fcmd, faultLog := t.faultLog, pend := none,
                   inputs := rest } ∧
      ∀ k, t.cbufByte k = s.cbufByte k

/-- R210, R211, R212: a pending command logs a fault exactly in the cases of these rules, and then the fault of that cause;
in no case the fault record stays as it was ("No other command raises either cause"). -/
def Obligations.CommandsFaultExactlyInTheListedCases : Prop :=
  ∀ (s : State) (w : CmdWord) (rest : List HostEvent), s.pend = some w → CoreTurn s rest →
    ∃ t, step s = .next t ∧
      (∀ c code, FaultCase w s c code → t.faultLog = ⟨c, w⟩ :: s.faultLog ∧ (s.fault = false → t.err = code)) ∧
      ((∀ c code, ¬ FaultCase w s c code) →
        t.faultLog = s.faultLog ∧ t.fault = s.fault ∧ t.err = s.err ∧ t.fcmd = s.fcmd)

/-- R216: the next command word, legal or not, is decoded and executed alike whether `STATUS.FAULT` is 0 or 1 and whatever
the record holds, and a later fault leaves the first fault's record. -/
def Obligations.FaultRecordDoesNotChangeACommand : Prop :=
  ∀ (next : CmdWord) (s t : State) (f : Bool) (e : BitVec 4) (w : CmdWord), completeCommand next s = .next t →
    ∃ u, completeCommand next { s with fault := f, err := e, fcmd := w } = .next u ∧ u.regs = t.regs ∧
      u.flags = t.flags ∧ u.slen = t.slen ∧ u.cbuf = t.cbuf ∧ u.faultLog = t.faultLog ∧ (u.fault = f ∨ u.fault = true) ∧
      (f = true → u.err = e ∧ u.fcmd = w)

/-- R220: every fault raised is added to the log, and no step clears the log, not even the host's write-1-to-clear. -/
def Obligations.FaultLogIsNeverCleared : Prop :=
  ∀ s t : State, step s = .next t → s.faultLog <:+ t.faultLog ∧
    ∀ (w : CmdWord) (c : Cause) (code : BitVec 4) (rest : List HostEvent), s.pend = some w → CoreTurn s rest →
      FaultCase w s c code → t.faultLog = ⟨c, w⟩ :: s.faultLog

/-- 10_state.md R22 and 00_scope.md section 2 ("a command reads only its operands"): what a command writes depends only on the registers
its source fields name, on `FLAGS` (which `CMP` and `TST` keep in part), and for `STRDEC` on `SLEN` and `CBUF`. -/
def Obligations.CommandsReadOnlyTheirOperands : Prop :=
  ∀ (i : Instr) (s s' t t' : State),
    (∀ r ∈ sources i, s.readReg r = s'.readReg r) →
    (readsText i → s.slen = s'.slen ∧ ∀ k, s.cbufByte k = s'.cbufByte k) →
    exec i s = .next t → exec i s' = .next t' →
    (t.faultLog = s.faultLog ↔ t'.faultLog = s'.faultLog) ∧
    (t.faultLog = s.faultLog → (∀ r ∈ destinations i, t.readReg r = t'.readReg r) ∧
      (writesText i → t.slen = t'.slen ∧ ∀ k, k < t.slen.toNat → t.cbufByte k = t'.cbufByte k) ∧
      (s.flags = s'.flags → t.flags = t'.flags))

/-- 30_encoding.md section 4 (R82, marked derived), 10_state.md R23 to R26, R213: the frame of every command: every register
but its destinations, `FLAGS` but by `CMP` and `TST`, `CBUF` and `SLEN` but by `STRENC`, which leaves the bytes from its
text's end on alone, the fault record and the log but by a command that faults, which leaves everything else alone,
`PEND`, and everything of the port. -/
def Obligations.CommandsWriteOnlyTheirDestinations : Prop :=
  ∀ (i : Instr) (s t : State), exec i s = .next t →
    (∀ r, r ∉ destinations i → t.readReg r = s.readReg r) ∧
    (¬ writesFlags i → t.flags = s.flags) ∧
    (¬ writesText i → t.slen = s.slen ∧ ∀ k, t.cbufByte k = s.cbufByte k) ∧
    (writesText i → ∀ k, t.slen.toNat ≤ k → t.cbufByte k = s.cbufByte k) ∧
    (¬ CommandFaults i s → t.fault = s.fault ∧ t.err = s.err ∧ t.fcmd = s.fcmd ∧ t.faultLog = s.faultLog) ∧
    (CommandFaults i s → t = { s with fault := t.fault, err := t.err, fcmd := t.fcmd, faultLog := t.faultLog }) ∧
    t.pend = s.pend ∧ t.held = s.held ∧ t.inputs = s.inputs ∧ t.responses = s.responses ∧ t.draw = s.draw

/-! ## The host's accesses -/

/-- R53, with the map of R42 and the alignment of R54: an access the map does not accept is a bus error, a fault of the host
agent with read data 0; an access it accepts is performed. While nothing is pending or held a step performs the access
that the port accepts. -/
def Obligations.BusErrorsAreTheAccessesOffTheMap : Prop :=
  ∀ (s : State) (a : Access),
    (¬ Accepted (offsetOf a) (widthOf a) → performAccess a s = .fault (.hostBusError a (.error 0))) ∧
    (Accepted (offsetOf a) (widthOf a) → ∃ t, performAccess a s = .next t) ∧
    ∀ (late : Bool) (rest : List HostEvent), Quiet s → NextAccess s a late rest →
      step s = performAccess a { s with inputs := rest }

/-- R46: the host reads and writes each limb of each value register; a write leaves the other limb unchanged. -/
def Obligations.HostReadsAndWritesLimbs : Prop :=
  ∀ (s : State) (i : Reg) (d : BitVec 64) (late : Bool) (rest : List HostEvent), Quiet s →
    (let lo : BitVec 12 := BitVec.ofNat 12 (0x100 + 16 * i.val)
     let hi : BitVec 12 := BitVec.ofNat 12 (0x108 + 16 * i.val)
     (NextAccess s (.read lo 8) late rest → step s = .next (answered s rest (.read lo 8) (.data (s.readReg i).lo))) ∧
     (NextAccess s (.read hi 8) late rest → step s = .next (answered s rest (.read hi 8) (.data (s.readReg i).hi))) ∧
     (NextAccess s (.write lo 8 d) late rest → ∃ t, step s = .next t ∧
       WritesOnly (answered s rest (.write lo 8 d) .written) t i ⟨(s.readReg i).hi, d⟩) ∧
     (NextAccess s (.write hi 8 d) late rest → ∃ t, step s = .next t ∧
       WritesOnly (answered s rest (.write hi 8 d) .written) t i ⟨d, (s.readReg i).lo⟩))

/-- R45, R48, R49, R51, each rule's reads: `CMD` reads 0, the other control registers their values, and a read changes
nothing. `STATUS` is bit 1 `FAULT` and bits 7:4 `ERR`, with `BUSY` 0 as nothing is pending. -/
def Obligations.HostReadsControlRegisters : Prop :=
  ∀ (s : State) (late : Bool) (rest : List HostEvent), Quiet s →
    (NextAccess s (.read 0x000 4) late rest → step s = .next (answered s rest (.read 0x000 4) (.data 0))) ∧
    (NextAccess s (.read 0x004 4) late rest → step s = .next (answered s rest (.read 0x004 4)
      (.data (BitVec.ofNat 64 ((if s.fault then 2 else 0) + 16 * s.err.toNat))))) ∧
    (NextAccess s (.read 0x008 4) late rest → step s = .next (answered s rest (.read 0x008 4)
      (.data (BitVec.ofNat 64 ((if s.flags.eq then 1 else 0) + (if s.flags.lt then 2 else 0) +
        (if s.flags.gt then 4 else 0) + (if s.flags.nz then 8 else 0)))))) ∧
    (NextAccess s (.read 0x00C 4) late rest → step s = .next (answered s rest (.read 0x00C 4)
      (.data (BitVec.ofNat 64 s.slen.toNat)))) ∧
    (NextAccess s (.read 0x010 4) late rest → step s = .next (answered s rest (.read 0x010 4)
      (.data (BitVec.ofNat 64 s.fcmd.toNat))))

/-- The writes of 20_memory.md section 4 to control registers: `STATUS` with bit 1 set clears `FAULT`, `ERR` and `FCMD`, with bit 1 clear
changes nothing (R24, R48); `FLAGS` and `FCMD` ignore a write (R49); `SLEN` stores `min(w, 256)` (R27, R51). -/
def Obligations.HostWritesControlRegisters : Prop :=
  ∀ (s : State) (w : CmdWord) (late : Bool) (rest : List HostEvent), Quiet s →
    (let d : BitVec 64 := BitVec.ofNat 64 w.toNat
     (NextAccess s (.write 0x004 4 d) late rest → step s = .next
       (let u := answered s rest (.write 0x004 4 d) .written
        if w.toNat / 2 % 2 = 1 then { u with fault := false, err := 0, fcmd := 0 } else u)) ∧
     (NextAccess s (.write 0x008 4 d) late rest → step s = .next (answered s rest (.write 0x008 4 d) .written)) ∧
     (NextAccess s (.write 0x010 4 d) late rest → step s = .next (answered s rest (.write 0x010 4 d) .written)) ∧
     (NextAccess s (.write 0x00C 4 d) late rest → ∃ t, step s = .next t ∧ t.slen.toNat = min w.toNat 256 ∧
       t = { answered s rest (.write 0x00C 4 d) .written with slen := t.slen }))

/-- R43, R50, R52: the host reads and writes `CBUF` in 1, 2, 4 or 8 aligned bytes, little-endian; a write changes those bytes
and nothing else. -/
def Obligations.HostReadsAndWritesTheBuffer : Prop :=
  ∀ (s : State) (k n : Nat) (d : BitVec 64) (late : Bool) (rest : List HostEvent), Quiet s →
    n ∈ [1, 2, 4, 8] → k < 256 → k % n = 0 →
    (let off : BitVec 12 := BitVec.ofNat 12 (0x400 + k)
     (NextAccess s (.read off n) late rest → ∃ v : BitVec 64,
       v.toNat = ((List.range n).map (fun j => (s.cbufByte (k + j)).toNat * 2 ^ (8 * j))).sum ∧
       step s = .next (answered s rest (.read off n) (.data v))) ∧
     (NextAccess s (.write off n d) late rest → ∃ t, step s = .next t ∧
       (∀ j, j < n → t.cbufByte (k + j) = d.extractLsb' (8 * j) 8) ∧
       (∀ x, x < k ∨ k + n ≤ x → t.cbufByte x = s.cbufByte x) ∧
       t = { answered s rest (.write off n d) .written with cbuf := t.cbuf }))

/-- R45: a write to `CMD` while `PEND` is empty places the word in `PEND` and sets `BUSY`. -/
def Obligations.CmdWriteFillsPend : Prop :=
  ∀ (s : State) (w : CmdWord) (late : Bool) (rest : List HostEvent), Quiet s →
    NextAccess s (.write 0x000 4 (BitVec.ofNat 64 w.toNat)) late rest →
    ∃ t, step s = .next t ∧ t.pend = some w ∧ (statusWord t).getLsbD 0 = true ∧
      t = { answered s rest (.write 0x000 4 (BitVec.ofNat 64 w.toNat)) .written with pend := some w }

/-- R58: "No read has a side effect": a read that is performed, of any offset and width and in any state, changes nothing but
the record of answers; and the step that performs it, on acceptance while nothing is pending or held, or as the oldest
held access, or as a `STATUS` read that goes before the pending command or before the held accesses, takes the access
from the host's events or from the held ones and changes nothing else. -/
def Obligations.ReadsHaveNoSideEffect : Prop :=
  ∀ (s t : State) (off : BitVec 12) (width : Nat),
    (performAccess (.read off width) s = .next t →
      ∃ r, t = { s with responses := ⟨.read off width, r⟩ :: s.responses }) ∧
    (∀ late rest, Quiet s → NextAccess s (.read off width) late rest → step s = .next t →
      ∃ r, t = { s with inputs := rest, responses := ⟨.read off width, r⟩ :: s.responses }) ∧
    (∀ hs, s.pend = none → s.held = .read off width :: hs → (∀ keep rest, s.inputs ≠ .reset keep :: rest) →
      (∀ rest, ¬ NextAccess s (.read 0x004 4) true rest) → step s = .next t →
      ∃ r, t = { s with held := hs, responses := ⟨.read off width, r⟩ :: s.responses }) ∧
    (∀ late rest, late = s.pend.isNone → NextAccess s (.read 0x004 4) late rest → step s = .next t →
      ∃ r, t = { s with inputs := rest, responses := ⟨.read 0x004 4, r⟩ :: s.responses })

/-- R55: while `PEND` is full every access but a `STATUS` read is held, and nothing else happens; no access that is held is
performed until the pending command is completed (a reset apart, log 7). The accesses held are then performed in the
order they were accepted, before any other event but a reset (or a `STATUS` read accepted while `PEND` was full, R56),
and one that is a bus error is refused then. -/
def Obligations.AccessesAreHeldWhilePendIsFull : Prop :=
  (∀ (s : State) (w : CmdWord) (a : Access) (late : Bool) (rest : List HostEvent), s.pend = some w →
    NextAccess s a late rest → a ≠ .read 0x004 4 →
    step s = .next { s with held := s.held ++ [a], inputs := rest }) ∧
  (∀ (s t : State) (w : CmdWord), s.pend = some w → (∀ keep rest, s.inputs ≠ .reset keep :: rest) → step s = .next t →
    s.held <+: t.held) ∧
  (∀ (s : State) (h : Access) (hs : List Access), s.pend = none → s.held = h :: hs →
    (∀ keep rest, s.inputs ≠ .reset keep :: rest) → (∀ rest, ¬ NextAccess s (.read 0x004 4) true rest) →
    step s = performAccess h { s with held := hs } ∧
    (¬ Accepted (offsetOf h) (widthOf h) → step s = .fault (.hostBusError h (.error 0))))

/-- R56: a `STATUS` read accepted while `PEND` is full returns `BUSY = 1` with the record of the commands completed before it,
or, the core completing the command first, `BUSY = 0` with the record after it. Which of the two is the event's flag
`late`, left free (log 4). -/
def Obligations.StatusReadSeesBeforeOrAfter : Prop :=
  ∀ (s : State) (w : CmdWord) (rest : List HostEvent), s.pend = some w →
    (NextAccess s (.read 0x004 4) false rest → step s = .next (answered s rest (.read 0x004 4)
      (.data (BitVec.ofNat 64 (1 + (if s.fault then 2 else 0) + 16 * s.err.toNat))))) ∧
    (NextAccess s (.read 0x004 4) true rest → ∃ t, completeCommand w s = .next t ∧ step s = .next t ∧
      t.pend = none ∧ t.held = s.held ∧
      step t = .next (answered t rest (.read 0x004 4)
        (.data (BitVec.ofNat 64 ((if t.fault then 2 else 0) + 16 * t.err.toNat)))))

/-- 20_memory.md section 6 (R56) and 70_reset_and_hazards.md section 3 (R250): whatever the timing, a host's accesses (`STATUS` reads apart) and
the commands they issue have the result of performing them one at a time in order, each command at once. -/
def Obligations.EveryTimingGivesTheSequentialResult : Prop :=
  ∀ s t : State, Quiet s → PlainEvents s.inputs →
    sequentialRun (accessesOf s.inputs) { s with inputs := [] } = .next t →
    ∃ n, Sys2Proof.core.run n s = .next t ∧ t.inputs = [] ∧ Quiet t

/-- 70_reset_and_hazards.md section 3 (R248: a command completes a finite time after its `CMD` write is accepted), section 1
(R241): whatever the host does, a run comes to a state in which only what the port holds and has answered has changed
and whose next step completes the command, or is a reset that the host asserts first, which abandons it. That this takes
at most as many steps before it as the host has events is the model's own reading of R250's fairness (log 1, log 11). -/
def Obligations.PendingCommandCompletes : Prop :=
  ∀ (s : State) (w : CmdWord), s.pend = some w →
    ∃ n u t, n ≤ s.inputs.length ∧ Sys2Proof.core.run n s = .next u ∧
      u = { s with held := u.held, inputs := u.inputs, responses := u.responses } ∧ u.inputs <:+ s.inputs ∧
      step u = .next t ∧ t.pend = none ∧
      (completeCommand w { u with inputs := t.inputs } = .next t ∨ ∃ keep rest, u.inputs = .reset keep :: rest)

/-- R226: idle, the core keeps all its state. -/
def Obligations.IdleCoreKeepsAllState : Prop :=
  ∀ s : State, Quiet s → (s.inputs = [] → step s = .next s) ∧
    ∀ rest, s.inputs = .idle :: rest → step s = .next { s with inputs := rest }

/-! ## Invariant -/

/-- The invariant holds after reset, whatever the host is about to do (10_state.md section 7). -/
def Obligations.InvHoldsAfterReset : Prop := ∀ events, (State.start events).Inv

/-- 10_state.md R23, R24, R25, R26, R27: every step keeps the legal values of the registers: `SLEN` at most 256, `CBUF`'s canonical form
(log 2), `ERR` and `FCMD` 0 when `FAULT` is 0 and the record of a logged fault when it is 1, at most one of `EQ`, `LT`,
`GT`. -/
def Obligations.StepKeepsInv : Prop :=
  ∀ s t : State, s.Inv → step s = .next t → t.Inv

/-! ## Pseudo-instructions -/

/-- 30_encoding.md section 4 (R83): what the expansions compute, with a scratch register as R83 requires it. -/
def Obligations.PseudoInstructionsCompute : Prop :=
  ∀ (vd vs vt : Reg) (s : State),
    (∃ t, execAll (expandPseudo (.clr vd)) s = .next t ∧ (t.readReg vd).toNat = 0) ∧
    (∃ t, execAll (expandPseudo (.ones vd)) s = .next t ∧ (t.readReg vd).toNat = 2 ^ 128 - 1) ∧
    (pseudoWellFormed (.inc vd vt) = true → ∃ t, execAll (expandPseudo (.inc vd vt)) s = .next t ∧
      (t.readReg vd).toNat = ((s.readReg vd).toNat + 1) % 2 ^ 128) ∧
    (pseudoWellFormed (.decr vd vt) = true → ∃ t, execAll (expandPseudo (.decr vd vt)) s = .next t ∧
      (t.readReg vd).toNat = ((s.readReg vd).toNat + 2 ^ 128 - 1) % 2 ^ 128) ∧
    (∃ t, execAll (expandPseudo (.sqr vd vs)) s = .next t ∧
      (t.readReg vd).toNat = (s.readReg vs).toNat ^ 2 % 2 ^ 128) ∧
    (pseudoWellFormed (.swap vd vs vt) = true → ∃ t, execAll (expandPseudo (.swap vd vs vt)) s = .next t ∧
      t.readReg vd = s.readReg vs ∧ t.readReg vs = s.readReg vd)
end

