-- ==== Sys2Proof/Laws/State.lean ====
section
/-! SUPPORT. One small lemma per field of the state and per update of it, so that no later proof unfolds an update. -/

namespace Sys2Proof.Machine

/-! `V[i] <- v` changes `regs` alone. -/

@[simp] theorem writeReg_regs (s : State) (i : Reg) (v : Value) : (s.writeReg i v).regs = s.regs.set i v := rfl
@[simp] theorem writeReg_flags (s : State) (i : Reg) (v : Value) : (s.writeReg i v).flags = s.flags := rfl
@[simp] theorem writeReg_fault (s : State) (i : Reg) (v : Value) : (s.writeReg i v).fault = s.fault := rfl
@[simp] theorem writeReg_err (s : State) (i : Reg) (v : Value) : (s.writeReg i v).err = s.err := rfl
@[simp] theorem writeReg_fcmd (s : State) (i : Reg) (v : Value) : (s.writeReg i v).fcmd = s.fcmd := rfl
@[simp] theorem writeReg_slen (s : State) (i : Reg) (v : Value) : (s.writeReg i v).slen = s.slen := rfl
@[simp] theorem writeReg_cbuf (s : State) (i : Reg) (v : Value) : (s.writeReg i v).cbuf = s.cbuf := rfl
@[simp] theorem writeReg_pend (s : State) (i : Reg) (v : Value) : (s.writeReg i v).pend = s.pend := rfl
@[simp] theorem writeReg_held (s : State) (i : Reg) (v : Value) : (s.writeReg i v).held = s.held := rfl
@[simp] theorem writeReg_faultLog (s : State) (i : Reg) (v : Value) : (s.writeReg i v).faultLog = s.faultLog := rfl
@[simp] theorem writeReg_draw (s : State) (i : Reg) (v : Value) : (s.writeReg i v).draw = s.draw := rfl
@[simp] theorem writeReg_inputs (s : State) (i : Reg) (v : Value) : (s.writeReg i v).inputs = s.inputs := rfl
@[simp] theorem writeReg_responses (s : State) (i : Reg) (v : Value) : (s.writeReg i v).responses = s.responses := rfl

/-! `CBUF[k] <- b` changes `cbuf` alone. -/

@[simp] theorem setCbufByte_regs (s : State) (k : Nat) (b : Byte) : (s.setCbufByte k b).regs = s.regs := rfl
@[simp] theorem setCbufByte_flags (s : State) (k : Nat) (b : Byte) : (s.setCbufByte k b).flags = s.flags := rfl
@[simp] theorem setCbufByte_fault (s : State) (k : Nat) (b : Byte) : (s.setCbufByte k b).fault = s.fault := rfl
@[simp] theorem setCbufByte_err (s : State) (k : Nat) (b : Byte) : (s.setCbufByte k b).err = s.err := rfl
@[simp] theorem setCbufByte_fcmd (s : State) (k : Nat) (b : Byte) : (s.setCbufByte k b).fcmd = s.fcmd := rfl
@[simp] theorem setCbufByte_slen (s : State) (k : Nat) (b : Byte) : (s.setCbufByte k b).slen = s.slen := rfl
@[simp] theorem setCbufByte_cbuf (s : State) (k : Nat) (b : Byte) : (s.setCbufByte k b).cbuf = Memory.put s.cbuf k b := rfl
@[simp] theorem setCbufByte_pend (s : State) (k : Nat) (b : Byte) : (s.setCbufByte k b).pend = s.pend := rfl
@[simp] theorem setCbufByte_held (s : State) (k : Nat) (b : Byte) : (s.setCbufByte k b).held = s.held := rfl
@[simp] theorem setCbufByte_faultLog (s : State) (k : Nat) (b : Byte) : (s.setCbufByte k b).faultLog = s.faultLog := rfl
@[simp] theorem setCbufByte_draw (s : State) (k : Nat) (b : Byte) : (s.setCbufByte k b).draw = s.draw := rfl
@[simp] theorem setCbufByte_inputs (s : State) (k : Nat) (b : Byte) : (s.setCbufByte k b).inputs = s.inputs := rfl
@[simp] theorem setCbufByte_responses (s : State) (k : Nat) (b : Byte) : (s.setCbufByte k b).responses = s.responses := rfl

/-! Clearing the record changes `fault`, `err` and `fcmd`. -/

@[simp] theorem clearFault_regs (s : State) : (clearFault s).regs = s.regs := rfl
@[simp] theorem clearFault_flags (s : State) : (clearFault s).flags = s.flags := rfl
@[simp] theorem clearFault_fault (s : State) : (clearFault s).fault = false := rfl
@[simp] theorem clearFault_err (s : State) : (clearFault s).err = 0 := rfl
@[simp] theorem clearFault_fcmd (s : State) : (clearFault s).fcmd = 0 := rfl
@[simp] theorem clearFault_slen (s : State) : (clearFault s).slen = s.slen := rfl
@[simp] theorem clearFault_cbuf (s : State) : (clearFault s).cbuf = s.cbuf := rfl
@[simp] theorem clearFault_pend (s : State) : (clearFault s).pend = s.pend := rfl
@[simp] theorem clearFault_held (s : State) : (clearFault s).held = s.held := rfl
@[simp] theorem clearFault_faultLog (s : State) : (clearFault s).faultLog = s.faultLog := rfl
@[simp] theorem clearFault_draw (s : State) : (clearFault s).draw = s.draw := rfl
@[simp] theorem clearFault_inputs (s : State) : (clearFault s).inputs = s.inputs := rfl
@[simp] theorem clearFault_responses (s : State) : (clearFault s).responses = s.responses := rfl

/-! Emptying `PEND` changes `pend` alone. -/

@[simp] theorem retire_regs (s : State) : (retire s).regs = s.regs := rfl
@[simp] theorem retire_flags (s : State) : (retire s).flags = s.flags := rfl
@[simp] theorem retire_fault (s : State) : (retire s).fault = s.fault := rfl
@[simp] theorem retire_err (s : State) : (retire s).err = s.err := rfl
@[simp] theorem retire_fcmd (s : State) : (retire s).fcmd = s.fcmd := rfl
@[simp] theorem retire_slen (s : State) : (retire s).slen = s.slen := rfl
@[simp] theorem retire_cbuf (s : State) : (retire s).cbuf = s.cbuf := rfl
@[simp] theorem retire_pend (s : State) : (retire s).pend = none := rfl
@[simp] theorem retire_held (s : State) : (retire s).held = s.held := rfl
@[simp] theorem retire_faultLog (s : State) : (retire s).faultLog = s.faultLog := rfl
@[simp] theorem retire_draw (s : State) : (retire s).draw = s.draw := rfl
@[simp] theorem retire_inputs (s : State) : (retire s).inputs = s.inputs := rfl
@[simp] theorem retire_responses (s : State) : (retire s).responses = s.responses := rfl

/-! A write to `SLEN` changes `slen` alone. -/

@[simp] theorem writeSlen_regs (s : State) (w : BitVec 32) : (s.writeSlen w).regs = s.regs := rfl
@[simp] theorem writeSlen_flags (s : State) (w : BitVec 32) : (s.writeSlen w).flags = s.flags := rfl
@[simp] theorem writeSlen_fault (s : State) (w : BitVec 32) : (s.writeSlen w).fault = s.fault := rfl
@[simp] theorem writeSlen_err (s : State) (w : BitVec 32) : (s.writeSlen w).err = s.err := rfl
@[simp] theorem writeSlen_fcmd (s : State) (w : BitVec 32) : (s.writeSlen w).fcmd = s.fcmd := rfl
@[simp] theorem writeSlen_slen (s : State) (w : BitVec 32) : (s.writeSlen w).slen = BitVec.ofNat 32 (min w.toNat 256) := rfl
@[simp] theorem writeSlen_cbuf (s : State) (w : BitVec 32) : (s.writeSlen w).cbuf = s.cbuf := rfl
@[simp] theorem writeSlen_pend (s : State) (w : BitVec 32) : (s.writeSlen w).pend = s.pend := rfl
@[simp] theorem writeSlen_held (s : State) (w : BitVec 32) : (s.writeSlen w).held = s.held := rfl
@[simp] theorem writeSlen_faultLog (s : State) (w : BitVec 32) : (s.writeSlen w).faultLog = s.faultLog := rfl
@[simp] theorem writeSlen_draw (s : State) (w : BitVec 32) : (s.writeSlen w).draw = s.draw := rfl
@[simp] theorem writeSlen_inputs (s : State) (w : BitVec 32) : (s.writeSlen w).inputs = s.inputs := rfl
@[simp] theorem writeSlen_responses (s : State) (w : BitVec 32) : (s.writeSlen w).responses = s.responses := rfl

/-! An answer is added to `responses`. -/

@[simp] theorem respond_regs (s : State) (a : Access) (r : Response) : (s.respond a r).regs = s.regs := rfl
@[simp] theorem respond_flags (s : State) (a : Access) (r : Response) : (s.respond a r).flags = s.flags := rfl
@[simp] theorem respond_fault (s : State) (a : Access) (r : Response) : (s.respond a r).fault = s.fault := rfl
@[simp] theorem respond_err (s : State) (a : Access) (r : Response) : (s.respond a r).err = s.err := rfl
@[simp] theorem respond_fcmd (s : State) (a : Access) (r : Response) : (s.respond a r).fcmd = s.fcmd := rfl
@[simp] theorem respond_slen (s : State) (a : Access) (r : Response) : (s.respond a r).slen = s.slen := rfl
@[simp] theorem respond_cbuf (s : State) (a : Access) (r : Response) : (s.respond a r).cbuf = s.cbuf := rfl
@[simp] theorem respond_pend (s : State) (a : Access) (r : Response) : (s.respond a r).pend = s.pend := rfl
@[simp] theorem respond_held (s : State) (a : Access) (r : Response) : (s.respond a r).held = s.held := rfl
@[simp] theorem respond_faultLog (s : State) (a : Access) (r : Response) : (s.respond a r).faultLog = s.faultLog := rfl
@[simp] theorem respond_draw (s : State) (a : Access) (r : Response) : (s.respond a r).draw = s.draw := rfl
@[simp] theorem respond_inputs (s : State) (a : Access) (r : Response) : (s.respond a r).inputs = s.inputs := rfl
@[simp] theorem respond_responses (s : State) (a : Access) (r : Response) : (s.respond a r).responses = ⟨a, r⟩ :: s.responses := rfl

/-! Latching a command changes `pend` and `inputs`. -/

@[simp] theorem latchCommand_regs (s : State) (w : CmdWord) : (latchCommand s w).regs = s.regs := rfl
@[simp] theorem latchCommand_flags (s : State) (w : CmdWord) : (latchCommand s w).flags = s.flags := rfl
@[simp] theorem latchCommand_fault (s : State) (w : CmdWord) : (latchCommand s w).fault = s.fault := rfl
@[simp] theorem latchCommand_err (s : State) (w : CmdWord) : (latchCommand s w).err = s.err := rfl
@[simp] theorem latchCommand_fcmd (s : State) (w : CmdWord) : (latchCommand s w).fcmd = s.fcmd := rfl
@[simp] theorem latchCommand_slen (s : State) (w : CmdWord) : (latchCommand s w).slen = s.slen := rfl
@[simp] theorem latchCommand_cbuf (s : State) (w : CmdWord) : (latchCommand s w).cbuf = s.cbuf := rfl
@[simp] theorem latchCommand_pend (s : State) (w : CmdWord) : (latchCommand s w).pend = some w := rfl
@[simp] theorem latchCommand_held (s : State) (w : CmdWord) : (latchCommand s w).held = s.held := rfl
@[simp] theorem latchCommand_faultLog (s : State) (w : CmdWord) : (latchCommand s w).faultLog = s.faultLog := rfl
@[simp] theorem latchCommand_draw (s : State) (w : CmdWord) : (latchCommand s w).draw = s.draw := rfl
@[simp] theorem latchCommand_inputs (s : State) (w : CmdWord) : (latchCommand s w).inputs = .idle :: s.inputs := rfl
@[simp] theorem latchCommand_responses (s : State) (w : CmdWord) : (latchCommand s w).responses = s.responses := rfl

/-! Reset (R32, R240). -/

@[simp] theorem resetInput_regs (s : State) (keep : Bool) : (s.resetInput keep).regs = Vector.replicate 16 Value.zero := rfl
@[simp] theorem resetInput_flags (s : State) (keep : Bool) : (s.resetInput keep).flags = ⟨false, false, false, false⟩ := rfl
@[simp] theorem resetInput_fault (s : State) (keep : Bool) : (s.resetInput keep).fault = false := rfl
@[simp] theorem resetInput_err (s : State) (keep : Bool) : (s.resetInput keep).err = 0 := rfl
@[simp] theorem resetInput_fcmd (s : State) (keep : Bool) : (s.resetInput keep).fcmd = 0 := rfl
@[simp] theorem resetInput_slen (s : State) (keep : Bool) : (s.resetInput keep).slen = 0 := rfl
@[simp] theorem resetInput_cbuf (s : State) (keep : Bool) : (s.resetInput keep).cbuf = [] := rfl
@[simp] theorem resetInput_pend (s : State) (keep : Bool) : (s.resetInput keep).pend = none := rfl
@[simp] theorem resetInput_held (s : State) (keep : Bool) : (s.resetInput keep).held = if keep then s.held else [] := rfl
@[simp] theorem resetInput_faultLog (s : State) (keep : Bool) : (s.resetInput keep).faultLog = s.faultLog := rfl
@[simp] theorem resetInput_draw (s : State) (keep : Bool) : (s.resetInput keep).draw = s.draw + 1 := rfl
@[simp] theorem resetInput_inputs (s : State) (keep : Bool) : (s.resetInput keep).inputs = s.inputs := rfl
@[simp] theorem resetInput_responses (s : State) (keep : Bool) : (s.resetInput keep).responses = s.responses := rfl

/-! A fault changes `fault`, `err`, `fcmd` and the fault log. -/

@[simp] theorem raiseFault_regs (c : Cause) (cmd : CmdWord) (s : State) : (raiseFault c cmd s).regs = s.regs := by
  unfold raiseFault; dsimp only; split <;> rfl
@[simp] theorem raiseFault_flags (c : Cause) (cmd : CmdWord) (s : State) : (raiseFault c cmd s).flags = s.flags := by
  unfold raiseFault; dsimp only; split <;> rfl
@[simp] theorem raiseFault_slen (c : Cause) (cmd : CmdWord) (s : State) : (raiseFault c cmd s).slen = s.slen := by
  unfold raiseFault; dsimp only; split <;> rfl
@[simp] theorem raiseFault_cbuf (c : Cause) (cmd : CmdWord) (s : State) : (raiseFault c cmd s).cbuf = s.cbuf := by
  unfold raiseFault; dsimp only; split <;> rfl
@[simp] theorem raiseFault_pend (c : Cause) (cmd : CmdWord) (s : State) : (raiseFault c cmd s).pend = s.pend := by
  unfold raiseFault; dsimp only; split <;> rfl
@[simp] theorem raiseFault_held (c : Cause) (cmd : CmdWord) (s : State) : (raiseFault c cmd s).held = s.held := by
  unfold raiseFault; dsimp only; split <;> rfl
@[simp] theorem raiseFault_faultLog (c : Cause) (cmd : CmdWord) (s : State) : (raiseFault c cmd s).faultLog = ⟨c, cmd⟩ :: s.faultLog := by
  unfold raiseFault; dsimp only; split <;> rfl
@[simp] theorem raiseFault_draw (c : Cause) (cmd : CmdWord) (s : State) : (raiseFault c cmd s).draw = s.draw := by
  unfold raiseFault; dsimp only; split <;> rfl
@[simp] theorem raiseFault_inputs (c : Cause) (cmd : CmdWord) (s : State) : (raiseFault c cmd s).inputs = s.inputs := by
  unfold raiseFault; dsimp only; split <;> rfl
@[simp] theorem raiseFault_responses (c : Cause) (cmd : CmdWord) (s : State) : (raiseFault c cmd s).responses = s.responses := by
  unfold raiseFault; dsimp only; split <;> rfl
@[simp] theorem raiseFault_fault (c : Cause) (cmd : CmdWord) (s : State) : (raiseFault c cmd s).fault = true := by
  unfold raiseFault; dsimp only; split
  · assumption
  · rfl
@[simp] theorem raiseFault_err (c : Cause) (cmd : CmdWord) (s : State) :
    (raiseFault c cmd s).err = if s.fault then s.err else c.code := by
  unfold raiseFault; dsimp only; split <;> simp_all
@[simp] theorem raiseFault_fcmd (c : Cause) (cmd : CmdWord) (s : State) :
    (raiseFault c cmd s).fcmd = if s.fault then s.fcmd else cmd := by
  unfold raiseFault; dsimp only; split <;> simp_all

/-! Writing bytes of `CBUF` changes `cbuf` alone. -/

@[simp] theorem writeBytes_regs (s : State) (k : Nat) (t : List Byte) : (s.writeBytes k t).regs = s.regs := by
  induction t generalizing s k with
  | nil => rfl
  | cons b rest ih => simp [State.writeBytes, ih]
@[simp] theorem writeBytes_flags (s : State) (k : Nat) (t : List Byte) : (s.writeBytes k t).flags = s.flags := by
  induction t generalizing s k with
  | nil => rfl
  | cons b rest ih => simp [State.writeBytes, ih]
@[simp] theorem writeBytes_fault (s : State) (k : Nat) (t : List Byte) : (s.writeBytes k t).fault = s.fault := by
  induction t generalizing s k with
  | nil => rfl
  | cons b rest ih => simp [State.writeBytes, ih]
@[simp] theorem writeBytes_err (s : State) (k : Nat) (t : List Byte) : (s.writeBytes k t).err = s.err := by
  induction t generalizing s k with
  | nil => rfl
  | cons b rest ih => simp [State.writeBytes, ih]
@[simp] theorem writeBytes_fcmd (s : State) (k : Nat) (t : List Byte) : (s.writeBytes k t).fcmd = s.fcmd := by
  induction t generalizing s k with
  | nil => rfl
  | cons b rest ih => simp [State.writeBytes, ih]
@[simp] theorem writeBytes_slen (s : State) (k : Nat) (t : List Byte) : (s.writeBytes k t).slen = s.slen := by
  induction t generalizing s k with
  | nil => rfl
  | cons b rest ih => simp [State.writeBytes, ih]
@[simp] theorem writeBytes_pend (s : State) (k : Nat) (t : List Byte) : (s.writeBytes k t).pend = s.pend := by
  induction t generalizing s k with
  | nil => rfl
  | cons b rest ih => simp [State.writeBytes, ih]
@[simp] theorem writeBytes_held (s : State) (k : Nat) (t : List Byte) : (s.writeBytes k t).held = s.held := by
  induction t generalizing s k with
  | nil => rfl
  | cons b rest ih => simp [State.writeBytes, ih]
@[simp] theorem writeBytes_faultLog (s : State) (k : Nat) (t : List Byte) : (s.writeBytes k t).faultLog = s.faultLog := by
  induction t generalizing s k with
  | nil => rfl
  | cons b rest ih => simp [State.writeBytes, ih]
@[simp] theorem writeBytes_draw (s : State) (k : Nat) (t : List Byte) : (s.writeBytes k t).draw = s.draw := by
  induction t generalizing s k with
  | nil => rfl
  | cons b rest ih => simp [State.writeBytes, ih]
@[simp] theorem writeBytes_inputs (s : State) (k : Nat) (t : List Byte) : (s.writeBytes k t).inputs = s.inputs := by
  induction t generalizing s k with
  | nil => rfl
  | cons b rest ih => simp [State.writeBytes, ih]
@[simp] theorem writeBytes_responses (s : State) (k : Nat) (t : List Byte) : (s.writeBytes k t).responses = s.responses := by
  induction t generalizing s k with
  | nil => rfl
  | cons b rest ih => simp [State.writeBytes, ih]
@[simp] theorem memWrite_regs (s : State) (k n v : Nat) : (s.memWrite k n v).regs = s.regs := by
  induction n generalizing s k v with
  | zero => rfl
  | succ n ih => simp [State.memWrite, ih]
@[simp] theorem memWrite_flags (s : State) (k n v : Nat) : (s.memWrite k n v).flags = s.flags := by
  induction n generalizing s k v with
  | zero => rfl
  | succ n ih => simp [State.memWrite, ih]
@[simp] theorem memWrite_fault (s : State) (k n v : Nat) : (s.memWrite k n v).fault = s.fault := by
  induction n generalizing s k v with
  | zero => rfl
  | succ n ih => simp [State.memWrite, ih]
@[simp] theorem memWrite_err (s : State) (k n v : Nat) : (s.memWrite k n v).err = s.err := by
  induction n generalizing s k v with
  | zero => rfl
  | succ n ih => simp [State.memWrite, ih]
@[simp] theorem memWrite_fcmd (s : State) (k n v : Nat) : (s.memWrite k n v).fcmd = s.fcmd := by
  induction n generalizing s k v with
  | zero => rfl
  | succ n ih => simp [State.memWrite, ih]
@[simp] theorem memWrite_slen (s : State) (k n v : Nat) : (s.memWrite k n v).slen = s.slen := by
  induction n generalizing s k v with
  | zero => rfl
  | succ n ih => simp [State.memWrite, ih]
@[simp] theorem memWrite_pend (s : State) (k n v : Nat) : (s.memWrite k n v).pend = s.pend := by
  induction n generalizing s k v with
  | zero => rfl
  | succ n ih => simp [State.memWrite, ih]
@[simp] theorem memWrite_held (s : State) (k n v : Nat) : (s.memWrite k n v).held = s.held := by
  induction n generalizing s k v with
  | zero => rfl
  | succ n ih => simp [State.memWrite, ih]
@[simp] theorem memWrite_faultLog (s : State) (k n v : Nat) : (s.memWrite k n v).faultLog = s.faultLog := by
  induction n generalizing s k v with
  | zero => rfl
  | succ n ih => simp [State.memWrite, ih]
@[simp] theorem memWrite_draw (s : State) (k n v : Nat) : (s.memWrite k n v).draw = s.draw := by
  induction n generalizing s k v with
  | zero => rfl
  | succ n ih => simp [State.memWrite, ih]
@[simp] theorem memWrite_inputs (s : State) (k n v : Nat) : (s.memWrite k n v).inputs = s.inputs := by
  induction n generalizing s k v with
  | zero => rfl
  | succ n ih => simp [State.memWrite, ih]
@[simp] theorem memWrite_responses (s : State) (k n v : Nat) : (s.memWrite k n v).responses = s.responses := by
  induction n generalizing s k v with
  | zero => rfl
  | succ n ih => simp [State.memWrite, ih]

@[simp] theorem placeText_regs (t : List Byte) (s : State) : (placeText t s).regs = s.regs := by
  simp [placeText]
@[simp] theorem placeText_flags (t : List Byte) (s : State) : (placeText t s).flags = s.flags := by
  simp [placeText]
@[simp] theorem placeText_fault (t : List Byte) (s : State) : (placeText t s).fault = s.fault := by
  simp [placeText]
@[simp] theorem placeText_err (t : List Byte) (s : State) : (placeText t s).err = s.err := by
  simp [placeText]
@[simp] theorem placeText_fcmd (t : List Byte) (s : State) : (placeText t s).fcmd = s.fcmd := by
  simp [placeText]
@[simp] theorem placeText_slen (t : List Byte) (s : State) : (placeText t s).slen = BitVec.ofNat 32 t.length := rfl
@[simp] theorem placeText_cbuf (t : List Byte) (s : State) : (placeText t s).cbuf = (s.writeBytes 0 t).cbuf := rfl
@[simp] theorem placeText_pend (t : List Byte) (s : State) : (placeText t s).pend = s.pend := by
  simp [placeText]
@[simp] theorem placeText_held (t : List Byte) (s : State) : (placeText t s).held = s.held := by
  simp [placeText]
@[simp] theorem placeText_faultLog (t : List Byte) (s : State) : (placeText t s).faultLog = s.faultLog := by
  simp [placeText]
@[simp] theorem placeText_draw (t : List Byte) (s : State) : (placeText t s).draw = s.draw := by
  simp [placeText]
@[simp] theorem placeText_inputs (t : List Byte) (s : State) : (placeText t s).inputs = s.inputs := by
  simp [placeText]
@[simp] theorem placeText_responses (t : List Byte) (s : State) : (placeText t s).responses = s.responses := by
  simp [placeText]

end Sys2Proof.Machine
end

