-- ==== Sys2Proof/Laws/Ops.lean ====
section
/-! SUPPORT. What each shared operation over registers and the character buffer does, said once: read after write, and
the canonical form of the memory. -/

namespace Sys2Proof.Machine

/-- Reading a register after a write to one. -/
theorem readReg_writeReg (s : State) (i j : Reg) (v : Value) :
    (s.writeReg i v).readReg j = if i = j then v else s.readReg j := by
  simp [State.writeReg, State.readReg, Vector.getElem_set, Fin.ext_iff]

@[simp] theorem readReg_writeReg_same (s : State) (i : Reg) (v : Value) : (s.writeReg i v).readReg i = v := by
  simp [readReg_writeReg]

@[simp] theorem readReg_writeReg_other (s : State) {i j : Reg} (v : Value) (h : i ≠ j) :
    (s.writeReg i v).readReg j = s.readReg j := by
  simp [readReg_writeReg, h]

/-- A register is read from `regs` alone. -/
theorem readReg_congr {s t : State} (h : t.regs = s.regs) (i : Reg) : t.readReg i = s.readReg i := by
  simp [State.readReg, h]

/-- A byte of `CBUF` is read from `cbuf` and `draw` alone. -/
theorem cbufByte_congr {s t : State} (h : t.cbuf = s.cbuf) (hd : t.draw = s.draw) (k : Nat) :
    t.cbufByte k = s.cbufByte k := by
  simp [State.cbufByte, h, hd]

@[simp] theorem cbufByte_writeReg (s : State) (i : Reg) (v : Value) (k : Nat) :
    (s.writeReg i v).cbufByte k = s.cbufByte k := rfl

/-- Read after write, on the list of bytes. -/
theorem get?_put (m : Memory) (k j : Nat) (b : Byte) :
    Memory.get? (Memory.put m k b) j = if k = j then some b else Memory.get? m j := by
  induction m with
  | nil => simp [Memory.put, Memory.get?]
  | cons x rest ih =>
    obtain ⟨a, c⟩ := x
    simp only [Memory.put]
    split
    · simp only [Memory.get?]
    · split
      · subst_vars
        simp only [Memory.get?]
        split <;> rfl
      · simp only [Memory.get?, ih]
        grind

/-- Read after write, on `CBUF`. -/
theorem cbufByte_setCbufByte (s : State) (k j : Nat) (b : Byte) :
    (s.setCbufByte k b).cbufByte j = if k = j then b else s.cbufByte j := by
  simp only [State.cbufByte, setCbufByte_cbuf, setCbufByte_draw, get?_put]
  by_cases h : k = j <;> simp [h]

/-- Writing an offset at or above the bound keeps the rise. -/
theorem risesFrom_put (m : Memory) (low k : Nat) (b : Byte) (hl : low ≤ k) (hk : k < 256)
    (h : Memory.risesFrom low m = true) : Memory.risesFrom low (Memory.put m k b) = true := by
  induction m generalizing low with
  | nil => simp [Memory.put, Memory.risesFrom, hl, hk]
  | cons x rest ih =>
    obtain ⟨a, c⟩ := x
    simp only [Memory.risesFrom, Bool.and_eq_true, decide_eq_true_eq] at h
    obtain ⟨⟨h1, h2⟩, h3⟩ := h
    simp only [Memory.put]
    split
    · simp [Memory.risesFrom, hl, hk, h2, h3]
      omega
    · split
      · subst_vars
        simp [Memory.risesFrom, hl, hk, h3]
      · simp [Memory.risesFrom, h1, h2, ih (a + 1) (by omega) h3]

/-- Every write of a byte of `CBUF` keeps the canonical form. -/
theorem wf_put (m : Memory) (k : Nat) (b : Byte) (hk : k < 256) (h : Memory.wf m = true) :
    Memory.wf (Memory.put m k b) = true :=
  risesFrom_put m 0 k b (Nat.zero_le k) hk h

/-- The memory after reset has the canonical form. -/
theorem wf_reset : Memory.wf State.reset.cbuf = true := rfl

/-- Writing a text inside `CBUF` keeps the canonical form. -/
theorem wf_writeBytes (s : State) (k : Nat) (t : List Byte) (hk : k + t.length ≤ 256)
    (h : Memory.wf s.cbuf = true) : Memory.wf (s.writeBytes k t).cbuf = true := by
  induction t generalizing s k with
  | nil => exact h
  | cons b rest ih =>
    simp only [List.length_cons] at hk
    exact ih (s.setCbufByte k b) (k + 1) (by omega) (wf_put s.cbuf k b (by omega) h)

/-- A host write inside `CBUF` keeps the canonical form. -/
theorem wf_memWrite (s : State) (k n v : Nat) (hk : k + n ≤ 256) (h : Memory.wf s.cbuf = true) :
    Memory.wf (s.memWrite k n v).cbuf = true := by
  induction n generalizing s k v with
  | zero => exact h
  | succ n ih => exact ih (s.setCbufByte k _) (k + 1) (v / 256) (by omega) (wf_put s.cbuf k _ (by omega) h)

/-- What `CBUF` holds after a text is written at offset `k`. -/
theorem cbufByte_writeBytes (s : State) (k : Nat) (t : List Byte) (j : Nat) :
    (s.writeBytes k t).cbufByte j =
      if k ≤ j ∧ j < k + t.length then t.getD (j - k) 0 else s.cbufByte j := by
  induction t generalizing s k with
  | nil => simp [State.writeBytes]
  | cons b rest ih =>
    rw [State.writeBytes, ih, cbufByte_setCbufByte, List.length_cons]
    rcases Nat.lt_trichotomy j k with h | rfl | h
    · rw [if_neg (by omega), if_neg (by omega), if_neg (by omega)]
    · rw [if_neg (by omega), if_pos rfl, if_pos (by omega), Nat.sub_self, List.getD_cons_zero]
    · by_cases hr : j < k + 1 + rest.length
      · rw [if_pos (by omega), if_pos (by omega), show j - k = (j - (k + 1)) + 1 by omega, List.getD_cons_succ]
      · rw [if_neg (by omega), if_neg (by omega), if_neg (by omega)]

/-- What `CBUF` holds after a host write of `n` bytes at offset `k`: the byte at `k + j` is byte `j` of the data. -/
theorem cbufByte_memWrite (s : State) (k n v : Nat) (j : Nat) :
    (s.memWrite k n v).cbufByte j =
      if k ≤ j ∧ j < k + n then BitVec.ofNat 8 (v / 256 ^ (j - k)) else s.cbufByte j := by
  induction n generalizing s k v with
  | zero => rw [State.memWrite, if_neg (by omega)]
  | succ n ih =>
    rw [State.memWrite, ih, cbufByte_setCbufByte]
    rcases Nat.lt_trichotomy j k with h | rfl | h
    · rw [if_neg (by omega), if_neg (by omega), if_neg (by omega)]
    · rw [if_neg (by omega), if_pos rfl, if_pos (by omega), Nat.sub_self, Nat.pow_zero, Nat.div_one]
    · by_cases hr : j < k + 1 + n
      · rw [if_pos (by omega), if_pos (by omega), show j - k = (j - (k + 1)) + 1 by omega, Nat.pow_succ,
          Nat.mul_comm, Nat.div_div_eq_div_mul]
      · rw [if_neg (by omega), if_neg (by omega), if_neg (by omega)]

/-- The bytes `STRDEC` reads, one by one. -/
theorem readBytes_eq (s : State) (k n : Nat) :
    s.readBytes k n = (List.range n).map (fun j => s.cbufByte (k + j)) := by
  induction n generalizing k with
  | zero => rfl
  | succ n ih =>
    simp only [State.readBytes, ih, List.range_succ_eq_map, List.map_cons, List.map_map, Nat.add_zero]
    congr 1
    apply List.map_congr_left
    intro j _
    simp [Nat.add_comm, Nat.add_left_comm]

end Sys2Proof.Machine
end

