-- ==== Sys2Proof/Laws/PerInstr.lean ====
section
/-! SUPPORT. A statement about every command as syntax, one lemma per constructor: what its command word holds. -/

namespace Sys2Proof.Laws.EncodeFields

/-- R71, R72, R79: the command word carries the command's opcode, has 0 in every bit its format marks "must be zero", and
with that opcode selects the command again. -/
def Statement (i : Instr) : Prop :=
  fieldOPC (encode i) = i.opcode ∧ mustBeZeroHolds i.format (encode i) = true ∧
    selectRow i.opcode (encode i) = some i

theorem reg_ext (r : Reg) (n : Nat) (h : n % 16 = r.val) : Fin.ofNat 16 n = r := Fin.ext h

theorem byte_ext (b : BitVec 8) (n : Nat) (h : n % 256 = b.toNat) : BitVec.ofNat 8 n = b :=
  BitVec.eq_of_toNat_eq (by simpa using h)

theorem imm_ext (b : BitVec 16) (n : Nat) (h : n % 65536 = b.toNat) : BitVec.ofNat 16 n = b :=
  BitVec.eq_of_toNat_eq (by simpa using h)

/-- The command word as a number: no field of R79's sum reaches past bit 31. -/
theorem encode_toNat (i : Instr) : (encode i).toNat = i.opcode + i.operandFields := by
  refine Nat.mod_eq_of_lt ?_
  cases i <;> simp only [Instr.opcode, Instr.operandFields] <;> omega

theorem add (rd rs1 rs2 : Reg) : Statement (.add rd rs1 rs2) := by
  have hw := encode_toNat (.add rd rs1 rs2)
  simp only [Instr.opcode, Instr.operandFields] at hw
  refine ⟨?_, ?_, ?_⟩
  · simp only [fieldOPC, field, hw, Instr.opcode]; omega
  · simp [mustBeZeroHolds, mustBeZero, Instr.format, field, hw]; try omega
  · simp only [Instr.opcode, selectRow, Option.some.injEq, Instr.add.injEq]
    exact ⟨reg_ext rd _ (by simp only [field, hw]; omega),
      reg_ext rs1 _ (by simp only [field, hw]; omega),
      reg_ext rs2 _ (by simp only [field, hw]; omega)⟩

theorem sub (rd rs1 rs2 : Reg) : Statement (.sub rd rs1 rs2) := by
  have hw := encode_toNat (.sub rd rs1 rs2)
  simp only [Instr.opcode, Instr.operandFields] at hw
  refine ⟨?_, ?_, ?_⟩
  · simp only [fieldOPC, field, hw, Instr.opcode]; omega
  · simp [mustBeZeroHolds, mustBeZero, Instr.format, field, hw]; try omega
  · simp only [Instr.opcode, selectRow, Option.some.injEq, Instr.sub.injEq]
    exact ⟨reg_ext rd _ (by simp only [field, hw]; omega),
      reg_ext rs1 _ (by simp only [field, hw]; omega),
      reg_ext rs2 _ (by simp only [field, hw]; omega)⟩

theorem neg (rd rs1 : Reg) : Statement (.neg rd rs1) := by
  have hw := encode_toNat (.neg rd rs1)
  simp only [Instr.opcode, Instr.operandFields] at hw
  refine ⟨?_, ?_, ?_⟩
  · simp only [fieldOPC, field, hw, Instr.opcode]; omega
  · simp [mustBeZeroHolds, mustBeZero, Instr.format, field, hw]; try omega
  · simp only [Instr.opcode, selectRow, Option.some.injEq, Instr.neg.injEq]
    exact ⟨reg_ext rd _ (by simp only [field, hw]; omega),
      reg_ext rs1 _ (by simp only [field, hw]; omega)⟩

theorem mul (rd rs1 rs2 : Reg) : Statement (.mul rd rs1 rs2) := by
  have hw := encode_toNat (.mul rd rs1 rs2)
  simp only [Instr.opcode, Instr.operandFields] at hw
  refine ⟨?_, ?_, ?_⟩
  · simp only [fieldOPC, field, hw, Instr.opcode]; omega
  · simp [mustBeZeroHolds, mustBeZero, Instr.format, field, hw]; try omega
  · simp only [Instr.opcode, selectRow, Option.some.injEq, Instr.mul.injEq]
    exact ⟨reg_ext rd _ (by simp only [field, hw]; omega),
      reg_ext rs1 _ (by simp only [field, hw]; omega),
      reg_ext rs2 _ (by simp only [field, hw]; omega)⟩

theorem and (rd rs1 rs2 : Reg) : Statement (.and rd rs1 rs2) := by
  have hw := encode_toNat (.and rd rs1 rs2)
  simp only [Instr.opcode, Instr.operandFields] at hw
  refine ⟨?_, ?_, ?_⟩
  · simp only [fieldOPC, field, hw, Instr.opcode]; omega
  · simp [mustBeZeroHolds, mustBeZero, Instr.format, field, hw]; try omega
  · simp only [Instr.opcode, selectRow, Option.some.injEq, Instr.and.injEq]
    exact ⟨reg_ext rd _ (by simp only [field, hw]; omega),
      reg_ext rs1 _ (by simp only [field, hw]; omega),
      reg_ext rs2 _ (by simp only [field, hw]; omega)⟩

theorem or (rd rs1 rs2 : Reg) : Statement (.or rd rs1 rs2) := by
  have hw := encode_toNat (.or rd rs1 rs2)
  simp only [Instr.opcode, Instr.operandFields] at hw
  refine ⟨?_, ?_, ?_⟩
  · simp only [fieldOPC, field, hw, Instr.opcode]; omega
  · simp [mustBeZeroHolds, mustBeZero, Instr.format, field, hw]; try omega
  · simp only [Instr.opcode, selectRow, Option.some.injEq, Instr.or.injEq]
    exact ⟨reg_ext rd _ (by simp only [field, hw]; omega),
      reg_ext rs1 _ (by simp only [field, hw]; omega),
      reg_ext rs2 _ (by simp only [field, hw]; omega)⟩

theorem xor (rd rs1 rs2 : Reg) : Statement (.xor rd rs1 rs2) := by
  have hw := encode_toNat (.xor rd rs1 rs2)
  simp only [Instr.opcode, Instr.operandFields] at hw
  refine ⟨?_, ?_, ?_⟩
  · simp only [fieldOPC, field, hw, Instr.opcode]; omega
  · simp [mustBeZeroHolds, mustBeZero, Instr.format, field, hw]; try omega
  · simp only [Instr.opcode, selectRow, Option.some.injEq, Instr.xor.injEq]
    exact ⟨reg_ext rd _ (by simp only [field, hw]; omega),
      reg_ext rs1 _ (by simp only [field, hw]; omega),
      reg_ext rs2 _ (by simp only [field, hw]; omega)⟩

theorem not (rd rs1 : Reg) : Statement (.not rd rs1) := by
  have hw := encode_toNat (.not rd rs1)
  simp only [Instr.opcode, Instr.operandFields] at hw
  refine ⟨?_, ?_, ?_⟩
  · simp only [fieldOPC, field, hw, Instr.opcode]; omega
  · simp [mustBeZeroHolds, mustBeZero, Instr.format, field, hw]; try omega
  · simp only [Instr.opcode, selectRow, Option.some.injEq, Instr.not.injEq]
    exact ⟨reg_ext rd _ (by simp only [field, hw]; omega),
      reg_ext rs1 _ (by simp only [field, hw]; omega)⟩

theorem shl (rd rs1 rs2 : Reg) : Statement (.shl rd rs1 rs2) := by
  have hw := encode_toNat (.shl rd rs1 rs2)
  simp only [Instr.opcode, Instr.operandFields] at hw
  refine ⟨?_, ?_, ?_⟩
  · simp only [fieldOPC, field, hw, Instr.opcode]; omega
  · simp [mustBeZeroHolds, mustBeZero, Instr.format, field, hw]; try omega
  · simp only [Instr.opcode, selectRow, Option.some.injEq, Instr.shl.injEq]
    exact ⟨reg_ext rd _ (by simp only [field, hw]; omega),
      reg_ext rs1 _ (by simp only [field, hw]; omega),
      reg_ext rs2 _ (by simp only [field, hw]; omega)⟩

theorem shr (rd rs1 rs2 : Reg) : Statement (.shr rd rs1 rs2) := by
  have hw := encode_toNat (.shr rd rs1 rs2)
  simp only [Instr.opcode, Instr.operandFields] at hw
  refine ⟨?_, ?_, ?_⟩
  · simp only [fieldOPC, field, hw, Instr.opcode]; omega
  · simp [mustBeZeroHolds, mustBeZero, Instr.format, field, hw]; try omega
  · simp only [Instr.opcode, selectRow, Option.some.injEq, Instr.shr.injEq]
    exact ⟨reg_ext rd _ (by simp only [field, hw]; omega),
      reg_ext rs1 _ (by simp only [field, hw]; omega),
      reg_ext rs2 _ (by simp only [field, hw]; omega)⟩

theorem divu (rd rs1 rs2 : Reg) : Statement (.divu rd rs1 rs2) := by
  have hw := encode_toNat (.divu rd rs1 rs2)
  simp only [Instr.opcode, Instr.operandFields] at hw
  refine ⟨?_, ?_, ?_⟩
  · simp only [fieldOPC, field, hw, Instr.opcode]; omega
  · simp [mustBeZeroHolds, mustBeZero, Instr.format, field, hw]; try omega
  · simp only [Instr.opcode, selectRow, Option.some.injEq, Instr.divu.injEq]
    exact ⟨reg_ext rd _ (by simp only [field, hw]; omega),
      reg_ext rs1 _ (by simp only [field, hw]; omega),
      reg_ext rs2 _ (by simp only [field, hw]; omega)⟩

theorem remu (rd rs1 rs2 : Reg) : Statement (.remu rd rs1 rs2) := by
  have hw := encode_toNat (.remu rd rs1 rs2)
  simp only [Instr.opcode, Instr.operandFields] at hw
  refine ⟨?_, ?_, ?_⟩
  · simp only [fieldOPC, field, hw, Instr.opcode]; omega
  · simp [mustBeZeroHolds, mustBeZero, Instr.format, field, hw]; try omega
  · simp only [Instr.opcode, selectRow, Option.some.injEq, Instr.remu.injEq]
    exact ⟨reg_ext rd _ (by simp only [field, hw]; omega),
      reg_ext rs1 _ (by simp only [field, hw]; omega),
      reg_ext rs2 _ (by simp only [field, hw]; omega)⟩

theorem divmod (rd rd2 rs1 rs2 : Reg) : Statement (.divmod rd rd2 rs1 rs2) := by
  have hw := encode_toNat (.divmod rd rd2 rs1 rs2)
  simp only [Instr.opcode, Instr.operandFields] at hw
  refine ⟨?_, ?_, ?_⟩
  · simp only [fieldOPC, field, hw, Instr.opcode]; omega
  · simp [mustBeZeroHolds, mustBeZero, Instr.format, field, hw]; try omega
  · simp only [Instr.opcode, selectRow, Option.some.injEq, Instr.divmod.injEq]
    exact ⟨reg_ext rd _ (by simp only [field, hw]; omega),
      reg_ext rd2 _ (by simp only [field, hw]; omega),
      reg_ext rs1 _ (by simp only [field, hw]; omega),
      reg_ext rs2 _ (by simp only [field, hw]; omega)⟩

theorem cmp (rs1 rs2 : Reg) : Statement (.cmp rs1 rs2) := by
  have hw := encode_toNat (.cmp rs1 rs2)
  simp only [Instr.opcode, Instr.operandFields] at hw
  refine ⟨?_, ?_, ?_⟩
  · simp only [fieldOPC, field, hw, Instr.opcode]; omega
  · simp [mustBeZeroHolds, mustBeZero, Instr.format, field, hw]; try omega
  · simp only [Instr.opcode, selectRow, Option.some.injEq, Instr.cmp.injEq]
    exact ⟨reg_ext rs1 _ (by simp only [field, hw]; omega),
      reg_ext rs2 _ (by simp only [field, hw]; omega)⟩

theorem tst (rs1 : Reg) : Statement (.tst rs1) := by
  have hw := encode_toNat (.tst rs1)
  simp only [Instr.opcode, Instr.operandFields] at hw
  refine ⟨?_, ?_, ?_⟩
  · simp only [fieldOPC, field, hw, Instr.opcode]; omega
  · simp [mustBeZeroHolds, mustBeZero, Instr.format, field, hw]; try omega
  · simp only [Instr.opcode, selectRow, Option.some.injEq, Instr.tst.injEq]
    exact reg_ext rs1 _ (by simp only [field, hw]; omega)

theorem bits (rd rs1 : Reg) : Statement (.bits rd rs1) := by
  have hw := encode_toNat (.bits rd rs1)
  simp only [Instr.opcode, Instr.operandFields] at hw
  refine ⟨?_, ?_, ?_⟩
  · simp only [fieldOPC, field, hw, Instr.opcode]; omega
  · simp [mustBeZeroHolds, mustBeZero, Instr.format, field, hw]; try omega
  · simp only [Instr.opcode, selectRow, Option.some.injEq, Instr.bits.injEq]
    exact ⟨reg_ext rd _ (by simp only [field, hw]; omega),
      reg_ext rs1 _ (by simp only [field, hw]; omega)⟩

theorem strenc (rs1 : Reg) (base minlen : BitVec 8) : Statement (.strenc rs1 base minlen) := by
  have hw := encode_toNat (.strenc rs1 base minlen)
  simp only [Instr.opcode, Instr.operandFields] at hw
  refine ⟨?_, ?_, ?_⟩
  · simp only [fieldOPC, field, hw, Instr.opcode]; omega
  · simp [mustBeZeroHolds, mustBeZero, Instr.format, field, hw]; try omega
  · simp only [Instr.opcode, selectRow, Option.some.injEq, Instr.strenc.injEq]
    exact ⟨reg_ext rs1 _ (by simp only [field, hw]; omega),
      byte_ext base _ (by simp only [field, hw]; omega),
      byte_ext minlen _ (by simp only [field, hw]; omega)⟩

theorem strdec (rd : Reg) (base : BitVec 8) : Statement (.strdec rd base) := by
  have hw := encode_toNat (.strdec rd base)
  simp only [Instr.opcode, Instr.operandFields] at hw
  refine ⟨?_, ?_, ?_⟩
  · simp only [fieldOPC, field, hw, Instr.opcode]; omega
  · simp [mustBeZeroHolds, mustBeZero, Instr.format, field, hw]; try omega
  · simp only [Instr.opcode, selectRow, Option.some.injEq, Instr.strdec.injEq]
    exact ⟨reg_ext rd _ (by simp only [field, hw]; omega),
      byte_ext base _ (by simp only [field, hw]; omega)⟩

theorem ldi (rd : Reg) (imm : BitVec 16) : Statement (.ldi rd imm) := by
  have hw := encode_toNat (.ldi rd imm)
  simp only [Instr.opcode, Instr.operandFields] at hw
  refine ⟨?_, ?_, ?_⟩
  · simp only [fieldOPC, field, hw, Instr.opcode]; omega
  · simp [mustBeZeroHolds, mustBeZero, Instr.format, field, hw]; try omega
  · simp only [Instr.opcode, selectRow, Option.some.injEq, Instr.ldi.injEq]
    exact ⟨reg_ext rd _ (by simp only [field, hw]; omega),
      imm_ext imm _ (by simp only [field, hw]; omega)⟩

theorem mov (rd rs1 : Reg) : Statement (.mov rd rs1) := by
  have hw := encode_toNat (.mov rd rs1)
  simp only [Instr.opcode, Instr.operandFields] at hw
  refine ⟨?_, ?_, ?_⟩
  · simp only [fieldOPC, field, hw, Instr.opcode]; omega
  · simp [mustBeZeroHolds, mustBeZero, Instr.format, field, hw]; try omega
  · simp only [Instr.opcode, selectRow, Option.some.injEq, Instr.mov.injEq]
    exact ⟨reg_ext rd _ (by simp only [field, hw]; omega),
      reg_ext rs1 _ (by simp only [field, hw]; omega)⟩

end Sys2Proof.Laws.EncodeFields
end

