-- ==== Sys2Proof/Laws/Step.lean ====
section
/-! SUPPORT. What a step can do, said once: every later proof about a step cites these lemmas and does not unfold the
step. -/

namespace Sys2Proof.Machine

/-- R150: `DIVCORE` raises `DIVIDE_BY_ZERO` exactly on a zero divisor. -/
theorem divCore_eq_none_iff (a b : Value) : divCore a b = none ↔ b = Value.zero := by
  unfold divCore
  repeat' split
  all_goals simp_all

/-- A performed access answers a next state only by reading or writing the location that accepts it. -/
theorem performAccess_next {a : Access} {s t : State} (h : performAccess a s = .next t) :
    (∃ off width l, a = .read off width ∧ locate off.toNat width = some l ∧
      t = s.respond a (.data (readLocation s width l))) ∨
    (∃ off width d l, a = .write off width d ∧ locate off.toNat width = some l ∧
      t = (writeLocation s width d l).respond a .written) := by
  cases a with
  | read off width =>
    simp only [performAccess] at h
    split at h
    · cases h
    · exact .inl ⟨off, width, _, rfl, ‹_›, by injection h with h; exact h.symm⟩
  | write off width d =>
    simp only [performAccess] at h
    split at h
    · cases h
    · exact .inr ⟨off, width, d, _, rfl, ‹_›, by injection h with h; exact h.symm⟩

/-- A completed command answers a next state only by retiring an illegal word's fault or what the command answers. -/
theorem completeCommand_next {w : CmdWord} {s t : State} (h : completeCommand w s = .next t) :
    (∃ e, decode w = .error e ∧ t = retire (raiseFault .illegalCommand w s)) ∨
    (∃ i u, decode w = .ok i ∧ exec i s = .next u ∧ t = retire u) := by
  unfold completeCommand at h
  split at h
  · exact .inl ⟨_, ‹_›, by injection h with h; exact h.symm⟩
  · rename_i i hi
    refine .inr ⟨i, ?_⟩
    cases hx : exec i s with
    | next u =>
      rw [hx] at h
      exact ⟨u, hi, rfl, by injection h with h; exact h.symm⟩
    | fault r => rw [hx] at h; cases h
    | refused r => rw [hx] at h; cases h

/-- Everything one step can do when it answers a next state: reset, an access performed (while `PEND` is empty, or a
`STATUS` read), an access held, the pending command completed, or nothing but the passing of an idle slot. -/
theorem step_cases {s t : State} (h : step s = .next t) :
    (∃ keep rest, s.inputs = .reset keep :: rest ∧ t = State.resetInput { s with inputs := rest } keep) ∨
    (∃ a held rest, (s.pend = none ∨ isStatusRead a = true) ∧
      performAccess a { s with held := held, inputs := rest } = .next t) ∨
    (∃ a late rest w, s.pend = some w ∧ s.inputs = .access a late :: rest ∧ isStatusRead a = false ∧
      t = { s with held := s.held ++ [a], inputs := rest }) ∨
    (∃ w rest, s.pend = some w ∧ completeCommand w { s with inputs := rest } = .next t) ∨
    (∃ rest, s.pend = none ∧ s.held = [] ∧ t = { s with inputs := rest }) := by
  have own : ∀ rest, ownWork rest s = .next t →
      (∃ a held rest, (s.pend = none ∨ isStatusRead a = true) ∧
        performAccess a { s with held := held, inputs := rest } = .next t) ∨
      (∃ w rest, s.pend = some w ∧ completeCommand w { s with inputs := rest } = .next t) ∨
      (∃ rest, s.pend = none ∧ s.held = [] ∧ t = { s with inputs := rest }) := by
    intro rest h
    unfold ownWork at h
    split at h
    · exact .inr (.inl ⟨_, rest, ‹_›, h⟩)
    · split at h
      · exact .inr (.inr ⟨rest, ‹_›, ‹_›, by injection h with h; exact h.symm⟩)
      · exact .inl ⟨_, _, s.inputs, .inl ‹_›, h⟩
  unfold step nextStep at h
  split at h
  · obtain h | h | h := own _ h
    · exact .inr (.inl h)
    · exact .inr (.inr (.inr (.inl h)))
    · exact .inr (.inr (.inr (.inr h)))
  · obtain h | h | h := own _ h
    · exact .inr (.inl h)
    · exact .inr (.inr (.inr (.inl h)))
    · exact .inr (.inr (.inr (.inr h)))
  · rename_i a late rest hin
    unfold portAccess at h
    split at h
    · rename_i w hw
      split at h
      · rename_i hst
        split at h
        · exact .inr (.inr (.inr (.inl ⟨w, s.inputs, hw, h⟩)))
        · exact .inr (.inl ⟨a, s.held, rest, .inr hst, h⟩)
      · rename_i hns
        exact .inr (.inr (.inl ⟨a, late, rest, w, hw, hin, by simpa using hns, by injection h with h; exact h.symm⟩))
    · rename_i hp
      split at h
      · exact .inr (.inl ⟨a, s.held, rest, .inl hp, h⟩)
      · split at h
        · exact .inr (.inl ⟨a, s.held, rest, .inl hp, h⟩)
        · exact .inr (.inl ⟨_, _, s.inputs, .inl hp, h⟩)
  · rename_i keep rest hin
    exact .inl ⟨keep, rest, hin, by injection h with h; exact h.symm⟩

/-- With a command pending, an idle slot is the core's turn. -/
theorem step_of_pending_idle {s : State} {w : CmdWord} {rest : List HostEvent} (hp : s.pend = some w)
    (h : s.inputs = .idle :: rest) : step s = completeCommand w { s with inputs := rest } := by
  simp [step, nextStep, h, ownWork, hp]

/-- With a command pending and no event left, it is the core's turn. -/
theorem step_of_pending_no_event {s : State} {w : CmdWord} (hp : s.pend = some w) (h : s.inputs = []) :
    step s = completeCommand w s := by
  simp [step, nextStep, h, ownWork, hp]
  rw [← hp, ← h]

/-- With a command pending, the core's turn comes ahead of a `STATUS` read that is to see the values after it. -/
theorem step_of_pending_late {s : State} {w : CmdWord} {later : List HostEvent} (hp : s.pend = some w)
    (h : s.inputs = .access (.read 0x004 4) true :: later) : step s = completeCommand w s := by
  have e : step s = portAccess (.read 0x004 4) true later s := by rw [step, nextStep, h]
  rw [e]
  unfold portAccess
  split
  · rename_i v hv
    rw [hp] at hv
    cases hv
    rfl
  · rename_i hv
    rw [hp] at hv
    cases hv

end Sys2Proof.Machine
end

