-- ==== Sys2Proof/Laws/Values.lean ====
section
/-! SUPPORT. What the shared operations on values do to the numbers that the values stand for (00_scope.md R1, R2), said
once. -/

namespace Sys2Proof.Machine

/-- A value is below 2^128. -/
theorem value_toNat_lt (a : Value) : a.toNat < 2 ^ 128 := by
  have h1 := a.lo.isLt
  have h2 := a.hi.isLt
  simp only [Value.toNat]
  omega

/-- Two values that stand for the same number are equal. -/
theorem value_eq_of_toNat_eq {a b : Value} (h : a.toNat = b.toNat) : a = b := by
  have h1 := a.lo.isLt
  have h2 := b.lo.isLt
  cases a
  cases b
  simp only [Value.toNat, Value.mk.injEq, ← BitVec.toNat_inj] at *
  omega

/-- The value of a number stands for the number modulo 2^128. -/
theorem value_ofNat_toNat (n : Nat) : (Value.ofNat n).toNat = n % 2 ^ 128 := by
  simp only [Value.ofNat, Value.toNat, BitVec.toNat_ofNat]
  omega

@[simp] theorem value_zero_toNat : Value.zero.toNat = 0 := rfl
@[simp] theorem value_one_toNat : Value.one.toNat = 1 := rfl

/-- A value is the zero value exactly when it stands for 0. -/
theorem value_toNat_eq_zero (a : Value) : a.toNat = 0 ↔ a = Value.zero :=
  ⟨fun h => value_eq_of_toNat_eq h, fun h => h ▸ rfl⟩

/-- The sum of 128-bit values, as numbers. -/
theorem valueAdd_toNat (a b : Value) : (valueAdd a b).toNat = (a.toNat + b.toNat) % 2 ^ 128 := by
  have h1 := a.lo.isLt
  have h2 := b.lo.isLt
  have h3 := a.hi.isLt
  have h4 := b.hi.isLt
  simp only [valueAdd, Value.toNat, BitVec.lt_def, BitVec.toNat_add]
  split <;> simp <;> omega

/-- The difference of 128-bit values, as numbers. -/
theorem valueSub_toNat (a b : Value) : (valueSub a b).toNat = (a.toNat + 2 ^ 128 - b.toNat) % 2 ^ 128 := by
  have h1 := a.lo.isLt
  have h2 := b.lo.isLt
  have h3 := a.hi.isLt
  have h4 := b.hi.isLt
  simp only [valueSub, Value.toNat, BitVec.lt_def, BitVec.toNat_sub]
  split <;> simp <;> omega

/-- The complement, as a number. -/
theorem valueNot_toNat (a : Value) : (valueNot a).toNat = 2 ^ 128 - 1 - a.toNat := by
  have h1 := a.lo.isLt
  have h3 := a.hi.isLt
  simp only [valueNot, Value.toNat, BitVec.toNat_not]
  omega

/-- The order of values is that of the numbers. -/
theorem valueLt_iff (a b : Value) : valueLt a b = true ↔ a.toNat < b.toNat := by
  have h1 := a.lo.isLt
  have h2 := b.lo.isLt
  simp only [valueLt, Value.toNat, Bool.or_eq_true, Bool.and_eq_true, beq_iff_eq, decide_eq_true_eq,
    BitVec.lt_def, ← BitVec.toNat_inj]
  omega

/-- The low half of a product. -/
theorem lowHalf_toNat (p : Limb) : (lowHalf p).toNat = p.toNat % 2 ^ 32 := by
  simp only [lowHalf, BitVec.toNat_and]
  exact Nat.and_two_pow_sub_one_eq_mod p.toNat 32

/-- The high half of a product. -/
theorem highHalf_toNat (p : Limb) : (highHalf p).toNat = p.toNat / 2 ^ 32 := by
  simp [highHalf, Nat.shiftRight_eq_div_pow]

/-- The 32-bit digits of a value. -/
theorem digit_toNat (a : Value) (i : Nat) (hi : i < 4) : (digit a i).toNat = a.toNat / 2 ^ (32 * i) % 2 ^ 32 := by
  have h1 := a.lo.isLt
  have h3 := a.hi.isLt
  have mask : ∀ x : Limb, (x &&& 0xFFFFFFFF).toNat = x.toNat % 2 ^ 32 := lowHalf_toNat
  simp only [digit, mask, BitVec.toNat_ushiftRight, Nat.shiftRight_eq_div_pow, Value.toNat]
  interval_cases i <;> simp <;> omega

/-- The shift amount that R134 accepts, as a number. -/
theorem shiftOperand_eq (n : Value) : shiftOperand n = if n.toNat < 128 then some n.toNat else none := by
  have h1 := n.lo.isLt
  have z : (0 : Limb).toNat = 0 := rfl
  have w : (128 : Limb).toNat = 128 := rfl
  by_cases hc : n.hi = 0 ∧ n.lo < 128
  · have e : n.toNat = n.lo.toNat := by simp [Value.toNat, hc.1]
    have := hc.2
    rw [BitVec.lt_def, w] at this
    rw [shiftOperand, if_pos hc, e, if_pos this]
  · rw [shiftOperand, if_neg hc, if_neg]
    intro h
    apply hc
    simp only [Value.toNat, BitVec.lt_def, ← BitVec.toNat_inj, z, w] at *
    omega

end Sys2Proof.Machine
end

