-- ==== Sys2Proof/Machine/Timing.lean ====
section
/-! DEFINITION. The latency class of each command (70_reset_and_hazards.md R248). No step uses it: "no rule of this spec
depends on a latency" (R250). -/

namespace Sys2Proof.Machine

/-- R248: the latency of a command, an OPEN parameter of its class. -/
def latencyOfInstr (i : Instr) (s : State) : Nat :=
  match i with
  | .mul _ _ _ => Config.latMul
  | .divu _ rs1 rs2 => Config.latDiv (s.readReg rs1) (s.readReg rs2)
  | .remu _ rs1 rs2 => Config.latDiv (s.readReg rs1) (s.readReg rs2)
  | .divmod _ _ rs1 rs2 => Config.latDiv (s.readReg rs1) (s.readReg rs2)
  | .strenc rs1 base minlen => Config.latStrenc (s.readReg rs1) base.toNat minlen.toNat
  | .strdec _ _ => Config.latStrdec s.slen.toNat
  | .ldi _ _ => Config.latSimple
  | .mov _ _ => Config.latSimple
  | .add _ _ _ => Config.latSimple
  | .sub _ _ _ => Config.latSimple
  | .neg _ _ => Config.latSimple
  | .and _ _ _ => Config.latSimple
  | .or _ _ _ => Config.latSimple
  | .xor _ _ _ => Config.latSimple
  | .not _ _ => Config.latSimple
  | .shl _ _ _ => Config.latSimple
  | .shr _ _ _ => Config.latSimple
  | .cmp _ _ => Config.latSimple
  | .tst _ => Config.latSimple
  | .bits _ _ => Config.latSimple

/-- R248: an illegal command takes `LAT_SIMPLE`. -/
def latencyOf (w : CmdWord) (s : State) : Nat :=
  match decode w with
  | .ok i => latencyOfInstr i s
  | .error _ => Config.latSimple

end Sys2Proof.Machine
end

