-- ==== Sys2Proof/Tests/Slice0.lean ====
section
/-! SUPPORT. The model's own tests: the decoding of words written out from the spec's encodings, the well-formedness
check, one or two single steps for each command (every expected value is a row of 95_test_vectors.md, named by its
section), the host's accesses, and a witness for the hypotheses of each statement of Obligations.lean. -/

namespace Sys2Proof.Machine.Tests

open Sys2Proof.Machine.Claims

/-! ## Helpers -/

/-- What a step answers satisfies a check. -/
def ok (o : Host.Outcome State Fault Refusal) (check : State → Bool) : Bool :=
  match o with
  | .next t => check t
  | .fault _ => false
  | .refused _ => false

/-- The machine after reset with `V1` and `V2` set. -/
def withOperands (a b : Value) : State := (State.reset.writeReg 1 a).writeReg 2 b

/-- One step that runs a command word on `V1` and `V2`. -/
def runs (w : Nat) (a b : Value) (check : State → Bool) : Bool := ok (step ((withOperands a b).withFetchWord 32 w)) check

/-- The machine after reset with a text in `CBUF` and its length in `SLEN`. -/
def withText (t : List Byte) : State := { State.reset.writeBytes 0 t with slen := BitVec.ofNat 32 t.length }

/-- One step that runs `STRDEC v2, base` on a text and checks the number in `V2`. -/
def parses (base : Nat) (t : List Byte) (n : Nat) : Bool :=
  ok (step ((withText t).withFetchWord 32 (0x222 + base * 2 ^ 16))) (fun u => (u.readReg 2).toNat == n && u.fault == false)

/-- One step that runs `STRENC v1, base, m` on a number and checks the text. -/
def renders (n base m : Nat) (t : List Byte) : Bool :=
  runs (0x1021 + base * 2 ^ 16 + m * 2 ^ 24) (Value.ofNat n) Value.zero
    (fun u => u.readBytes 0 t.length == t && u.slen.toNat == t.length)

/-- The machine after reset with a command pending and the host's events. -/
def pending (w : CmdWord) (events : List HostEvent) : State := { State.start events with pend := some w }

/-- A state with a fault on record, and in the log. -/
def faulted : State := raiseFault .divideByZero 0x00021310 State.reset

/-- The number 2^128 - 1. -/
def allOnes : Value := ⟨0xFFFFFFFFFFFFFFFF, 0xFFFFFFFFFFFFFFFF⟩

/-! ## Well-formedness -/

theorem test_divmod_same_destinations_ill_formed : (Instr.divmod 3 3 1 2).wellFormed = false := by decide
theorem test_divmod_two_destinations_well_formed : (Instr.divmod 3 4 1 2).wellFormed = true := by decide
theorem test_ill_formed_divmod_refused_by_the_decoder :
    decode (encode (.divmod 3 3 1 2)) = .error .sameDestinations := by decide
theorem test_swap_scratch_ill_formed : pseudoWellFormed (.swap 1 2 2) = false := by decide
theorem test_inc_scratch_ill_formed : pseudoWellFormed (.inc 3 3) = false := by decide

/-! ## Decoding: every constructor, by a word written out from R71, R72 and R74 -/

theorem test_decode_add : decode 0x00021301 = .ok (.add 3 1 2) := by decide
theorem test_decode_sub : decode 0x00021302 = .ok (.sub 3 1 2) := by decide
theorem test_decode_neg : decode 0x00001303 = .ok (.neg 3 1) := by decide
theorem test_decode_mul : decode 0x00023504 = .ok (.mul 5 3 2) := by decide
theorem test_decode_and : decode 0x00021308 = .ok (.and 3 1 2) := by decide
theorem test_decode_or : decode 0x00021309 = .ok (.or 3 1 2) := by decide
theorem test_decode_xor : decode 0x0002130A = .ok (.xor 3 1 2) := by decide
theorem test_decode_not : decode 0x0000130B = .ok (.not 3 1) := by decide
theorem test_decode_shl : decode 0x0002130C = .ok (.shl 3 1 2) := by decide
theorem test_decode_shr : decode 0x0002130D = .ok (.shr 3 1 2) := by decide
theorem test_decode_divu : decode 0x00061710 = .ok (.divu 7 1 6) := by decide
theorem test_decode_remu : decode 0x00061811 = .ok (.remu 8 1 6) := by decide
theorem test_decode_divmod : decode 0x00421312 = .ok (.divmod 3 4 1 2) := by decide
theorem test_decode_cmp : decode 0x00042018 = .ok (.cmp 2 4) := by decide
theorem test_decode_tst : decode 0x00003019 = .ok (.tst 3) := by decide
theorem test_decode_bits : decode 0x00004520 = .ok (.bits 5 4) := by decide
theorem test_decode_strenc : decode 0x0C0A1021 = .ok (.strenc 1 10 12) := by decide
theorem test_decode_strdec : decode 0x000A0222 = .ok (.strdec 2 10) := by decide
theorem test_decode_ldi : decode 0x80000230 = .ok (.ldi 2 0x8000) := by decide
theorem test_decode_mov : decode 0x00002531 = .ok (.mov 5 2) := by decide
theorem test_decode_highest_registers : decode 0x00EFDC12 = .ok (.divmod 12 14 13 15) := by decide
theorem test_decode_base_17_is_legal : decode 0x00111021 = .ok (.strenc 1 17 0) := by decide
theorem test_decode_base_3_is_legal : decode 0x00030222 = .ok (.strdec 2 3) := by decide
theorem test_decode_undefined_opcodes :
    decode 0x00000000 = .error .undefinedOpcode ∧ decode 0x00000005 = .error .undefinedOpcode ∧
    decode 0x000000FF = .error .undefinedOpcode := by decide
theorem test_decode_must_be_zero_bits :
    decode 0x10021301 = .error .mustBeZeroBits ∧ decode 0x00121301 = .error .mustBeZeroBits ∧
    decode 0x00021118 = .error .mustBeZeroBits ∧ decode 0x00011203 = .error .mustBeZeroBits ∧
    decode 0x0000F130 = .error .mustBeZeroBits ∧ decode 0x01000222 = .error .mustBeZeroBits ∧
    decode 0x00001119 = .error .mustBeZeroBits ∧ decode 0x000A1121 = .error .mustBeZeroBits := by decide
theorem test_decode_table_word_short : decodeTableWord 16 0x2531 = some (.mov 5 2) := by decide

/-! ## Single steps of each command (95_test_vectors.md sections 3 to 9) -/

theorem test_ldi_negative : runs 0x80000130 Value.zero Value.zero
    (fun t => t.readReg 1 == ⟨0xFFFFFFFFFFFFFFFF, 0xFFFFFFFFFFFF8000⟩) = true := by decide
theorem test_ldi_positive : runs 0x7FFF0130 allOnes Value.zero (fun t => t.readReg 1 == ⟨0, 0x7FFF⟩) = true := by decide
theorem test_mov_both_limbs : runs 0x00002531 Value.zero ⟨1, 2⟩ (fun t => t.readReg 5 == ⟨1, 2⟩) = true := by decide
theorem test_mov_same_register : runs 0x00002231 Value.zero ⟨1, 2⟩ (fun t => t.readReg 2 == ⟨1, 2⟩) = true := by decide
theorem test_add_carry : runs 0x00021301 ⟨0, 0xFFFFFFFFFFFFFFFF⟩ Value.one
    (fun t => t.readReg 3 == ⟨1, 0⟩) = true := by decide
theorem test_add_wraps : runs 0x00021301 allOnes allOnes
    (fun t => t.readReg 3 == ⟨0xFFFFFFFFFFFFFFFF, 0xFFFFFFFFFFFFFFFE⟩) = true := by decide
theorem test_add_aliased : runs 0x00011101 ⟨0, 3⟩ Value.zero (fun t => t.readReg 1 == ⟨0, 6⟩) = true := by decide
theorem test_sub_underflow : runs 0x00021302 ⟨0, 5⟩ ⟨0, 7⟩
    (fun t => t.readReg 3 == ⟨0xFFFFFFFFFFFFFFFF, 0xFFFFFFFFFFFFFFFE⟩) = true := by decide
theorem test_sub_borrow : runs 0x00021302 ⟨1, 0⟩ Value.one
    (fun t => t.readReg 3 == ⟨0, 0xFFFFFFFFFFFFFFFF⟩) = true := by decide
theorem test_neg_upper_limb : runs 0x00001303 ⟨1, 0⟩ Value.zero
    (fun t => t.readReg 3 == ⟨0xFFFFFFFFFFFFFFFF, 0⟩) = true := by decide
theorem test_neg_own_negation : runs 0x00001303 ⟨0x8000000000000000, 0⟩ Value.zero
    (fun t => t.readReg 3 == ⟨0x8000000000000000, 0⟩) = true := by decide
theorem test_mul_crosses_limbs : runs 0x00021304 ⟨0, 0x123456789⟩ ⟨0, 0x987654321⟩
    (fun t => t.readReg 3 == ⟨0xA, 0xD77D742CCE1833A9⟩) = true := by decide
theorem test_mul_digit_carries : runs 0x00021304 ⟨0x100000000, 1⟩ ⟨0x100000000, 1⟩
    (fun t => t.readReg 3 == ⟨0x200000000, 1⟩) = true := by decide
theorem test_and : runs 0x00021308 ⟨0xFF00, 0x0F⟩ ⟨0x0FF0, 0xFF⟩ (fun t => t.readReg 3 == ⟨0x0F00, 0x0F⟩) = true := by decide
theorem test_or : runs 0x00021309 ⟨0xFF00, 0x0F⟩ ⟨0x0FF0, 0xFF⟩ (fun t => t.readReg 3 == ⟨0xFFF0, 0xFF⟩) = true := by decide
theorem test_xor : runs 0x0002130A ⟨0xFF00, 0x0F⟩ ⟨0x0FF0, 0xFF⟩ (fun t => t.readReg 3 == ⟨0xF0F0, 0xF0⟩) = true := by decide
theorem test_not : runs 0x0000130B ⟨0xFF00, 0x0F⟩ Value.zero
    (fun t => t.readReg 3 == ⟨0xFFFFFFFFFFFF00FF, 0xFFFFFFFFFFFFFFF0⟩) = true := by decide

/-- The operand of the shift rows of 95_test_vectors.md section 5. -/
def shifted : Value := ⟨0x0123456789ABCDEF, 0x0FEDCBA987654321⟩

theorem test_shl_each_case :
    runs 0x0002130C shifted ⟨0, 0⟩ (fun t => t.readReg 3 == shifted) = true ∧
    runs 0x0002130C shifted ⟨0, 1⟩ (fun t => t.readReg 3 == ⟨0x02468ACF13579BDE, 0x1FDB97530ECA8642⟩) = true ∧
    runs 0x0002130C shifted ⟨0, 63⟩ (fun t => t.readReg 3 == ⟨0x87F6E5D4C3B2A190, 0x8000000000000000⟩) = true ∧
    runs 0x0002130C shifted ⟨0, 64⟩ (fun t => t.readReg 3 == ⟨0x0FEDCBA987654321, 0⟩) = true ∧
    runs 0x0002130C shifted ⟨0, 65⟩ (fun t => t.readReg 3 == ⟨0x1FDB97530ECA8642, 0⟩) = true ∧
    runs 0x0002130C shifted ⟨0, 127⟩ (fun t => t.readReg 3 == ⟨0x8000000000000000, 0⟩) = true := by decide
theorem test_shl_out_of_range :
    runs 0x0002130C shifted ⟨0, 128⟩ (fun t => t.readReg 3 == Value.zero) = true ∧
    runs 0x0002130C shifted ⟨0, 0xFFFFFFFFFFFFFFFF⟩ (fun t => t.readReg 3 == Value.zero) = true ∧
    runs 0x0002130C shifted ⟨1, 1⟩ (fun t => t.readReg 3 == Value.zero) = true := by decide
theorem test_shr_each_case :
    runs 0x0002130D shifted ⟨0, 0⟩ (fun t => t.readReg 3 == shifted) = true ∧
    runs 0x0002130D shifted ⟨0, 1⟩ (fun t => t.readReg 3 == ⟨0x0091A2B3C4D5E6F7, 0x87F6E5D4C3B2A190⟩) = true ∧
    runs 0x0002130D shifted ⟨0, 63⟩ (fun t => t.readReg 3 == ⟨0, 0x02468ACF13579BDE⟩) = true ∧
    runs 0x0002130D shifted ⟨0, 64⟩ (fun t => t.readReg 3 == ⟨0, 0x0123456789ABCDEF⟩) = true ∧
    runs 0x0002130D shifted ⟨0, 65⟩ (fun t => t.readReg 3 == ⟨0, 0x0091A2B3C4D5E6F7⟩) = true ∧
    runs 0x0002130D allOnes ⟨0, 127⟩ (fun t => t.readReg 3 == Value.one) = true := by decide
theorem test_shr_out_of_range :
    runs 0x0002130D allOnes ⟨0, 128⟩ (fun t => t.readReg 3 == Value.zero) = true ∧
    runs 0x0002130D allOnes ⟨1, 0⟩ (fun t => t.readReg 3 == Value.zero) = true := by decide
theorem test_divu_loop : runs 0x00021310 ⟨0x8000000000000000, 0⟩ ⟨0, 3⟩
    (fun t => t.readReg 3 == ⟨0x2AAAAAAAAAAAAAAA, 0xAAAAAAAAAAAAAAAA⟩) = true := by decide +kernel
theorem test_divu_by_zero : runs 0x00021310 ⟨0, 5⟩ Value.zero
    (fun t => t.readReg 3 == Value.zero && statusWord t == 0x22 && t.fcmd == 0x00021310) = true := by decide
theorem test_remu_loop : runs 0x00021311 shifted ⟨0, 0xFEDCBA9876543210⟩
    (fun t => t.readReg 3 == ⟨0, 0x8E2415748A7BDAF1⟩) = true := by decide +kernel
theorem test_remu_smaller_dividend : runs 0x00021311 ⟨0, 5⟩ ⟨0, 9⟩ (fun t => t.readReg 3 == ⟨0, 5⟩) = true := by decide
theorem test_divmod_both_results : runs 0x00421312 allOnes ⟨0, 10⟩
    (fun t => t.readReg 3 == ⟨0x1999999999999999, 0x9999999999999999⟩ && t.readReg 4 == ⟨0, 5⟩) = true := by decide +kernel
theorem test_divmod_aliased : runs 0x00221112 ⟨0, 100⟩ ⟨0, 7⟩
    (fun t => t.readReg 1 == ⟨0, 14⟩ && t.readReg 2 == ⟨0, 2⟩) = true := by decide
theorem test_cmp_each_order :
    runs 0x00021018 ⟨0, 5⟩ ⟨0, 5⟩ (fun t => flagsWord t == 1) = true ∧
    runs 0x00021018 ⟨0, 5⟩ ⟨1, 0⟩ (fun t => flagsWord t == 2) = true ∧
    runs 0x00021018 ⟨1, 5⟩ ⟨1, 7⟩ (fun t => flagsWord t == 2) = true ∧
    runs 0x00021018 allOnes Value.zero (fun t => flagsWord t == 4) = true := by decide
theorem test_tst_keeps_the_order_flags :
    ok (step ({ withOperands ⟨1, 0⟩ Value.zero with flags := ⟨false, true, false, false⟩ }.withFetchWord 32 0x00001019))
      (fun t => flagsWord t == 0xA) = true ∧
    runs 0x00001019 Value.zero Value.zero (fun t => flagsWord t == 0) = true := by decide
theorem test_bits_each_limb :
    runs 0x00001220 Value.zero Value.zero (fun t => t.readReg 2 == ⟨0, 0⟩) = true ∧
    runs 0x00001220 ⟨0, 0xFFFFFFFFFFFFFFFF⟩ Value.zero (fun t => t.readReg 2 == ⟨0, 64⟩) = true ∧
    runs 0x00001220 ⟨1, 0⟩ Value.zero (fun t => t.readReg 2 == ⟨0, 65⟩) = true ∧
    runs 0x00001220 ⟨0x8000000000000000, 0⟩ Value.zero (fun t => t.readReg 2 == ⟨0, 128⟩) = true := by decide
theorem test_strenc_zero_and_padding :
    renders 0 10 0 [0x30] = true ∧ renders 255 16 4 [0x30, 0x30, 0x66, 0x66] = true ∧
    renders 12345 7 0 [0x35, 0x30, 0x36, 0x36, 0x34] = true := by decide +kernel
theorem test_strenc_invalid_base :
    runs 0x00011021 Value.one Value.zero
      (fun t => statusWord t == 0x32 && t.fcmd == 0x00011021 && t.slen == 0 && t.cbuf == []) = true ∧
    runs 0x00111021 Value.one Value.zero
      (fun t => statusWord t == 0x32 && t.fcmd == 0x00111021 && t.slen == 0 && t.cbuf == []) = true := by decide
theorem test_strdec_whitespace_and_stops :
    parses 10 [0x09, 0x0A, 0x20, 0x34, 0x32] 42 = true ∧ parses 10 [0x31, 0x32, 0x61] 12 = true ∧
    parses 10 [0x31, 0x00, 0x39, 0x39] 1 = true ∧ parses 10 [0x31, 0x0B, 0x35] 1 = true ∧
    parses 8 [0x37, 0x37, 0x38] 63 = true ∧ parses 2 [0x31, 0x30, 0x31] 5 = true ∧
    parses 16 [0x30, 0x78, 0x31, 0x66] 0 = true ∧ parses 16 [0x46, 0x66] 255 = true ∧
    parses 3 [0x32, 0x35, 0x35] 0 = true ∧ parses 10 [] 0 = true := by decide +kernel
theorem test_strdec_hex_halves :
    parses 16 ([0x31, 0x32, 0x7A, 0x7A] ++ List.replicate 15 0x30 ++ [0x31]) (0x12 * 2 ^ 64 + 1) = true := by
  decide +kernel
theorem test_illegal_word : runs 0x10021301 Value.one Value.one
    (fun t => statusWord t == 0x12 && t.fcmd == 0x10021301 && t.readReg 3 == Value.zero) = true := by decide
theorem test_first_fault_is_kept :
    ok (step (faulted.withFetchWord 32 0x00111021))
      (fun t => statusWord t == 0x22 && t.fcmd == 0x00021310 && t.faultLog.length == 2) = true := by decide

/-! ## The host's accesses (95_test_vectors.md section 9, 20_memory.md) -/

theorem test_read_of_a_limb :
    ok (step { withOperands ⟨7, 9⟩ Value.zero with inputs := [.access (.read 0x118 8) false] })
      (fun t => t.responses == [⟨.read 0x118 8, .data 7⟩]) = true := by decide
theorem test_slen_saturates :
    ok (step (State.start [.access (.write 0x00C 4 1000) false])) (fun t => t.slen == 256) = true := by decide
theorem test_cbuf_little_endian :
    ok (step (State.start [.access (.write 0x404 4 0x64636261) false]))
      (fun t => t.cbuf == [(4, 0x61), (5, 0x62), (6, 0x63), (7, 0x64)]) = true := by decide
theorem test_status_clear :
    ok (step { faulted with inputs := [.access (.write 0x004 4 2) false] })
      (fun t => statusWord t == 0 && t.fcmd == 0 && t.faultLog.length == 1) = true := by decide
theorem test_reserved_offset :
    step (State.start [.access (.read 0x014 4) false]) = .fault (.hostBusError (.read 0x014 4) (.error 0)) := rfl
theorem test_wrong_width :
    step (State.start [.access (.read 0x100 4) false]) = .fault (.hostBusError (.read 0x100 4) (.error 0)) := rfl
theorem test_misaligned :
    step (State.start [.access (.read 0x401 2) false]) = .fault (.hostBusError (.read 0x401 2) (.error 0)) := rfl

/-! ## Assembler syntax (95_test_vectors.md sections 2 and 10) -/

theorem test_assemble : assemble "DIVMOD v3, v4, v1, v2".toList = some [0x00421312] := by decide +kernel
theorem test_disassemble : disassemble 0x80000230 = "LDI v2, -32768".toList := by decide +kernel
theorem test_illegal_text : disassemble 0x0000000F = ".word 0x0000000F".toList := by decide +kernel

/-! ## Witnesses: for each statement with hypotheses, a state and operands that meet them -/

/-- The core's turn, in each of its three forms. -/
theorem test_witness_core_turn (w : CmdWord) :
    CoreTurn (pending w [.idle, .idle]) [.idle] ∧ CoreTurn (pending w []) [] ∧
    CoreTurn (pending w [.access (.read 0x004 4) true]) [.access (.read 0x004 4) true] :=
  ⟨.inl rfl, .inr (.inl ⟨rfl, rfl⟩), .inr (.inr ⟨rfl, _, rfl⟩)⟩

theorem test_witness_ResetInputAbandonsThePendingCommand :
    (pending 0x00021301 [.reset true, .idle]).inputs = .reset true :: [.idle] ∧
    (pending 0x00021301 [.reset false]).inputs = .reset false :: [] ∧
    (pending 0x00021301 [.reset true]).pend = some 0x00021301 := by decide
theorem test_witness_DecodeOfEncodeIsTheCommand :
    (Instr.divmod 15 14 13 12).wellFormed = true ∧ (Instr.ldi 15 0xFFFF).wellFormed = true := by decide
theorem test_witness_EncodeOfDecodeIsTheWord : decode 0xFF10F021 = .ok (.strenc 15 16 255) := by decide
theorem test_witness_IllegalWordsRaiseIllegalCommand :
    Illegal 0x00000000 ∧ Illegal 0x10021301 ∧ Illegal 0x00331312 ∧ ¬ Illegal 0x00021301 ∧
    (pending 0x00331312 [.idle]).pend = some 0x00331312 ∧ CoreTurn (pending 0x00331312 [.idle]) [] := by
  refine ⟨?_, ?_, ?_, ?_, rfl, .inl rfl⟩ <;> unfold Illegal <;> decide
theorem test_witness_StepCompletesThePendingCommand :
    (pending 0x00021301 [.idle]).pend = some 0x00021301 ∧ CoreTurn (pending 0x00021301 [.idle]) [] ∧
    decode 0x00021301 = .ok (.add 3 1 2) ∧ (∃ t, exec (.add 3 1 2) (pending 0x00021301 []) = .next t) ∧
    CoreTurn (pending 0x00000005 [.access (.read 0x004 4) true]) [.access (.read 0x004 4) true] ∧
    CoreTurn (pending 0x00000005 []) [] ∧ decode 0x00000005 = .error .undefinedOpcode :=
  ⟨rfl, .inl rfl, by decide, ⟨_, rfl⟩, .inr (.inr ⟨rfl, _, rfl⟩), .inr (.inl ⟨rfl, rfl⟩), by decide⟩
theorem test_witness_WithFetchWordRunsTheWord :
    decode 0x00421312 = .ok (.divmod 3 4 1 2) ∧
    ∃ t, exec (.divmod 3 4 1 2) { withOperands ⟨0, 100⟩ ⟨0, 7⟩ with pend := some 0x00421312 } = .next t :=
  ⟨by decide, _, rfl⟩
theorem test_witness_EveryCommandAnswersANextState :
    (pending 0x00021301 []).pend = some 0x00021301 ∧ (pending 0x00021301 []).inputs = [] := by decide
theorem test_witness_ShiftLaws :
    128 ≤ (⟨0, 128⟩ : Value).toNat ∧ 128 ≤ (⟨1, 0⟩ : Value).toNat ∧ (⟨0, 127⟩ : Value).toNat < 128 := by decide
theorem test_witness_DivisionWritesFloorAndRemainder :
    ((withOperands allOnes Value.one).readReg 2).toNat ≠ 0 ∧ (3 : Reg) ≠ 4 := by decide
theorem test_witness_DivisionByZeroWritesNoDestination :
    ((withOperands allOnes Value.zero).readReg 2).toNat = 0 ∧ (3 : Reg) ≠ 4 := by decide
theorem test_witness_StrencRendersTheDigits :
    (2 ≤ (2 : BitVec 8).toNat ∧ (2 : BitVec 8).toNat ≤ 16) ∧ (2 ≤ (16 : BitVec 8).toNat ∧ (16 : BitVec 8).toNat ≤ 16) ∧
    (1 : BitVec 8).toNat < 2 ∧ 16 < (17 : BitVec 8).toNat := by decide
theorem test_witness_RenderedTextFitsTheBuffer : 2 ≤ (2 : BitVec 8).toNat ∧ (2 : BitVec 8).toNat ≤ 16 := by decide
theorem test_witness_StrdecOfStrencIsTheValue :
    (2 : BitVec 8).toNat ∈ [2, 8, 10, 16] ∧ (8 : BitVec 8).toNat ∈ [2, 8, 10, 16] ∧
    (10 : BitVec 8).toNat ∈ [2, 8, 10, 16] ∧ (16 : BitVec 8).toNat ∈ [2, 8, 10, 16] := by decide

/-- A fault case of each cause, of a command on zero registers. -/
theorem test_witness_FaultWritesOnlyItsRecord :
    FaultCase 0x00000000 (pending 0x00000000 [.idle]) .illegalCommand 1 ∧
    FaultCase 0x00021310 (pending 0x00021310 [.idle]) .divideByZero 2 ∧
    FaultCase 0x00021311 (pending 0x00021311 [.idle]) .divideByZero 2 ∧
    FaultCase 0x00421312 (pending 0x00421312 [.idle]) .divideByZero 2 ∧
    FaultCase 0x00011021 (pending 0x00011021 [.idle]) .invalidBase 3 ∧
    FaultCase 0x00111021 (pending 0x00111021 [.idle]) .invalidBase 3 ∧
    (pending 0x00111021 [.idle]).pend = some 0x00111021 ∧ CoreTurn (pending 0x00111021 [.idle]) [] :=
  ⟨.inl ⟨rfl, rfl, .undefinedOpcode, by decide⟩,
   .inr (.inl ⟨rfl, rfl, 3, 1, 2, .inl (by decide), by decide⟩),
   .inr (.inl ⟨rfl, rfl, 3, 1, 2, .inr (.inl (by decide)), by decide⟩),
   .inr (.inl ⟨rfl, rfl, 3, 1, 2, .inr (.inr ⟨4, by decide⟩), by decide⟩),
   .inr (.inr ⟨rfl, rfl, 1, 1, 0, by decide, by decide⟩),
   .inr (.inr ⟨rfl, rfl, 1, 17, 0, by decide, by decide⟩), rfl, .inl rfl⟩

theorem test_witness_CommandsFaultExactlyInTheListedCases :
    (∃ c code, FaultCase 0x00021310 (pending 0x00021310 [.idle]) c code) ∧
    (∀ c code, ¬ FaultCase 0x00021301 (pending 0x00021301 [.idle]) c code) ∧
    (pending 0x00021301 [.idle]).pend = some 0x00021301 ∧ CoreTurn (pending 0x00021301 [.idle]) [] := by
  refine ⟨⟨_, _, test_witness_FaultWritesOnlyItsRecord.2.1⟩, ?_, rfl, .inl rfl⟩
  intro c code h
  simp only [FaultCase, test_decode_add] at h
  simp at h
theorem test_witness_FaultRecordDoesNotChangeACommand :
    (∃ t, completeCommand 0x00021310 State.reset = .next t) ∧ (∃ t, completeCommand 0x00000000 faulted = .next t) ∧
    ∃ t, completeCommand 0x00021301 faulted = .next t := ⟨⟨_, rfl⟩, ⟨_, rfl⟩, _, rfl⟩
theorem test_witness_FaultLogIsNeverCleared :
    (∃ t, step { faulted with inputs := [.access (.write 0x004 4 2) false] } = .next t) ∧
    (∃ t, step { faulted with inputs := [.reset false] } = .next t) ∧
    (∃ t, step (pending 0x00021310 [.idle]) = .next t) ∧ CoreTurn (pending 0x00021310 [.idle]) [] ∧
    FaultCase 0x00021310 (pending 0x00021310 [.idle]) .divideByZero 2 :=
  ⟨⟨_, rfl⟩, ⟨_, rfl⟩, ⟨_, rfl⟩, .inl rfl, test_witness_FaultWritesOnlyItsRecord.2.1⟩
theorem test_witness_CommandsReadOnlyTheirOperands :
    (∀ r ∈ sources (.neg 3 1), (withOperands ⟨0, 3⟩ ⟨0, 4⟩).readReg r = (withOperands ⟨0, 3⟩ ⟨0, 5⟩).readReg r) ∧
    (∃ t, exec (.neg 3 1) (withOperands ⟨0, 3⟩ ⟨0, 4⟩) = .next t) ∧
    (∃ t, exec (.neg 3 1) (withOperands ⟨0, 3⟩ ⟨0, 5⟩) = .next t) ∧
    (withText [0x31]).slen = ((withText [0x31]).writeReg 1 Value.one).slen ∧
    (∀ k, (withText [0x31]).cbufByte k = ((withText [0x31]).writeReg 1 Value.one).cbufByte k) ∧
    (∃ t, exec (.strdec 3 10) (withText [0x31]) = .next t) ∧
    ∃ t, exec (.strdec 3 10) ((withText [0x31]).writeReg 1 Value.one) = .next t :=
  ⟨by decide, ⟨_, rfl⟩, ⟨_, rfl⟩, rfl, fun _ => rfl, ⟨_, rfl⟩, _, rfl⟩
theorem test_witness_CommandsWriteOnlyTheirDestinations :
    (∃ t, exec (.add 3 1 2) (withOperands allOnes Value.one) = .next t) ∧
    (∃ t, exec (.cmp 1 2) (withOperands allOnes Value.one) = .next t) ∧
    (∃ t, exec (.strenc 1 10 0) (withOperands Value.zero Value.one) = .next t) ∧
    (∃ t, exec (.divmod 3 4 1 2) (withOperands Value.one Value.zero) = .next t) ∧
    ¬ CommandFaults (.add 3 1 2) (withOperands allOnes Value.one) ∧ writesText (.strenc 1 10 0) ∧
    CommandFaults (.divmod 3 4 1 2) (withOperands Value.one Value.zero) ∧
    CommandFaults (.divmod 3 3 1 2) (withOperands Value.one Value.one) ∧
    CommandFaults (.strenc 1 1 0) State.reset ∧ CommandFaults (.strenc 1 17 0) State.reset :=
  ⟨⟨_, rfl⟩, ⟨_, rfl⟩, ⟨_, rfl⟩, ⟨_, rfl⟩, by simp [CommandFaults], ⟨_, _, _, rfl⟩,
    .inl ⟨3, 1, 2, .inr (.inr ⟨4, rfl⟩), by decide⟩, .inr (.inl ⟨3, 1, 2, rfl⟩),
    .inr (.inr ⟨1, 1, 0, rfl, by decide⟩), .inr (.inr ⟨1, 17, 0, rfl, by decide⟩)⟩

/-- A quiet state whose next event is an access. -/
theorem test_witness_quiet_access (a : Access) (late : Bool) (rest : List HostEvent) :
    Quiet (State.start (.access a late :: rest)) ∧ NextAccess (State.start (.access a late :: rest)) a late rest :=
  ⟨⟨rfl, rfl⟩, rfl⟩

theorem test_witness_BusErrorsAreTheAccessesOffTheMap :
    Accepted 0x010 4 ∧ ¬ Accepted 0x014 4 ∧ ¬ Accepted 0x000 8 ∧ Accepted 0x100 8 ∧ Accepted 0x1F8 8 ∧
    ¬ Accepted 0x1FC 8 ∧ ¬ Accepted 0x200 8 ∧ Accepted 0x400 1 ∧ Accepted 0x4FF 1 ∧ Accepted 0x4F8 8 ∧
    ¬ Accepted 0x4FF 2 ∧ ¬ Accepted 0x400 3 ∧ ¬ Accepted 0x500 1 := by
  simp [Accepted]
theorem test_witness_HostReadsAndWritesLimbs :
    NextAccess (State.start [.access (.read 0x100 8) false]) (.read 0x100 8) false [] ∧
    NextAccess (State.start [.access (.read 0x1F8 8) false]) (.read 0x1F8 8) false [] ∧
    NextAccess (State.start [.access (.write 0x1F0 8 5) false]) (.write 0x1F0 8 5) false [] ∧
    NextAccess (State.start [.access (.write 0x108 8 5) false]) (.write 0x108 8 5) false [] ∧
    BitVec.ofNat 12 (0x108 + 16 * (15 : Reg).val) = 0x1F8 ∧ BitVec.ofNat 12 (0x100 + 16 * (0 : Reg).val) = 0x100 :=
  ⟨rfl, rfl, rfl, rfl, rfl, rfl⟩
theorem test_witness_HostReadsControlRegisters :
    NextAccess (State.start [.access (.read 0x000 4) false]) (.read 0x000 4) false [] ∧
    NextAccess (State.start [.access (.read 0x004 4) true]) (.read 0x004 4) true [] ∧
    NextAccess (State.start [.access (.read 0x008 4) false]) (.read 0x008 4) false [] ∧
    NextAccess (State.start [.access (.read 0x00C 4) false]) (.read 0x00C 4) false [] ∧
    NextAccess (State.start [.access (.read 0x010 4) false]) (.read 0x010 4) false [] := ⟨rfl, rfl, rfl, rfl, rfl⟩
theorem test_witness_HostWritesControlRegisters :
    NextAccess (State.start [.access (.write 0x004 4 2) false])
      (.write 0x004 4 (BitVec.ofNat 64 (2 : CmdWord).toNat)) false [] ∧
    NextAccess (State.start [.access (.write 0x008 4 1) false])
      (.write 0x008 4 (BitVec.ofNat 64 (1 : CmdWord).toNat)) false [] ∧
    NextAccess (State.start [.access (.write 0x010 4 1) false])
      (.write 0x010 4 (BitVec.ofNat 64 (1 : CmdWord).toNat)) false [] ∧
    NextAccess (State.start [.access (.write 0x00C 4 257) false])
      (.write 0x00C 4 (BitVec.ofNat 64 (257 : CmdWord).toNat)) false [] := ⟨rfl, rfl, rfl, rfl⟩
theorem test_witness_HostReadsAndWritesTheBuffer :
    (8 ∈ [1, 2, 4, 8] ∧ 248 < 256 ∧ 248 % 8 = 0) ∧ (1 ∈ [1, 2, 4, 8] ∧ 255 < 256 ∧ 255 % 1 = 0) ∧
    NextAccess (State.start [.access (.read 0x4F8 8) false]) (.read (BitVec.ofNat 12 (0x400 + 248)) 8) false [] ∧
    NextAccess (State.start [.access (.write 0x4FF 1 9) false]) (.write (BitVec.ofNat 12 (0x400 + 255)) 1 9) false [] :=
  ⟨by decide, by decide, rfl, rfl⟩
theorem test_witness_CmdWriteFillsPend :
    Quiet (State.start [.access (.write 0x000 4 0x21301) false]) ∧
    NextAccess (State.start [.access (.write 0x000 4 0x21301) false])
      (.write 0x000 4 (BitVec.ofNat 64 (0x21301 : CmdWord).toNat)) false [] := ⟨⟨rfl, rfl⟩, rfl⟩

/-- A state whose port holds two accesses, with no event left. -/
def holding : State := { State.reset with held := [.read 0x008 4, .read 0x00C 4] }

theorem test_witness_AccessesAreHeldWhilePendIsFull :
    ((pending 0x21301 [.access (.read 0x008 4) false]).pend = some 0x21301 ∧
      NextAccess (pending 0x21301 [.access (.read 0x008 4) false]) (.read 0x008 4) false [] ∧
      Access.read 0x008 4 ≠ .read 0x004 4) ∧
    (pending 0x21301 [.idle]).pend = some 0x21301 ∧ (∃ t, step (pending 0x21301 [.idle]) = .next t) ∧
    (∀ keep rest, (pending 0x21301 [.idle]).inputs ≠ .reset keep :: rest) ∧
    holding.pend = none ∧ holding.held = .read 0x008 4 :: [.read 0x00C 4] ∧
    (∀ keep rest, holding.inputs ≠ .reset keep :: rest) ∧ ∀ rest, ¬ NextAccess holding (.read 0x004 4) true rest :=
  ⟨⟨rfl, rfl, by decide⟩, rfl, ⟨_, rfl⟩, by simp [pending, State.start], rfl, rfl, by simp [holding, State.reset],
    by simp [holding, State.reset, NextAccess]⟩
theorem test_witness_AccessesAreHeldWhilePendIsFull_refused :
    ({ State.reset with held := [.read 0x014 4] } : State).held = .read 0x014 4 :: [] ∧
    ¬ Accepted (offsetOf (.read 0x014 4)) (widthOf (.read 0x014 4)) := ⟨rfl, by simp [Accepted, offsetOf, widthOf]⟩
theorem test_witness_ReadsHaveNoSideEffect :
    (∃ t, performAccess (.read 0x008 4) faulted = .next t) ∧
    Quiet (State.start [.access (.read 0x008 4) false]) ∧
    (∃ t, step (State.start [.access (.read 0x008 4) false]) = .next t) ∧
    (holding.pend = none ∧ holding.held = .read 0x008 4 :: [.read 0x00C 4] ∧
      (∀ keep rest, holding.inputs ≠ .reset keep :: rest) ∧ (∀ rest, ¬ NextAccess holding (.read 0x004 4) true rest) ∧
      ∃ t, step holding = .next t) ∧
    (false = (pending 0x21301 [.access (.read 0x004 4) false]).pend.isNone ∧
      NextAccess (pending 0x21301 [.access (.read 0x004 4) false]) (.read 0x004 4) false [] ∧
      ∃ t, step (pending 0x21301 [.access (.read 0x004 4) false]) = .next t) ∧
    (true = ({ holding with inputs := [.access (.read 0x004 4) true] } : State).pend.isNone ∧
      NextAccess { holding with inputs := [.access (.read 0x004 4) true] } (.read 0x004 4) true [] ∧
      ∃ t, step { holding with inputs := [.access (.read 0x004 4) true] } = .next t) :=
  ⟨⟨_, rfl⟩, ⟨rfl, rfl⟩, ⟨_, rfl⟩, ⟨rfl, rfl, by simp [holding, State.reset], by simp [holding, State.reset, NextAccess],
    _, rfl⟩, ⟨rfl, rfl, _, rfl⟩, rfl, rfl, _, rfl⟩
theorem test_witness_StatusReadSeesBeforeOrAfter :
    (pending 0x21301 [.access (.read 0x004 4) false]).pend = some 0x21301 ∧
    NextAccess (pending 0x21301 [.access (.read 0x004 4) false]) (.read 0x004 4) false [] ∧
    NextAccess (pending 0x21301 [.access (.read 0x004 4) true]) (.read 0x004 4) true [] := ⟨rfl, rfl, rfl⟩

/-- Two accesses, one of them issuing a command, with an idle slot between. -/
def plainEvents : List HostEvent :=
  [.access (.write 0x000 4 0x00010130) false, .idle, .access (.read 0x110 8) false]

theorem test_witness_EveryTimingGivesTheSequentialResult :
    Quiet (State.start plainEvents) ∧ PlainEvents (State.start plainEvents).inputs ∧
    ∃ t, sequentialRun (accessesOf (State.start plainEvents).inputs)
      { State.start plainEvents with inputs := [] } = .next t := by
  refine ⟨⟨rfl, rfl⟩, ?_, _, rfl⟩
  intro e he
  simp only [State.start, plainEvents, List.mem_cons, List.not_mem_nil, or_false] at he
  obtain rfl | rfl | rfl := he
  · exact .inr ⟨_, _, rfl, by decide⟩
  · exact .inl rfl
  · exact .inr ⟨_, _, rfl, by decide⟩
theorem test_witness_PendingCommandCompletes :
    (pending 0x21301 [.access (.read 0x008 4) false]).pend = some 0x21301 ∧
    (pending 0x21301 [.access (.read 0x008 4) false, .reset true]).pend = some 0x21301 := ⟨rfl, rfl⟩
theorem test_host_status_read_carries_the_choice :
    hostEvents (.hr32 0x004 true) = [.access (.read 0x004 4) true] ∧
    hostEvents (.hr32 0x004 false) = [.access (.read 0x004 4) false] := ⟨rfl, rfl⟩
theorem test_witness_IdleCoreKeepsAllState :
    Quiet State.reset ∧ State.reset.inputs = [] ∧ Quiet (State.start [.idle]) ∧
    (State.start [.idle]).inputs = .idle :: [] := ⟨⟨rfl, rfl⟩, rfl, ⟨rfl, rfl⟩, rfl⟩

/-- A state that no run from the reset state of this file reaches in one step and that satisfies the invariant. -/
theorem test_witness_StepKeepsInv :
    faulted.Inv ∧ ∃ t, step (faulted.withFetchWord 32 0x00111021) = .next t :=
  ⟨⟨by decide, by decide, fun h => Bool.noConfusion h, fun _ => ⟨⟨.divideByZero, 0x00021310⟩, by decide, by decide⟩,
    by decide⟩, _, rfl⟩
theorem test_witness_PseudoInstructionsCompute :
    pseudoWellFormed (.inc 3 4) = true ∧ pseudoWellFormed (.decr 3 4) = true ∧ pseudoWellFormed (.swap 1 2 3) = true := by
  decide

end Sys2Proof.Machine.Tests
end

section
/-! PROOFS. What the registers and `CBUF` read when the fields they are read from hold their reset values (R32). -/

namespace Sys2Proof.Machine

theorem readReg_of_regs_zero {s : State} (h : s.regs = Vector.replicate 16 Value.zero) (i : Reg) :
    s.readReg i = Value.zero := by
  simp [State.readReg, h]

theorem flagsWord_of_flags_clear {s : State} (h : s.flags = ⟨false, false, false, false⟩) : flagsWord s = 0 := by
  simp [flagsWord, h, bitAt]

theorem statusWord_of_idle_unfaulted {s : State} (hpend : s.pend = none) (hfault : s.fault = false)
    (herr : s.err = 0) : statusWord s = 0 := by
  simp [statusWord, busy, hpend, hfault, herr, bitAt]

/-- A byte that nothing has written reads as the free draw of the last reset (log 2). -/
theorem cbufByte_of_cbuf_unwritten {s : State} (h : s.cbuf = []) (k : Nat) :
    s.cbufByte k = Config.cbufDraw s.draw k := by
  simp [State.cbufByte, h, Memory.get?]

/-- Settles O1: each register and byte of `CBUF` is read from the fields that `State.reset` lists. -/
theorem resetLeavesTheValuesOfTheTable : Obligations.ResetLeavesTheValuesOfTheTable := by
  have hreg (i : Reg) : State.reset.readReg i = Value.zero := readReg_of_regs_zero rfl i
  refine ⟨fun i => ?limbs, flagsWord_of_flags_clear rfl, statusWord_of_idle_unfaulted rfl rfl rfl, rfl, rfl, rfl,
    fun k _ => cbufByte_of_cbuf_unwritten rfl k⟩
  case limbs =>
    rw [hreg i]
    exact ⟨rfl, rfl⟩

end Sys2Proof.Machine
end

section
/-! PROOFS. The port's accesses (20_memory.md R42 to R54): which location accepts an access, what the access then does, and
that a step with nothing pending or held performs the access that the port accepts. -/

namespace Sys2Proof.Machine

open Claims

/-! The map of R42 by its regions: what `locate` answers in each. -/

theorem locate_isSome_of_control {off : Nat} (h : off < 0x100) (width : Nat) :
    (locate off width).isSome = true ↔ width = 4 ∧ off ∈ [0x000, 0x004, 0x008, 0x00C, 0x010] := by
  unfold locate
  rw [if_pos h]
  by_cases hw : width = 4
  · rw [if_pos hw]
    split <;> simp_all
  · simp [hw]

theorem locate_of_limb {off : Nat} (hlow : 0x100 ≤ off) (hhigh : off < 0x200) (width : Nat) :
    locate off width =
      if width = 8 ∧ off % 8 = 0 then
        some (if off % 16 = 0 then .limbLo (Fin.ofNat 16 ((off - 0x100) / 16))
          else .limbHi (Fin.ofNat 16 ((off - 0x100) / 16)))
      else none := by
  unfold locate
  rw [if_neg (by omega), if_pos hhigh, apply_ite some]

theorem locate_of_char {k : Nat} (hk : k < 256) (width : Nat) :
    locate (0x400 + k) width =
      if (width = 1 ∨ width = 2 ∨ width = 4 ∨ width = 8) ∧ k % width = 0 then some (.chars k) else none := by
  unfold locate
  rw [if_neg (by omega), if_neg (by omega), if_pos (by omega), Nat.add_sub_cancel_left]

theorem locate_of_reserved {off : Nat} (h : 0x200 ≤ off ∧ off < 0x400 ∨ 0x500 ≤ off) (width : Nat) :
    locate off width = none := by
  unfold locate
  rw [if_neg (by omega), if_neg (by omega), if_neg (by omega)]

/-- The window's base 0x400 is a multiple of every width, so the offset in `CBUF` is aligned as the offset is. -/
theorem char_aligned_iff {k width : Nat} (hw : width = 1 ∨ width = 2 ∨ width = 4 ∨ width = 8) :
    (0x400 + k) % width = 0 ↔ k % width = 0 := by
  obtain rfl | rfl | rfl | rfl := hw <;> omega

/-- R42, R53: the accesses that some location accepts are those of the map. -/
theorem locate_isSome_iff_accepted (off width : Nat) : (locate off width).isSome = true ↔ Accepted off width := by
  simp only [Accepted, List.mem_cons, List.not_mem_nil, or_false]
  rcases Nat.lt_or_ge off 0x100 with hctrl | hlow
  · rw [locate_isSome_of_control hctrl]
    simp only [List.mem_cons, List.not_mem_nil, or_false]
    omega
  rcases Nat.lt_or_ge off 0x200 with hlimb | hmid
  · rw [locate_of_limb hlow hlimb, Option.isSome_ite]
    omega
  by_cases hchar : 0x400 ≤ off ∧ off < 0x500
  · obtain ⟨k, rfl⟩ := Nat.exists_eq_add_of_le hchar.1
    rw [locate_of_char (by omega), Option.isSome_ite, ← and_congr_right char_aligned_iff]
    omega
  · rw [locate_of_reserved (by omega)]
    simp only [Option.isSome_none, Bool.false_eq_true, false_iff]
    omega

/-- An offset inside the window is its own number. -/
theorem offset_toNat {n : Nat} (h : n < 4096) : (BitVec.ofNat 12 n).toNat = n :=
  (BitVec.toNat_ofNat n 12).trans (Nat.mod_eq_of_lt h)

theorem limb_index (i : Reg) {low : Nat} (h : low < 16) : Fin.ofNat 16 ((0x100 + low + 16 * i.val - 0x100) / 16) = i := by
  apply Fin.ext
  rw [Fin.val_ofNat]
  omega

theorem locate_limbLo (i : Reg) : locate (BitVec.ofNat 12 (0x100 + 16 * i.val)).toNat 8 = some (.limbLo i) := by
  rw [offset_toNat (by omega), locate_of_limb (by omega) (by omega), if_pos (by omega), if_pos (by omega),
    limb_index i (low := 0) (by omega)]

theorem locate_limbHi (i : Reg) : locate (BitVec.ofNat 12 (0x108 + 16 * i.val)).toNat 8 = some (.limbHi i) := by
  rw [offset_toNat (by omega), locate_of_limb (by omega) (by omega), if_pos (by omega), if_neg (by omega),
    limb_index i (low := 8) (by omega)]

theorem locate_chars {k n : Nat} (hn : n ∈ [1, 2, 4, 8]) (hk : k < 256) (hal : k % n = 0) :
    locate (BitVec.ofNat 12 (0x400 + k)).toNat n = some (.chars k) := by
  rw [offset_toNat (by omega), locate_of_char hk, if_pos ⟨by simpa using hn, hal⟩]

/-! What the port does with an access. -/

theorem performAccess_read {off : BitVec 12} {width : Nat} {l : Location} (h : locate off.toNat width = some l)
    (s : State) :
    performAccess (.read off width) s = .next (s.respond (.read off width) (.data (readLocation s width l))) := by
  simp only [performAccess, h]

theorem performAccess_write {off : BitVec 12} {width : Nat} {l : Location} (h : locate off.toNat width = some l)
    (d : BitVec 64) (s : State) :
    performAccess (.write off width d) s =
      .next ((writeLocation s width d l).respond (.write off width d) .written) := by
  simp only [performAccess, h]

/-- R53: off the map an access is a fault of the host, whose answer is an error with data 0. -/
theorem performAccess_of_not_accepted {a : Access} (h : ¬ Accepted (offsetOf a) (widthOf a)) (s : State) :
    performAccess a s = .fault (.hostBusError a (.error 0)) := by
  rw [← locate_isSome_iff_accepted, Bool.not_eq_true, Option.isSome_eq_false_iff, Option.isNone_iff_eq_none] at h
  cases a with
  | read off width =>
    have hloc : locate off.toNat width = none := h
    simp only [performAccess, hloc, busErrorAnswer]
  | write off width d =>
    have hloc : locate off.toNat width = none := h
    simp only [performAccess, hloc, busErrorAnswer]

theorem performAccess_of_accepted {a : Access} (h : Accepted (offsetOf a) (widthOf a)) (s : State) :
    ∃ t, performAccess a s = .next t := by
  obtain ⟨l, hl⟩ := Option.isSome_iff_exists.mp ((locate_isSome_iff_accepted _ _).mpr h)
  cases a with
  | read off width => exact ⟨_, performAccess_read hl s⟩
  | write off width d => exact ⟨_, performAccess_write hl d s⟩

theorem step_of_quiet_access {s : State} {a : Access} {late : Bool} {rest : List HostEvent} (hq : Quiet s)
    (h : NextAccess s a late rest) : step s = performAccess a { s with inputs := rest } := by
  obtain ⟨hpend, hheld⟩ := hq
  have hin : s.inputs = .access a late :: rest := h
  simp only [step, nextStep, hin, portAccess, hpend, hheld]

/-- Settles O40: the map of R42 decides whether `locate` answers, and with it whether the access is performed. -/
theorem busErrorsAreTheAccessesOffTheMap : Obligations.BusErrorsAreTheAccessesOffTheMap :=
  fun s _ => ⟨fun h => performAccess_of_not_accepted h s, fun h => performAccess_of_accepted h s,
    fun _ _ => step_of_quiet_access⟩

/-! A read or a write that the port performs at once, by the location that accepts it. -/

theorem step_of_quiet_read {s : State} {off : BitVec 12} {width : Nat} {l : Location} {late : Bool}
    {rest : List HostEvent} (hq : Quiet s) (hl : locate off.toNat width = some l)
    (h : NextAccess s (.read off width) late rest) :
    step s = .next (answered s rest (.read off width) (.data (readLocation { s with inputs := rest } width l))) := by
  rw [step_of_quiet_access hq h, performAccess_read hl]
  rfl

theorem step_of_quiet_write {s : State} {off : BitVec 12} {width : Nat} {d : BitVec 64} {l : Location} {late : Bool}
    {rest : List HostEvent} (hq : Quiet s) (hl : locate off.toNat width = some l)
    (h : NextAccess s (.write off width d) late rest) :
    step s = .next ((writeLocation { s with inputs := rest } width d l).respond (.write off width d) .written) := by
  rw [step_of_quiet_access hq h, performAccess_write hl]

theorem writesOnly_writeReg (s : State) (rd : Reg) (v : Value) : WritesOnly s (s.writeReg rd v) rd v where
  result := readReg_writeReg_same s rd v
  others _ h := readReg_writeReg_other s v h.symm
  frame := ⟨rfl, cbufByte_writeReg s rd v⟩

/-- Settles O41: each of the 32 offsets locates its limb, and the write of a limb is a register write that puts the other
limb back. -/
theorem hostReadsAndWritesLimbs : Obligations.HostReadsAndWritesLimbs := by
  intro s i d late rest hq
  refine ⟨step_of_quiet_read hq (locate_limbLo i), step_of_quiet_read hq (locate_limbHi i), fun h => ?writeLo,
    fun h => ?writeHi⟩
  case writeLo => exact ⟨_, step_of_quiet_write hq (locate_limbLo i) h, writesOnly_writeReg _ i _⟩
  case writeHi => exact ⟨_, step_of_quiet_write hq (locate_limbHi i) h, writesOnly_writeReg _ i _⟩

end Sys2Proof.Machine
end

section
/-! PROOFS. `CBUF` as the host sees it (20_memory.md R43, R50, R52): several bytes as one little-endian number. -/

namespace Sys2Proof.Machine

open Claims

/-- R52: `MemRead` is the little-endian sum of the bytes. -/
theorem memRead_eq_sum (s : State) (k n : Nat) :
    s.memRead k n = ((List.range n).map (fun j => (s.cbufByte (k + j)).toNat * 2 ^ (8 * j))).sum := by
  induction n generalizing k with
  | zero => rfl
  | succ n ih =>
    have hshift (j : Nat) : (s.cbufByte (k + (j + 1))).toNat * 2 ^ (8 * (j + 1)) =
        256 * ((s.cbufByte (k + 1 + j)).toNat * 2 ^ (8 * j)) := by
      rw [show k + (j + 1) = k + 1 + j by omega, Nat.mul_add, Nat.pow_add]
      ring
    rw [State.memRead, ih, List.range_succ_eq_map, List.map_cons, List.map_map, List.sum_cons, ← List.sum_map_mul_left]
    simp only [Function.comp_def, Nat.succ_eq_add_one, hshift, Nat.add_zero, Nat.mul_zero, Nat.pow_zero, Nat.mul_one]

theorem memRead_lt (s : State) (k n : Nat) : s.memRead k n < 256 ^ n := by
  induction n generalizing k with
  | zero => exact Nat.one_pos
  | succ n ih =>
    have hbyte := (s.cbufByte k).isLt
    have hrest := ih (k + 1)
    rw [State.memRead, Nat.pow_succ]
    omega

/-- The bytes a read sees do not depend on what the host does next. -/
theorem memRead_inputs (s : State) (rest : List HostEvent) (k n : Nat) :
    ({ s with inputs := rest } : State).memRead k n = s.memRead k n := by
  rw [memRead_eq_sum, memRead_eq_sum]
  rfl

/-- R50: `MemWrite` changes `cbuf` alone. -/
theorem memWrite_frame (s : State) (k n v : Nat) : s.memWrite k n v = { s with cbuf := (s.memWrite k n v).cbuf } := by
  induction n generalizing s k v with
  | zero => rfl
  | succ n ih => exact ih (s.setCbufByte k _) (k + 1) (v / 256)

/-- R43: byte `j` of the data is its bits `8j+7:8j`. -/
theorem byte_of_data (d : BitVec 64) (j : Nat) : BitVec.ofNat 8 (d.toNat / 256 ^ j) = d.extractLsb' (8 * j) 8 := by
  apply BitVec.eq_of_toNat_eq
  rw [BitVec.toNat_ofNat, BitVec.extractLsb'_toNat, Nat.shiftRight_eq_div_pow, Nat.pow_mul]

/-- Settles O44: an aligned offset locates its characters; the bytes of a read sum to the data, which fits 64 bits, and a
write puts byte `j` of the data at offset `k + j`. -/
theorem hostReadsAndWritesTheBuffer : Obligations.HostReadsAndWritesTheBuffer := by
  intro s k n d late rest hq hn hk hal
  have hloc := locate_chars hn hk hal
  refine ⟨fun h => ⟨_, ?sum, step_of_quiet_read hq hloc h⟩, fun h => ⟨_, step_of_quiet_write hq hloc h, ?bytes, ?others,
    ?frame⟩⟩
  case sum =>
    have hwidth : n ≤ 8 := by
      simp only [List.mem_cons, List.not_mem_nil, or_false] at hn
      omega
    have hfits : s.memRead k n < 2 ^ 64 :=
      calc s.memRead k n < 256 ^ n := memRead_lt s k n
        _ ≤ 256 ^ 8 := Nat.pow_le_pow_right (by omega) hwidth
        _ = 2 ^ 64 := by norm_num
    rw [readLocation, memRead_inputs, BitVec.toNat_ofNat, Nat.mod_eq_of_lt hfits, memRead_eq_sum]
  case bytes =>
    intro j hj
    calc _ = (({ s with inputs := rest } : State).memWrite k n d.toNat).cbufByte (k + j) := rfl
      _ = BitVec.ofNat 8 (d.toNat / 256 ^ j) := by
        rw [cbufByte_memWrite, if_pos (by omega), Nat.add_sub_cancel_left]
      _ = d.extractLsb' (8 * j) 8 := byte_of_data d j
  case others =>
    intro x hx
    calc _ = (({ s with inputs := rest } : State).memWrite k n d.toNat).cbufByte x := rfl
      _ = s.cbufByte x := by
        rw [cbufByte_memWrite, if_neg (by omega)]
        rfl
  case frame =>
    exact congrArg (State.respond · _ .written) (memWrite_frame { s with inputs := rest } k n d.toNat)

end Sys2Proof.Machine
end

section
/-! PROOFS. The order of accesses around a pending command (20_memory.md R55): what is held stays held until the command is
completed, and the oldest held access comes next. -/

namespace Sys2Proof.Machine

open Claims

/-- Everything a command can do: write one register or, for `DIVMOD`, two; write `FLAGS`; write a text; raise a fault. -/
theorem exec_next {i : Instr} {s t : State} (h : exec i s = .next t) :
    (∃ rd v, t = s.writeReg rd v) ∨
    (∃ rd rd2 q r, t = (s.writeReg rd q).writeReg rd2 r) ∨
    (∃ f, t = { s with flags := f }) ∨
    (∃ text, t = placeText text s) ∨
    (∃ c w, t = raiseFault c w s) := by
  cases i with
  | add | sub | neg | mul | and | or | xor | not | shl | shr | bits | strdec | ldi | mov =>
    exact .inl ⟨_, _, (Host.Outcome.next.inj h).symm⟩
  | cmp | tst => exact .inr (.inr (.inl ⟨_, (Host.Outcome.next.inj h).symm⟩))
  | divu | remu =>
    simp only [exec, execDivu, execRemu] at h
    split at h
    · exact .inr (.inr (.inr (.inr ⟨_, _, (Host.Outcome.next.inj h).symm⟩)))
    · exact .inl ⟨_, _, (Host.Outcome.next.inj h).symm⟩
  | divmod =>
    simp only [exec, execDivmod] at h
    split at h
    · exact .inr (.inr (.inr (.inr ⟨_, _, (Host.Outcome.next.inj h).symm⟩)))
    · split at h
      · exact .inr (.inr (.inr (.inr ⟨_, _, (Host.Outcome.next.inj h).symm⟩)))
      · exact .inr (.inl ⟨_, _, _, _, (Host.Outcome.next.inj h).symm⟩)
  | strenc =>
    simp only [exec, execStrenc] at h
    split at h
    · exact .inr (.inr (.inr (.inl ⟨_, (Host.Outcome.next.inj h).symm⟩)))
    · exact .inr (.inr (.inr (.inr ⟨_, _, (Host.Outcome.next.inj h).symm⟩)))

/-! No command and no access changes what the port holds. -/

theorem exec_held {i : Instr} {s t : State} (h : exec i s = .next t) : t.held = s.held := by
  obtain ⟨rd, v, rfl⟩ | ⟨rd, rd2, q, r, rfl⟩ | ⟨f, rfl⟩ | ⟨text, rfl⟩ | ⟨c, w, rfl⟩ := exec_next h
  · exact writeReg_held s rd v
  · rw [writeReg_held, writeReg_held]
  · rfl
  · exact placeText_held text s
  · exact raiseFault_held c w s

theorem completeCommand_held {w : CmdWord} {s t : State} (h : completeCommand w s = .next t) : t.held = s.held := by
  obtain ⟨_, _, rfl⟩ | ⟨i, u, _, hexec, rfl⟩ := completeCommand_next h
  · rw [retire_held, raiseFault_held]
  · rw [retire_held, exec_held hexec]

@[simp] theorem writeLocation_held (s : State) (width : Nat) (d : BitVec 64) (l : Location) :
    (writeLocation s width d l).held = s.held := by
  cases l with
  | status =>
    rw [writeLocation]
    split <;> rfl
  | chars k => exact memWrite_held s k width d.toNat
  | cmd | flags | slen | fcmd | limbLo | limbHi => rfl

theorem performAccess_held {a : Access} {s t : State} (h : performAccess a s = .next t) : t.held = s.held := by
  obtain ⟨_, _, _, _, _, rfl⟩ | ⟨_, _, _, _, _, _, rfl⟩ := performAccess_next h
  · rw [respond_held]
  · rw [respond_held, writeLocation_held]

/-! What a step does with an access accepted while `PEND` is full, and with the oldest held access once it is empty. -/

theorem isStatusRead_iff (a : Access) : isStatusRead a = true ↔ a = .read 0x004 4 := by
  rw [isStatusRead, beq_iff_eq]

theorem step_of_pending_access {s : State} {w : CmdWord} {a : Access} {late : Bool} {rest : List HostEvent}
    (hp : s.pend = some w) (h : NextAccess s a late rest) (ha : a ≠ .read 0x004 4) :
    step s = .next { s with held := s.held ++ [a], inputs := rest } := by
  have hin : s.inputs = .access a late :: rest := h
  have hns : ¬ isStatusRead a = true := mt (isStatusRead_iff a).mp ha
  simp only [step, nextStep, hin, portAccess, hp]
  rw [if_neg hns]

theorem step_of_pending_early {s : State} {w : CmdWord} {rest : List HostEvent} (hp : s.pend = some w)
    (h : NextAccess s (.read 0x004 4) false rest) : step s = performAccess (.read 0x004 4) { s with inputs := rest } := by
  have hin : s.inputs = .access (.read 0x004 4) false :: rest := h
  simp only [step, nextStep, hin, portAccess, hp]
  rfl

/-- R55: a step with a command pending only adds to what the port holds. -/
theorem held_prefix_of_pending {s t : State} {w : CmdWord} (hp : s.pend = some w)
    (hreset : ∀ keep rest, s.inputs ≠ .reset keep :: rest) (h : step s = .next t) : s.held <+: t.held := by
  match hin : s.inputs with
  | [] =>
    rw [step_of_pending_no_event hp hin] at h
    rw [completeCommand_held h]
  | .idle :: rest =>
    rw [step_of_pending_idle hp hin] at h
    rw [completeCommand_held h]
  | .reset keep :: rest => exact absurd hin (hreset keep rest)
  | .access a late :: rest =>
    by_cases ha : a = .read 0x004 4
    · subst ha
      cases late with
      | true =>
        rw [step_of_pending_late hp hin] at h
        rw [completeCommand_held h]
      | false =>
        rw [step_of_pending_early hp hin] at h
        rw [performAccess_held h]
    · rw [step_of_pending_access hp hin ha] at h
      obtain rfl := Host.Outcome.next.inj h
      exact List.prefix_append s.held [a]

theorem step_of_held {s : State} {h : Access} {hs : List Access} (hp : s.pend = none) (hh : s.held = h :: hs)
    (hreset : ∀ keep rest, s.inputs ≠ .reset keep :: rest)
    (hlate : ∀ rest, ¬ NextAccess s (.read 0x004 4) true rest) : step s = performAccess h { s with held := hs } := by
  match hin : s.inputs with
  | [] => simp only [step, nextStep, hin, ownWork, hp, hh]
  | .idle :: rest => simp only [step, nextStep, hin, ownWork, hp, hh]
  | .reset keep :: rest => exact absurd hin (hreset keep rest)
  | .access a late :: rest =>
    have hwaits : ¬ (isStatusRead a && late) = true := by
      rw [Bool.and_eq_true, isStatusRead_iff]
      rintro ⟨rfl, rfl⟩
      exact hlate rest hin
    simp only [step, nextStep, hin, portAccess, hp, hh]
    rw [if_neg hwaits]

/-- Settles O47: while `PEND` is full a step holds an access, reads `STATUS` or completes the command, none of which takes
from what is held; once it is empty the step performs the oldest held access, which R53 may refuse. -/
theorem accessesAreHeldWhilePendIsFull : Obligations.AccessesAreHeldWhilePendIsFull := by
  refine ⟨fun _ _ _ _ _ => step_of_pending_access, fun _ _ _ => held_prefix_of_pending, ?oldest⟩
  intro s h hs hp hh hreset hlate
  have hstep := step_of_held hp hh hreset hlate
  exact ⟨hstep, fun hoff => hstep.trans (performAccess_of_not_accepted hoff _)⟩

end Sys2Proof.Machine
end

section
/-! PROOFS. Which command words are legal (30_encoding.md R75): the decoder's rows against the opcode table, its ranges of
"must be zero" bits against the masks, and the one row with a further condition. -/

namespace Sys2Proof.Machine

open Claims

/-! The decoder by its three checks. -/

theorem decode_eq_ok_iff {w : CmdWord} {i : Instr} :
    decode w = .ok i ↔
      selectRow (fieldOPC w) w = some i ∧ mustBeZeroHolds i.format w = true ∧ i.wellFormed = true := by
  unfold decode
  split
  · next hnone => simp [hnone]
  · next j hrow =>
    rw [hrow, Option.some.injEq]
    split
    · next hzero =>
      split
      · next hwf => exact ⟨fun h => by cases h; exact ⟨rfl, hzero, hwf⟩, fun ⟨h, _⟩ => h ▸ rfl⟩
      · next hwf => exact ⟨nofun, fun ⟨h, _, hi⟩ => absurd (h ▸ hi) hwf⟩
    · next hzero => exact ⟨nofun, fun ⟨h, hi, _⟩ => absurd (h ▸ hi) hzero⟩

/-! R75(a): the rows of the decoder are those of the table. -/

theorem fieldOPC_eq_mod (w : CmdWord) : fieldOPC w = w.toNat % 256 := by
  simp [fieldOPC, field]

theorem opcode_of_selectRow {opc : Nat} {w : CmdWord} {i : Instr} (h : selectRow opc w = some i) : i.opcode = opc := by
  unfold selectRow at h
  split at h <;> cases h <;> rfl

theorem opcode_format_mem (i : Instr) : (i.opcode, i.format) ∈ opcodeFormats := by
  cases i <;> simp [Instr.opcode, Instr.format, opcodeFormats]

theorem selectRow_of_mem_opcodeFormats {p : Nat × Format} (h : p ∈ opcodeFormats) (w : CmdWord) :
    ∃ i, selectRow p.1 w = some i ∧ i.format = p.2 := by
  have hrows : ∀ p ∈ opcodeFormats, (selectRow p.1 w).map Instr.format = some p.2 := by
    simp [opcodeFormats, selectRow, Instr.format]
  exact Option.map_eq_some_iff.mp (hrows p h)

/-! R75(b): the ranges of R72 and the masks of R76 mark the same bits. -/

theorem field_eq_zero_iff (w : CmdWord) {hi lo : Nat} (h : lo ≤ hi) :
    field w hi lo = 0 ↔ ∀ k, lo ≤ k ∧ k ≤ hi → w.getLsbD k = false := by
  have hfield : field w hi lo = (w.extractLsb' lo (hi - lo + 1)).toNat := by
    rw [field, BitVec.extractLsb'_toNat, Nat.shiftRight_eq_div_pow]
  rw [hfield, ← BitVec.toNat_zero (w := hi - lo + 1), BitVec.toNat_inj, BitVec.eq_of_getLsbD_eq_iff]
  simp only [BitVec.getLsbD_extractLsb', BitVec.getLsbD_zero, Bool.and_eq_false_imp, decide_eq_true_eq]
  constructor
  · rintro hbits k ⟨hlo, hhi⟩
    have hk := hbits (k - lo) (by omega) (by omega)
    rwa [Nat.add_sub_cancel' hlo] at hk
  · intro hbits j hj _
    exact hbits (lo + j) (by omega)

theorem bitVec_and_eq_zero_iff {n : Nat} (w m : BitVec n) :
    w &&& m = 0 ↔ ∀ k < n, m.getLsbD k = true → w.getLsbD k = false := by
  rw [BitVec.eq_of_getLsbD_eq_iff]
  refine forall₂_congr fun k _ => ?_
  change (w &&& m).getLsbD k = BitVec.getLsbD 0#n k ↔ _
  rw [BitVec.getLsbD_and, BitVec.getLsbD_zero, Bool.and_comm, Bool.and_eq_false_imp]

theorem mustBeZero_range (f : Format) : ∀ r ∈ mustBeZero f, r.2 ≤ r.1 ∧ r.1 < 32 := by
  cases f <;> decide

theorem mustBeZeroMask_getLsbD (f : Format) :
    ∀ k < 32, (mustBeZeroMask f).getLsbD k = true ↔ ∃ r ∈ mustBeZero f, r.2 ≤ k ∧ k ≤ r.1 := by
  cases f <;> decide

/-- R76: `cmd & MUST_BE_ZERO_MASK[fmt] == 0` is the decoder's check of the ranges of R72. -/
theorem mustBeZeroHolds_iff_mask (f : Format) (w : CmdWord) :
    mustBeZeroHolds f w = true ↔ w &&& mustBeZeroMask f = 0 := by
  have hranges : mustBeZeroHolds f w = true ↔
      ∀ r ∈ mustBeZero f, ∀ k, r.2 ≤ k ∧ k ≤ r.1 → w.getLsbD k = false := by
    rw [mustBeZeroHolds, List.all_eq_true]
    refine forall₂_congr fun r hr => ?_
    rw [beq_iff_eq, field_eq_zero_iff w (mustBeZero_range f r hr).1]
  rw [hranges, bitVec_and_eq_zero_iff]
  constructor
  · intro h k hk hm
    obtain ⟨r, hr, hkr⟩ := (mustBeZeroMask_getLsbD f k hk).mp hm
    exact h r hr k hkr
  · intro h r hr k hkr
    have hk : k < 32 := lt_of_le_of_lt hkr.2 (mustBeZero_range f r hr).2
    exact h k hk ((mustBeZeroMask_getLsbD f k hk).mpr ⟨r, hr, hkr⟩)

/-! R75(c): `DIVMOD` is the one row that can be ill formed. -/

theorem fieldRD_eq_fieldRD2_iff (w : CmdWord) :
    fieldRD w = fieldRD2 w ↔ w.toNat / 2 ^ 8 % 16 = w.toNat / 2 ^ 20 % 16 := by
  simp [fieldRD, fieldRD2, field, Fin.ext_iff]

theorem wellFormed_of_opcode_ne {i : Instr} (h : i.opcode ≠ 0x12) : i.wellFormed = true := by
  cases i with
  | divmod => exact absurd rfl h
  | _ => rfl

theorem wellFormed_iff_of_selectRow {opc : Nat} {w : CmdWord} {i : Instr} (h : selectRow opc w = some i) :
    i.wellFormed = true ↔ ¬ (opc = 0x12 ∧ w.toNat / 2 ^ 8 % 16 = w.toNat / 2 ^ 20 % 16) := by
  rw [← fieldRD_eq_fieldRD2_iff]
  by_cases hopc : opc = 0x12
  · subst hopc
    obtain rfl := Option.some.inj h
    simp [Instr.wellFormed]
  · have hwf : i.wellFormed = true := wellFormed_of_opcode_ne (opcode_of_selectRow h ▸ hopc)
    simp [hopc, hwf]

/-! The three cases of R75 together. -/

theorem illegal_of_no_row {w : CmdWord} (hrow : selectRow (fieldOPC w) w = none) : Illegal w := by
  refine .inl fun p hp hopc => ?_
  obtain ⟨i, hi, _⟩ := selectRow_of_mem_opcodeFormats hp w
  rw [hopc, ← fieldOPC_eq_mod, hrow] at hi
  cases hi

/-- The table has one format for each opcode, so a word with a row is illegal by that row alone. -/
theorem illegal_iff_of_selectRow {w : CmdWord} {i : Instr} (hrow : selectRow (fieldOPC w) w = some i) :
    Illegal w ↔ ¬ (mustBeZeroHolds i.format w = true ∧ i.wellFormed = true) := by
  have hmem : (w.toNat % 256, i.format) ∈ opcodeFormats := by
    rw [← fieldOPC_eq_mod, ← opcode_of_selectRow hrow]
    exact opcode_format_mem i
  rw [mustBeZeroHolds_iff_mask, wellFormed_iff_of_selectRow hrow, fieldOPC_eq_mod, not_and_or, not_not]
  constructor
  · rintro (hundefined | ⟨p, hp, hopc, hmask⟩ | hsame)
    · exact absurd rfl (hundefined _ hmem)
    · obtain ⟨j, hj, hformat⟩ := selectRow_of_mem_opcodeFormats hp w
      rw [hopc, ← fieldOPC_eq_mod, hrow] at hj
      obtain rfl := Option.some.inj hj
      exact .inl (hformat ▸ hmask)
    · exact .inr hsame
  · rintro (hmask | hsame)
    · exact .inr (.inl ⟨_, hmem, rfl, hmask⟩)
    · exact .inr (.inr hsame)

theorem not_illegal_iff_decodes (w : CmdWord) : ¬ Illegal w ↔ ∃ i, decode w = .ok i := by
  simp only [decode_eq_ok_iff]
  cases hrow : selectRow (fieldOPC w) w with
  | none => exact iff_of_false (not_not_intro (illegal_of_no_row hrow)) nofun
  | some i => simp [illegal_iff_of_selectRow hrow]

theorem decode_error_of_illegal {w : CmdWord} (h : Illegal w) : ∃ e, decode w = .error e := by
  cases hd : decode w with
  | error e => exact ⟨e, rfl⟩
  | ok i => exact absurd h ((not_illegal_iff_decodes w).mpr ⟨i, hd⟩)

/-! What the core does with an illegal word (R76, R211). -/

/-- In each of its three forms the core's turn completes the pending command. -/
theorem step_of_coreTurn {s : State} {w : CmdWord} {rest : List HostEvent} (hp : s.pend = some w)
    (h : CoreTurn s rest) : step s = completeCommand w { s with inputs := rest } := by
  obtain hidle | ⟨hnone, rfl⟩ | ⟨rfl, later, hlate⟩ := h
  · exact step_of_pending_idle hp hidle
  · rw [step_of_pending_no_event hp hnone, ← hnone]
  · exact step_of_pending_late hp hlate

theorem completeCommand_of_error {w : CmdWord} {e : DecodeError} (h : decode w = .error e) (s : State) :
    completeCommand w s = .next (retire (raiseFault .illegalCommand w s)) := by
  rw [completeCommand, h]

@[simp] theorem cbufByte_retire (s : State) (k : Nat) : (retire s).cbufByte k = s.cbufByte k := rfl

@[simp] theorem cbufByte_raiseFault (c : Cause) (w : CmdWord) (s : State) (k : Nat) :
    (raiseFault c w s).cbufByte k = s.cbufByte k :=
  cbufByte_congr (raiseFault_cbuf c w s) (raiseFault_draw c w s) k

/-- Settles O7: a word has a row or none, and a row's two checks are R75(b) and (c); an illegal word is completed by
raising its fault, which touches the fault record and the log alone. -/
theorem illegalWordsRaiseIllegalCommand : Obligations.IllegalWordsRaiseIllegalCommand := by
  refine fun w => ⟨not_illegal_iff_decodes w, fun s rest hill hp hturn => ?_⟩
  obtain ⟨e, he⟩ := decode_error_of_illegal hill
  refine ⟨_, (step_of_coreTurn hp hturn).trans (completeCommand_of_error he _), ?logged, fun hfirst => ?recorded, ?regs,
    ?flags, ?slen, fun k => ?bytes⟩
  case logged => rw [retire_faultLog, raiseFault_faultLog]
  case recorded => simp [hfirst, Cause.code]
  case regs => rw [retire_regs, raiseFault_regs]
  case flags => rw [retire_flags, raiseFault_flags]
  case slen => rw [retire_slen, raiseFault_slen]
  case bytes =>
    rw [cbufByte_retire, cbufByte_raiseFault]
    rfl

end Sys2Proof.Machine
end

section
/-! PROOFS. Load and move (40_move.md R100, R101), and that the sum of a command's fields (R79) is a word the decoder
reads the command from. -/

namespace Sys2Proof.Machine

open Claims

/-! The encoding of a well-formed command (R71, R79). -/

/-- `EncodeFields.Statement` of every command: `PerInstr` has one lemma for each. -/
theorem encodeFields (i : Instr) : Laws.EncodeFields.Statement i := by
  cases i with
  | add rd rs1 rs2 => exact Laws.EncodeFields.add rd rs1 rs2
  | sub rd rs1 rs2 => exact Laws.EncodeFields.sub rd rs1 rs2
  | neg rd rs1 => exact Laws.EncodeFields.neg rd rs1
  | mul rd rs1 rs2 => exact Laws.EncodeFields.mul rd rs1 rs2
  | and rd rs1 rs2 => exact Laws.EncodeFields.and rd rs1 rs2
  | or rd rs1 rs2 => exact Laws.EncodeFields.or rd rs1 rs2
  | xor rd rs1 rs2 => exact Laws.EncodeFields.xor rd rs1 rs2
  | not rd rs1 => exact Laws.EncodeFields.not rd rs1
  | shl rd rs1 rs2 => exact Laws.EncodeFields.shl rd rs1 rs2
  | shr rd rs1 rs2 => exact Laws.EncodeFields.shr rd rs1 rs2
  | divu rd rs1 rs2 => exact Laws.EncodeFields.divu rd rs1 rs2
  | remu rd rs1 rs2 => exact Laws.EncodeFields.remu rd rs1 rs2
  | divmod rd rd2 rs1 rs2 => exact Laws.EncodeFields.divmod rd rd2 rs1 rs2
  | cmp rs1 rs2 => exact Laws.EncodeFields.cmp rs1 rs2
  | tst rs1 => exact Laws.EncodeFields.tst rs1
  | bits rd rs1 => exact Laws.EncodeFields.bits rd rs1
  | strenc rs1 base minlen => exact Laws.EncodeFields.strenc rs1 base minlen
  | strdec rd base => exact Laws.EncodeFields.strdec rd base
  | ldi rd imm => exact Laws.EncodeFields.ldi rd imm
  | mov rd rs1 => exact Laws.EncodeFields.mov rd rs1

/-- The encoding passes the decoder's three checks: its opcode's row gives the command back, its "must be zero" bits are 0,
and the command is well formed. -/
theorem decode_encode {i : Instr} (hwf : i.wellFormed = true) : decode (encode i) = .ok i := by
  obtain ⟨hopc, hzero, hrow⟩ := encodeFields i
  exact decode_eq_ok_iff.mpr ⟨hopc ▸ hrow, hzero, hwf⟩

theorem encodedAs_of_wellFormed {i : Instr} {word : Nat} (hwf : i.wellFormed = true)
    (hword : i.opcode + i.operandFields = word) : EncodedAs i word := by
  subst hword
  exact ⟨Laws.EncodeFields.encode_toNat i ▸ (encode i).isLt, decode_encode hwf⟩

/-! The immediate of `LDI` (R100). -/

/-- The two limbs together are the immediate sign-extended to 128 bits: a negative one adds 2^128 - 2^16, of which the
lower limb takes 2^64 - 2^16 and the upper limb the rest. -/
theorem immOperand_toNat (imm : BitVec 16) : (immOperand imm).toNat = (imm.signExtend 128).toNat := by
  have hlt : imm.toNat < 2 ^ 16 := imm.isLt
  simp only [immOperand, Value.toNat, BitVec.toNat_signExtend, BitVec.toNat_setWidth]
  cases imm.msb with
  | false =>
    simp only [Bool.false_eq_true, ↓reduceIte, BitVec.ofNat_eq_ofNat, BitVec.toNat_ofNat]
    omega
  | true =>
    simp only [↓reduceIte, BitVec.toNat_allOnes]
    omega

theorem immOperand_hi (imm : BitVec 16) :
    (immOperand imm).hi = if 0 ≤ imm.toInt then 0 else BitVec.allOnes 64 := by
  simp only [immOperand, BitVec.msb_eq_toInt, decide_eq_true_eq, ← not_le, ite_not]

/-- A command that answers with a register write writes that register only. -/
theorem writes_of_exec_eq {i : Instr} {s : State} {rd : Reg} {v : Value} (h : exec i s = .next (s.writeReg rd v)) :
    Writes i s rd v :=
  ⟨_, h, writesOnly_writeReg s rd v⟩

/-- Settles O11: `LDI` is the register write of the immediate operand, whose limbs and number are those of the
sign-extension. -/
theorem ldiWritesTheSignExtendedImmediate : Obligations.LdiWritesTheSignExtendedImmediate := fun rd imm _ =>
  ⟨encodedAs_of_wellFormed rfl (Nat.add_assoc 0x30 (rd.val * 2 ^ 8) (imm.toNat * 2 ^ 16)).symm,
    immOperand imm, immOperand_toNat imm, rfl, immOperand_hi imm, writes_of_exec_eq rfl⟩

/-- Settles O12: `MOV` is the register write of the source register's value. -/
theorem movCopiesBothLimbs : Obligations.MovCopiesBothLimbs := fun _ _ _ =>
  ⟨encodedAs_of_wellFormed rfl (by simp [Instr.opcode, Instr.operandFields, regFields]), writes_of_exec_eq rfl⟩

end Sys2Proof.Machine
end

section
/-! PROOFS. The adder, the subtracter, negation and the multiplier (41_arith.md R110 to R113): each command is the write of
its unit's value, and the multiplier's digits, accumulators and carries give the product modulo 2^128. -/

namespace Sys2Proof.Machine

open Claims

/-! Addition, subtraction and negation, limb by limb (R110 to R112). -/

/-- Settles O13: `ADD` is the register write of the adder's value, whose carry compares the lower limbs as numbers. -/
theorem addPropagatesTheCarry : Obligations.AddPropagatesTheCarry := fun _ _ _ _ =>
  ⟨encodedAs_of_wellFormed rfl rfl, writes_of_exec_eq rfl⟩

/-- Settles O14: `SUB` is the register write of the subtracter's value, whose borrow compares the lower limbs as numbers. -/
theorem subPropagatesTheBorrow : Obligations.SubPropagatesTheBorrow := fun _ _ _ _ =>
  ⟨encodedAs_of_wellFormed rfl rfl, writes_of_exec_eq rfl⟩

/-- Adding one carries out of a limb exactly when the limb is all ones. -/
theorem limb_add_one_lt_iff (x : Limb) : x + 1 < x ↔ x = BitVec.allOnes 64 := by
  have hx := x.isLt
  simp only [BitVec.lt_def, BitVec.toNat_add, ← BitVec.toNat_inj, BitVec.toNat_allOnes,
    BitVec.ofNat_eq_ofNat, BitVec.toNat_ofNat]
  omega

theorem valueNeg_eq (a : Value) :
    valueNeg a = ⟨~~~a.hi + (if ~~~a.lo = BitVec.allOnes 64 then 1 else 0), ~~~a.lo + 1⟩ := by
  simp only [valueNeg, valueAdd, Value.one, limb_add_one_lt_iff, add_zero]

/-- Settles O15: `NEG` is the register write of the complement plus one, which carries out of the lower limb exactly when the
complemented lower limb is all ones. -/
theorem negComplementsAndAddsOne : Obligations.NegComplementsAndAddsOne := fun rd rs1 s =>
  ⟨encodedAs_of_wellFormed rfl (by simp [Instr.opcode, Instr.operandFields, regFields]),
    writes_of_exec_eq (valueNeg_eq (s.readReg rs1) ▸ rfl)⟩

/-! Multiplication on 32-bit digits (R113). -/

theorem lowHalf_lt (p : Limb) : (lowHalf p).toNat < 2 ^ 32 := by
  rw [lowHalf_toNat]
  exact Nat.mod_lt _ (by decide)

theorem highHalf_lt (p : Limb) : (highHalf p).toNat < 2 ^ 32 := by
  rw [highHalf_toNat]
  exact Nat.div_lt_of_lt_mul p.isLt

theorem digit_lt (a : Value) {i : Nat} (hi : i < 4) : (digit a i).toNat < 2 ^ 32 := by
  rw [digit_toNat a i hi]
  exact Nat.mod_lt _ (by decide)

/-- A value is the sum of its digits at their weights. -/
theorem value_toNat_eq_digits (a : Value) :
    a.toNat = (digit a 0).toNat + (digit a 1).toNat * 2 ^ 32 + (digit a 2).toNat * 2 ^ 64 + (digit a 3).toNat * 2 ^ 96 := by
  have ha := value_toNat_lt a
  rw [digit_toNat a 0 (by decide), digit_toNat a 1 (by decide), digit_toNat a 2 (by decide), digit_toNat a 3 (by decide)]
  omega

/-- The product of two digits fits its 64-bit word. -/
theorem digit_mul_toNat (a b : Value) {i j : Nat} (hi : i < 4) (hj : j < 4) :
    (digit a i * digit b j).toNat = (digit a i).toNat * (digit b j).toNat :=
  BitVec.toNat_mul_of_lt (calc
    (digit a i).toNat * (digit b j).toNat < 2 ^ 32 * 2 ^ 32 := Nat.mul_lt_mul'' (digit_lt a hi) (digit_lt b hj)
    _ = 2 ^ 64 := by decide)

/-- Two 32-bit digits put into one limb. -/
theorem joinHalves_toNat (h l : Limb) :
    ((lowHalf h <<< 32) ||| lowHalf l).toNat = (lowHalf h).toNat * 2 ^ 32 + (lowHalf l).toNat := by
  have hh := lowHalf_lt h
  rw [BitVec.toNat_or, BitVec.toNat_shiftLeft, Nat.shiftLeft_eq, Nat.mod_eq_of_lt (by omega), ← Nat.shiftLeft_eq,
    ← Nat.shiftLeft_add_eq_or_of_lt (lowHalf_lt l)]

/-- R113, the last lines: the carries of the four accumulators are propagated, and their low halves are the digits of the
result. -/
def propagateCarries (acc0 acc1 acc2 acc3 : Limb) : Value :=
  let acc1 := acc1 + highHalf acc0
  let acc2 := acc2 + highHalf acc1
  let acc3 := acc3 + highHalf acc2
  ⟨(lowHalf acc3 <<< 32) ||| lowHalf acc2, (lowHalf acc1 <<< 32) ||| lowHalf acc0⟩

/-- Accumulators that leave room for a carry stand for their weighted sum, modulo 2^128. -/
theorem propagateCarries_toNat {acc0 acc1 acc2 acc3 : Limb} (h1 : acc1.toNat < 2 ^ 63) (h2 : acc2.toNat < 2 ^ 63)
    (h3 : acc3.toNat < 2 ^ 63) :
    (propagateCarries acc0 acc1 acc2 acc3).toNat =
      (acc0.toNat + acc1.toNat * 2 ^ 32 + acc2.toNat * 2 ^ 64 + acc3.toNat * 2 ^ 96) % 2 ^ 128 := by
  have hadd {x : Limb} (hx : x.toNat < 2 ^ 63) (y : Limb) : (x + highHalf y).toNat = x.toNat + (highHalf y).toNat := by
    have hy := highHalf_lt y
    exact BitVec.toNat_add_of_lt (by omega)
  simp only [propagateCarries, Value.toNat, joinHalves_toNat, lowHalf_toNat, hadd h1, hadd h2, hadd h3, highHalf_toNat]
  omega

/-- R113, the first lines: the halves of the partial products `p i j` with `i + j <= 3`, summed into the accumulators. -/
def sumProducts (p : Nat → Nat → Limb) : Value :=
  propagateCarries (lowHalf (p 0 0))
    (highHalf (p 0 0) + lowHalf (p 0 1) + lowHalf (p 1 0))
    (highHalf (p 0 1) + highHalf (p 1 0) + lowHalf (p 0 2) + lowHalf (p 1 1) + lowHalf (p 2 0))
    (highHalf (p 0 2) + highHalf (p 1 1) + highHalf (p 2 0) + lowHalf (p 0 3) + lowHalf (p 1 2) + lowHalf (p 2 1)
      + lowHalf (p 3 0))

theorem valueMul_eq_sumProducts (a b : Value) : valueMul a b = sumProducts fun i j => digit a i * digit b j := rfl

/-- An accumulator has at most seven halves, each below 2^32, so no sum wraps; the two halves of a product stand in
accumulators whose weights differ by 2^32, except where its upper half reaches 2^128. -/
theorem sumProducts_toNat (p : Nat → Nat → Limb) :
    (sumProducts p).toNat =
      ((p 0 0).toNat + ((p 0 1).toNat + (p 1 0).toNat) * 2 ^ 32
        + ((p 0 2).toNat + (p 1 1).toNat + (p 2 0).toNat) * 2 ^ 64
        + ((p 0 3).toNat + (p 1 2).toNat + (p 2 1).toNat + (p 3 0).toNat) * 2 ^ 96) % 2 ^ 128 := by
  have h00 := (p 0 0).isLt
  have h01 := (p 0 1).isLt
  have h10 := (p 1 0).isLt
  have h02 := (p 0 2).isLt
  have h11 := (p 1 1).isLt
  have h20 := (p 2 0).isLt
  rw [sumProducts, propagateCarries_toNat ?acc1 ?acc2 ?acc3]
  all_goals
    simp only [BitVec.toNat_add, lowHalf_toNat, highHalf_toNat]
    omega

/-- Schoolbook multiplication: the products of digits whose weights reach 2^128 leave the result as it is. -/
theorem digits_mul_mod (x y : Nat → Nat) :
    (x 0 + x 1 * 2 ^ 32 + x 2 * 2 ^ 64 + x 3 * 2 ^ 96) * (y 0 + y 1 * 2 ^ 32 + y 2 * 2 ^ 64 + y 3 * 2 ^ 96) % 2 ^ 128 =
      (x 0 * y 0 + (x 0 * y 1 + x 1 * y 0) * 2 ^ 32 + (x 0 * y 2 + x 1 * y 1 + x 2 * y 0) * 2 ^ 64
        + (x 0 * y 3 + x 1 * y 2 + x 2 * y 1 + x 3 * y 0) * 2 ^ 96) % 2 ^ 128 := by
  refine (congrArg (· % 2 ^ 128) ?split).trans (Nat.add_mul_mod_self_left _ _
    (x 1 * y 3 + x 2 * y 2 + x 3 * y 1 + (x 2 * y 3 + x 3 * y 2) * 2 ^ 32 + x 3 * y 3 * 2 ^ 64))
  ring

/-- R113, R114: the multiplier gives the product modulo 2^128. -/
theorem valueMul_toNat (a b : Value) : (valueMul a b).toNat = a.toNat * b.toNat % 2 ^ 128 := by
  rw [valueMul_eq_sumProducts, sumProducts_toNat, value_toNat_eq_digits a, value_toNat_eq_digits b,
    digits_mul_mod (fun i => (digit a i).toNat) (fun j => (digit b j).toNat)]
  simp only [digit_mul_toNat a b, Nat.reduceLT]

/-- Settles O16: `MUL` is the register write of the multiplier's value, which is the product modulo 2^128. -/
theorem mulWritesTheProductModulo : Obligations.MulWritesTheProductModulo := fun _ rs1 rs2 s =>
  ⟨encodedAs_of_wellFormed rfl rfl, _, valueMul_toNat (s.readReg rs1) (s.readReg rs2), writes_of_exec_eq rfl⟩

end Sys2Proof.Machine
end

section
/-! PROOFS. The bitwise commands and the shifts, limb by limb (42_logic_shift.md R130 to R136): each command is the write of
its unit's value, and a shift amount is out of range exactly when R135's first case says so. -/

namespace Sys2Proof.Machine

open Claims

/-- The register fields of a format without `RS2`. -/
theorem regFields_rs2_zero (rd rs1 : Nat) : regFields rd rs1 0 = rd * 2 ^ 8 + rs1 * 2 ^ 12 := by
  rw [regFields, Nat.zero_mul, Nat.add_zero]

/-- Settles O19: each bitwise command is the register write of its unit's value, which is given limb by limb. -/
theorem bitwiseCommandsWorkLimbByLimb : Obligations.BitwiseCommandsWorkLimbByLimb := by
  refine fun rd rs1 rs2 s => ⟨⟨?andWord, ?andValue⟩, ⟨?orWord, ?orValue⟩, ⟨?xorWord, ?xorValue⟩, ?notWord, ?notValue⟩
  case andWord | orWord | xorWord => exact encodedAs_of_wellFormed rfl rfl
  case notWord => exact encodedAs_of_wellFormed rfl (regFields_rs2_zero rd rs1 ▸ rfl)
  case andValue | orValue | xorValue | notValue => exact writes_of_exec_eq rfl

/-! The amount of a shift is the whole register (R134). -/

/-- The amount that R134 accepts, by the limbs of the register. -/
theorem shiftOperand_eq_limbs (n : Value) :
    shiftOperand n = if n.hi ≠ 0 ∨ 128 ≤ n.lo.toNat then none else some n.lo.toNat := by
  have hrange : (n.hi = 0 ∧ n.lo < 128) ↔ ¬ (n.hi ≠ 0 ∨ 128 ≤ n.lo.toNat) := by
    rw [not_or, not_not, not_le]
    rfl
  rw [shiftOperand, if_congr hrange rfl rfl, ite_not]

/-- R135: 0 for an amount out of range, the four other cases below 128. -/
theorem valueShl_eq (a n : Value) :
    valueShl a n = if n.hi ≠ 0 ∨ 128 ≤ n.lo.toNat then ⟨0, 0⟩ else shiftLeftBy a n.lo.toNat := by
  rw [valueShl, shiftOperand_eq_limbs]
  split_ifs <;> rfl

/-- R136: 0 for an amount out of range, the four other cases below 128. -/
theorem valueShr_eq (a n : Value) :
    valueShr a n = if n.hi ≠ 0 ∨ 128 ≤ n.lo.toNat then ⟨0, 0⟩ else shiftRightBy a n.lo.toNat := by
  rw [valueShr, shiftOperand_eq_limbs]
  split_ifs <;> rfl

/-- Settles O20: `SHL` is the register write of the left shift's value, whose first case is that of `valueShl_eq` and whose
others are those of `shiftLeftBy`. -/
theorem shlHasTheFiveCases : Obligations.ShlHasTheFiveCases := fun _ rs1 rs2 s =>
  ⟨encodedAs_of_wellFormed rfl rfl, writes_of_exec_eq (valueShl_eq (s.readReg rs1) (s.readReg rs2) ▸ rfl)⟩

/-- Settles O21: `SHR` is the register write of the right shift's value, whose first case is that of `valueShr_eq` and whose
others are those of `shiftRightBy`. -/
theorem shrHasTheFiveCases : Obligations.ShrHasTheFiveCases := fun _ rs1 rs2 s =>
  ⟨encodedAs_of_wellFormed rfl rfl, writes_of_exec_eq (valueShr_eq (s.readReg rs1) (s.readReg rs2) ▸ rfl)⟩

end Sys2Proof.Machine
end

section
/-! PROOFS. Bit length (44_codec.md R170, R171): the leading zeros of the limb that decides give the binary size of the
number that a value stands for. -/

namespace Sys2Proof.Machine

theorem value_bit_eq_testBit (v : Value) (i : Nat) : v.bit i = v.toNat.testBit i := by
  rw [Value.bit, Value.toNat, Nat.mul_comm, Nat.testBit_two_pow_mul_add v.hi.toNat v.lo.isLt i, BitVec.testBit_toNat,
    BitVec.testBit_toNat]

/-- The low `n` bits of a limb are its leading zeros and the binary size of the number below them. -/
theorem size_add_leadingZeros (x : Limb) (n : Nat) : (x.toNat % 2 ^ n).size + leadingZeros x n = n := by
  induction n with
  | zero => simp [leadingZeros, Nat.mod_one]
  | succ n ih =>
    have hlow : x.toNat % 2 ^ n < 2 ^ n := Nat.mod_lt _ (Nat.two_pow_pos n)
    rw [Nat.mod_pow_succ, ← Nat.toNat_testBit, BitVec.testBit_toNat, leadingZeros]
    cases x.getLsbD n with
    | false => simpa [← Nat.add_assoc] using ih
    | true =>
      have hsize : (x.toNat % 2 ^ n + 2 ^ n).size = n + 1 :=
        le_antisymm (Nat.size_le.mpr (by rw [Nat.pow_succ]; omega)) (Nat.lt_size.mpr (Nat.le_add_left _ _))
      simpa using hsize

theorem clz64_eq (x : Limb) : clz64 x = 64 - x.toNat.size := by
  have h := size_add_leadingZeros x 64
  rw [Nat.mod_eq_of_lt x.isLt] at h
  exact Nat.eq_sub_of_add_eq' h

theorem size_limb_le (x : Limb) : x.toNat.size ≤ 64 := Nat.size_le.mpr x.isLt

/-- A lower limb below a nonzero upper limb adds its 64 bits to the size. -/
theorem size_of_limbs {h l : Nat} (hh : h ≠ 0) (hl : l < 2 ^ 64) : (h * 2 ^ 64 + l).size = h.size + 64 := by
  have hpos : 0 < h.size := Nat.size_pos.mpr (Nat.pos_of_ne_zero hh)
  have hlow : 2 ^ (h.size - 1) ≤ h := Nat.lt_size.mp (Nat.sub_one_lt_of_lt hpos)
  have hhigh : h < 2 ^ h.size := Nat.lt_size_self h
  apply le_antisymm
  · rw [Nat.size_le, Nat.pow_add]
    omega
  · rw [show h.size + 64 = (h.size - 1 + 64) + 1 by omega, Nat.succ_le_iff, Nat.lt_size, Nat.pow_add]
    omega

/-- R170: `bits(v)` is the number of binary digits of `v`. -/
theorem bitLength_eq_size (v : Value) : bitLength v = v.toNat.size := by
  unfold bitLength
  split_ifs with hzero hhi
  · rw [hzero, value_zero_toNat, Nat.size_zero]
  · have hh : v.hi.toNat ≠ 0 := fun h => hhi (BitVec.eq_of_toNat_eq h)
    have hle := size_limb_le v.hi
    rw [clz64_eq, Value.toNat, size_of_limbs hh v.lo.isLt]
    omega
  · have hle := size_limb_le v.lo
    rw [clz64_eq, Value.toNat, not_not.mp hhi, BitVec.ofNat_eq_ofNat, BitVec.toNat_ofNat, Nat.zero_mod, Nat.zero_mul,
      Nat.zero_add]
    omega

theorem bitLength_le (v : Value) : bitLength v ≤ 128 :=
  bitLength_eq_size v ▸ Nat.size_le.mpr (value_toNat_lt v)

/-- No bit of a value is set from its bit length on. -/
theorem bit_of_bitLength_le {v : Value} {j : Nat} (h : bitLength v ≤ j) : v.bit j = false := by
  rw [bitLength_eq_size, Nat.size_le] at h
  rw [value_bit_eq_testBit, Nat.testBit_lt_two_pow h]

/-- The bit below the bit length of a nonzero value is set. -/
theorem bit_bitLength_pred {v : Value} (h : 0 < bitLength v) : v.bit (bitLength v - 1) = true := by
  rw [bitLength_eq_size] at h
  rw [value_bit_eq_testBit, bitLength_eq_size]
  refine Nat.testBit_of_two_pow_le_and_two_pow_add_one_gt (Nat.lt_size.mp (Nat.sub_one_lt_of_lt h)) ?_
  rw [Nat.sub_add_cancel h]
  exact Nat.lt_size_self _

/-- Settles O29: `BITS` is the register write of the bit length, the position of the highest set bit. -/
theorem bitsWritesThePositionOfTheHighestSetBit : Obligations.BitsWritesThePositionOfTheHighestSetBit :=
  fun rd rs1 s => ⟨encodedAs_of_wellFormed rfl (regFields_rs2_zero rd rs1 ▸ rfl), bitLength (s.readReg rs1),
    bitLength_le _, fun _ h _ => bit_of_bitLength_le h, bit_bitLength_pred, writes_of_exec_eq rfl⟩

end Sys2Proof.Machine
end

section
/-! PROOFS. The divider (43_divide.md R150, R151): each turn of the loop shifts one bit of the dividend into the remainder
and one bit into the quotient, so the result is the floor quotient and the remainder. -/

namespace Sys2Proof.Machine

theorem value_ofNat_eq_of_toNat_eq {v : Value} {n : Nat} (h : v.toNat = n) : Value.ofNat n = v :=
  value_eq_of_toNat_eq (by rw [value_ofNat_toNat, ← h, Nat.mod_eq_of_lt (value_toNat_lt v)])

/-- A limb shifted left by one, with a bit put in at the right. -/
theorem limb_shiftInBit_toNat (x : Limb) {d : Nat} (hd : d < 2) :
    ((x <<< 1) ||| BitVec.ofNat 64 d).toNat = (2 * x.toNat + d) % 2 ^ 64 := by
  have hshift : x.toNat <<< 1 % 2 ^ 64 = 2 * (x.toNat % 2 ^ 63) := by
    rw [Nat.shiftLeft_eq]
    omega
  have hor : 2 * (x.toNat % 2 ^ 63) ||| d = 2 * (x.toNat % 2 ^ 63) + d :=
    (Nat.two_pow_add_eq_or_of_lt (i := 1) hd _).symm
  rw [BitVec.toNat_or, BitVec.toNat_shiftLeft, BitVec.toNat_ofNat, Nat.mod_eq_of_lt (by omega : d < 2 ^ 64), hshift, hor]
  omega

/-- R150: a value shifted left by one, with a bit put in at the right. -/
def shiftInBit (v : Value) (b : Bool) : Value := if b then valueOr (shiftLeftBy v 1) Value.one else shiftLeftBy v 1

theorem shiftInBit_eq_limbs (v : Value) (b : Bool) :
    shiftInBit v b =
      ⟨(v.hi <<< 1) ||| BitVec.ofNat 64 (v.lo.toNat / 2 ^ 63), (v.lo <<< 1) ||| BitVec.ofNat 64 b.toNat⟩ := by
  have hcarry : v.lo >>> 63 = BitVec.ofNat 64 (v.lo.toNat / 2 ^ 63) := by
    rw [← Nat.shiftRight_eq_div_pow, ← BitVec.toNat_ushiftRight, BitVec.ofNat_toNat, BitVec.setWidth_eq]
  cases b <;> simp [shiftInBit, shiftLeftBy, valueOr, Value.one, hcarry]

theorem shiftInBit_toNat (v : Value) (b : Bool) : (shiftInBit v b).toNat = (2 * v.toNat + b.toNat) % 2 ^ 128 := by
  have hlo := v.lo.isLt
  have hb := b.toNat_lt
  rw [shiftInBit_eq_limbs, Value.toNat, limb_shiftInBit_toNat v.hi (by omega), limb_shiftInBit_toNat v.lo hb, Value.toNat]
  omega

/-- One turn of the loop. -/
theorem divLoop_succ (a b : Value) (i : Nat) (q r : Value) :
    divLoop a b (i + 1) q r =
      if (shiftInBit r (a.bit i)).toNat < b.toNat then divLoop a b i (shiftInBit q false) (shiftInBit r (a.bit i))
      else divLoop a b i (shiftInBit q true) (valueSub (shiftInBit r (a.bit i)) b) := by
  have hge (x : Value) : valueGe x b = true ↔ ¬ x.toNat < b.toNat := by
    rw [← valueLt_iff, valueGe, Bool.not_eq_true', Bool.not_eq_true]
  rw [← ite_not, ← if_congr (hge _) rfl rfl]
  rfl

/-- R151: with `i` bits of the dividend left, the quotient and the remainder so far are those of the bits above them. They
are no larger than those bits, so that no shift loses a bit. -/
theorem divLoop_toNat {a b : Value} {i : Nat} {q r : Value} (hsum : a.toNat / 2 ^ i = b.toNat * q.toNat + r.toNat)
    (hr : r.toNat < b.toNat) :
    (divLoop a b i q r).1.toNat = a.toNat / b.toNat ∧ (divLoop a b i q r).2.toNat = a.toNat % b.toNat := by
  induction i generalizing q r with
  | zero =>
    rw [Nat.pow_zero, Nat.div_one] at hsum
    rw [divLoop, hsum, Nat.mul_add_div (Nat.zero_lt_of_lt hr), Nat.mul_add_mod, Nat.div_eq_of_lt hr, Nat.mod_eq_of_lt hr]
    exact ⟨(Nat.add_zero _).symm, rfl⟩
  | succ i ih =>
    have hnext : a.toNat / 2 ^ i = 2 * (a.toNat / 2 ^ (i + 1)) + (a.bit i).toNat := by
      rw [value_bit_eq_testBit, Nat.toNat_testBit, Nat.pow_succ, ← Nat.div_div_eq_div_mul, Nat.div_add_mod]
    have hfits : a.toNat / 2 ^ i < 2 ^ 128 := (Nat.div_le_self _ _).trans_lt (value_toNat_lt a)
    have hq : q.toNat ≤ b.toNat * q.toNat := Nat.le_mul_of_pos_left _ (Nat.zero_lt_of_lt hr)
    have hshift (c : Bool) : (shiftInBit q c).toNat = 2 * q.toNat + c.toNat := by
      have := c.toNat_lt
      rw [shiftInBit_toNat, Nat.mod_eq_of_lt (by omega)]
    have hrem : (shiftInBit r (a.bit i)).toNat = 2 * r.toNat + (a.bit i).toNat := by
      rw [shiftInBit_toNat, Nat.mod_eq_of_lt (by omega)]
    have hdouble (c : Nat) : b.toNat * (2 * q.toNat + c) = 2 * (b.toNat * q.toNat) + b.toNat * c := by ring
    rw [divLoop_succ]
    split_ifs with hlt
    · refine ih ?_ hlt
      rw [hshift, hrem, hdouble, hnext, hsum, Bool.toNat_false]
      omega
    · have hbit := (a.bit i).toNat_lt
      have hsub : (valueSub (shiftInBit r (a.bit i)) b).toNat = 2 * r.toNat + (a.bit i).toNat - b.toNat := by
        rw [valueSub_toNat, hrem]
        omega
      refine ih ?_ (by omega)
      rw [hshift, hsub, hdouble, hnext, hsum, Bool.toNat_true]
      omega

/-- R151: on a nonzero divisor the divider answers the floor quotient and the remainder; each fast path gives them too. -/
theorem divCore_eq {a b : Value} (hb : b.toNat ≠ 0) :
    divCore a b = some (Value.ofNat (a.toNat / b.toNat), Value.ofNat (a.toNat % b.toNat)) := by
  have answer {q r : Value} : q.toNat = a.toNat / b.toNat ∧ r.toNat = a.toNat % b.toNat →
      some (q, r) = some (Value.ofNat (a.toNat / b.toNat), Value.ofNat (a.toNat % b.toNat)) := fun ⟨hq, hr⟩ => by
    rw [value_ofNat_eq_of_toNat_eq hq, value_ofNat_eq_of_toNat_eq hr]
  have hpos := Nat.pos_of_ne_zero hb
  unfold divCore
  split_ifs with hzero hone heq hsmall
  · exact absurd (hzero ▸ value_zero_toNat) hb
  · exact answer (by simp [hone, Nat.mod_one])
  · exact answer (by simp [heq, Nat.div_self hpos])
  · have hlt : a.toNat < b.toNat := hsmall.elim (fun h => h ▸ hpos) (valueLt_iff a b).mp
    exact answer (by simp [Nat.div_eq_of_lt hlt, Nat.mod_eq_of_lt hlt])
  · have hnone : a.toNat / 2 ^ bitLength a = 0 :=
      Nat.div_eq_of_lt (bitLength_eq_size a ▸ Nat.lt_size_self a.toNat)
    exact answer (divLoop_toNat (by simp [hnone]) hpos)

end Sys2Proof.Machine
end

section
/-! PROOFS. The encoder (44_codec.md R172 to R174): the division loop conses the digits of the number, and the padded text
stands in `CBUF` from offset 0. -/

namespace Sys2Proof.Machine

open Claims

/-! The text (R172, R173). -/

theorem alpha_eq_digitChar {d : Nat} (h : d < 16) : alpha d = digitChar d := by
  interval_cases d <;> rfl

/-- One turn of the loop on a nonzero value: the last digit goes in front of the text, and the quotient goes on. -/
theorem renderLoop_succ {base x : Value} (hpos : 0 < base.toNat) (h16 : base.toNat ≤ 16) (hx : x ≠ Value.zero) (fuel : Nat)
    (t : List Byte) :
    renderLoop base (fuel + 1) x t =
      renderLoop base fuel (Value.ofNat (x.toNat / base.toNat)) (digitChar (x.toNat % base.toNat) :: t) := by
  have hdigit : x.toNat % base.toNat < base.toNat := Nat.mod_lt _ hpos
  have hlow : (Value.ofNat (x.toNat % base.toNat)).lo.toNat = x.toNat % base.toNat := by
    rw [Value.ofNat, BitVec.toNat_ofNat, Nat.mod_eq_of_lt (by omega)]
  rw [renderLoop, if_neg hx, divCore_eq hpos.ne']
  dsimp only
  rw [hlow, alpha_eq_digitChar (by omega)]

/-- R173: the loop conses the digits of the number in front of the text, if its fuel covers the bits of the number. -/
theorem renderLoop_eq {base : Value} (h2 : 2 ≤ base.toNat) (h16 : base.toNat ≤ 16) {fuel : Nat} {x : Value}
    (hx : x.toNat < 2 ^ fuel) (t : List Byte) :
    renderLoop base fuel x t = (Nat.digits base.toNat x.toNat).reverse.map digitChar ++ t := by
  induction fuel generalizing x t with
  | zero =>
    have hzero : x.toNat = 0 := Nat.lt_one_iff.mp hx
    rw [renderLoop, hzero, Nat.digits_zero]
    rfl
  | succ fuel ih =>
    by_cases hzero : x = Value.zero
    · rw [renderLoop, if_pos hzero, hzero, value_zero_toNat, Nat.digits_zero]
      rfl
    · have hpos : 0 < x.toNat := Nat.pos_of_ne_zero (mt (value_toNat_eq_zero x).mp hzero)
      have hquot : (Value.ofNat (x.toNat / base.toNat)).toNat = x.toNat / base.toNat := by
        rw [value_ofNat_toNat, Nat.mod_eq_of_lt ((Nat.div_le_self _ _).trans_lt (value_toNat_lt x))]
      have hfuel : x.toNat / base.toNat < 2 ^ fuel :=
        Nat.div_lt_of_lt_mul (hx.trans_le (by rw [Nat.pow_succ']; exact Nat.mul_le_mul_right _ h2))
      rw [renderLoop_succ (by omega) h16 hzero, ih (by rwa [hquot]), hquot, Nat.digits_def' h2 hpos, List.reverse_cons,
        List.map_append, List.append_assoc]
      rfl

theorem baseOperand_toNat (base : BitVec 8) : (baseOperand base).toNat = base.toNat := by
  have := base.isLt
  simp only [baseOperand, Value.toNat, BitVec.toNat_setWidth, BitVec.ofNat_eq_ofNat, BitVec.toNat_ofNat]
  omega

theorem padText_eq (m : Nat) (t : List Byte) : padText m t = List.replicate (m - t.length) 0x30 ++ t := by
  rw [padText]
  split_ifs with h
  · rfl
  · rw [Nat.sub_eq_zero_of_le (not_lt.mp h), List.replicate_zero, List.nil_append]

theorem renderText_eq {base : BitVec 8} (h2 : 2 ≤ base.toNat) (h16 : base.toNat ≤ 16) (a : Value) :
    renderText (baseOperand base) a =
      if a.toNat = 0 then [digitChar 0] else (Nat.digits base.toNat a.toNat).reverse.map digitChar := by
  rw [renderText, ← if_congr (value_toNat_eq_zero a) rfl rfl,
    renderLoop_eq (by rwa [baseOperand_toNat]) (by rwa [baseOperand_toNat]) (value_toNat_lt a), baseOperand_toNat,
    List.append_nil]
  rfl

/-- R173: the text of the value, padded to the minimum length, is the digits of the number. -/
theorem padText_renderText_eq {base : BitVec 8} (h2 : 2 ≤ base.toNat) (h16 : base.toNat ≤ 16) (m : BitVec 8) (a : Value) :
    padText (countOperand m) (renderText (baseOperand base) a) = rendered base.toNat a.toNat m.toNat := by
  rw [padText_eq, renderText_eq h2 h16]
  rfl

/-- R174: the digits of a 128-bit number and the padding end before the end of `CBUF`. -/
theorem rendered_length_le {base a m : Nat} (hbase : 2 ≤ base) (ha : a < 2 ^ 128) (hm : m < 256) :
    (rendered base a m).length ≤ 255 := by
  have hdigits : (Nat.digits base a).length ≤ 128 :=
    (Nat.digits_length_le_iff hbase a).mpr (ha.trans_le (Nat.pow_le_pow_left hbase 128))
  simp only [rendered, List.length_append, List.length_replicate, apply_ite List.length, List.length_map,
    List.length_reverse, List.length_singleton]
  split_ifs <;> omega

/-! The placement (R174). -/

theorem writeBytes_frame (s : State) (k : Nat) (t : List Byte) :
    s.writeBytes k t = { s with cbuf := (s.writeBytes k t).cbuf } := by
  induction t generalizing s k with
  | nil => rfl
  | cons b rest ih => exact ih (s.setCbufByte k b) (k + 1)

theorem placeText_frame (t : List Byte) (s : State) :
    placeText t s = { s with cbuf := (placeText t s).cbuf, slen := (placeText t s).slen } :=
  congrArg (fun u : State => { u with slen := BitVec.ofNat 32 t.length }) (writeBytes_frame s 0 t)

theorem cbufByte_placeText (t : List Byte) (s : State) (k : Nat) :
    (placeText t s).cbufByte k = if k < t.length then t.getD k 0 else s.cbufByte k := by
  rw [cbufByte_congr (placeText_cbuf t s) (by rw [placeText_draw, writeBytes_draw]), cbufByte_writeBytes]
  simp

theorem placeText_slen_toNat {t : List Byte} (h : t.length ≤ 255) (s : State) :
    (placeText t s).slen.toNat = t.length := by
  rw [placeText_slen, BitVec.toNat_ofNat, Nat.mod_eq_of_lt (by omega)]

/-! The command (R173). -/

theorem renderBaseOk_iff (base : BitVec 8) : renderBaseOk base = true ↔ 2 ≤ base.toNat ∧ base.toNat ≤ 16 := by
  rw [renderBaseOk, Bool.and_eq_true, decide_eq_true_eq, decide_eq_true_eq]

theorem exec_strenc_of_base {base : BitVec 8} (h2 : 2 ≤ base.toNat) (h16 : base.toNat ≤ 16) (rs1 : Reg) (m : BitVec 8)
    (s : State) :
    exec (.strenc rs1 base m) s = .next (placeText (rendered base.toNat (s.readReg rs1).toNat m.toNat) s) := by
  rw [exec, execStrenc, if_pos ((renderBaseOk_iff base).mpr ⟨h2, h16⟩), padText_renderText_eq h2 h16]

theorem exec_strenc_of_invalid_base {base : BitVec 8} (h : ¬ (2 ≤ base.toNat ∧ base.toNat ≤ 16)) (rs1 : Reg) (m : BitVec 8)
    (s : State) :
    exec (.strenc rs1 base m) s = .next (raiseFault .invalidBase (encode (.strenc rs1 base m)) s) := by
  rw [exec, execStrenc, if_neg (mt (renderBaseOk_iff base).mp h)]

/-- R213: a raised fault is recorded where none is on record, and logged. -/
theorem raisesOnly_raiseFault (c : Cause) (w : CmdWord) (s : State) : RaisesOnly s (raiseFault c w s) c c.code w where
  first h := by simp [h]
  later h := by simp [h]
  logged := raiseFault_faultLog c w s
  frame := by
    unfold raiseFault
    dsimp only
    split <;> rfl
  bytes := cbufByte_congr (raiseFault_cbuf c w s) (raiseFault_draw c w s)

/-- Settles O30: with a base in 2..16 `STRENC` places the digits of the number, which fit `CBUF`; with another it raises the
fault of its command word. -/
theorem strencRendersTheDigits : Obligations.StrencRendersTheDigits := by
  intro rs1 base m s
  have hsum : Instr.opcode (.strenc rs1 base m) + Instr.operandFields (.strenc rs1 base m) =
      0x21 + rs1.val * 2 ^ 12 + base.toNat * 2 ^ 16 + m.toNat * 2 ^ 24 := by
    simp only [Instr.opcode, Instr.operandFields, Nat.add_assoc]
  refine ⟨encodedAs_of_wellFormed rfl hsum,
    fun ⟨h2, h16⟩ => ⟨_, exec_strenc_of_base h2 h16 rs1 m s, ?length, fun k hk => ?text, fun k hk => ?tail,
      placeText_frame _ s⟩,
    fun hbase => ⟨_, exec_strenc_of_invalid_base (by omega) rs1 m s, ?fault⟩⟩
  case length => exact placeText_slen_toNat (rendered_length_le h2 (value_toNat_lt _) m.isLt) s
  case text => rw [cbufByte_placeText, if_pos hk, List.getD_eq_getElem _ _ hk]
  case tail => rw [cbufByte_placeText, if_neg (not_lt.mpr hk)]
  case fault =>
    rw [← hsum]
    exact raisesOnly_raiseFault .invalidBase _ s

end Sys2Proof.Machine
end

section
/-! PROOFS. The decoder (44_codec.md R175 to R180): each of its loops is a Horner scheme over the digits at the front of its
part of the window, wrapped at the width of what it writes. -/

namespace Sys2Proof.Machine

open Claims

/-! The text and the window (R175, R176). -/

theorem isSpace_eq (c : Byte) : isSpace c = decide (c.toNat ∈ [0x20, 0x09, 0x0A, 0x0B, 0x0C, 0x0D]) := by
  rw [Bool.eq_iff_iff]
  simp [isSpace, ← BitVec.toNat_inj, or_assoc]

theorem parseInput_eq (s : State) : parseInput s = parsedText s := by
  have hspace : isSpace = fun c => decide (c.toNat ∈ [0x20, 0x09, 0x0A, 0x0B, 0x0C, 0x0D]) := funext isSpace_eq
  rw [parseInput, trimText, readBytes_eq, hspace, parsedText]
  simp only [Nat.zero_add]

theorem window_eq (n : Nat) (t : List Byte) : window n t = lastChars n t := by
  rw [window, lastChars]
  congr 1
  omega

theorem window_length_le (n : Nat) (t : List Byte) : (window n t).length ≤ n := by
  rw [window, List.length_drop]
  omega

/-! Digits (R177 to R179). -/

/-- The ranges of characters are disjoint, so the order in which they are tried does not matter. -/
theorem digitOf_eq (c : Byte) : digitOf c = digitValue 16 c := by
  unfold digitOf digitValue
  dsimp only
  split_ifs <;> grind

/-- A letter stands for 10 or more, which is no digit of these bases. -/
theorem smallDigit_eq {base : Nat} (h : base ≤ 10) (c : Byte) : smallDigit base c = digitValue base c := by
  unfold smallDigit digitValue
  dsimp only
  split_ifs <;> grind

theorem digitValue_lt {base : Nat} {c : Byte} {d : Nat} (h : digitValue base c = some d) : d < base := by
  rw [digitValue, Option.ite_none_right_eq_some] at h
  obtain ⟨hlt, hd⟩ := h
  exact Option.some.inj hd ▸ hlt

/-! The number that the digits at the front of a text write. -/

/-- `prefixNumber` from an accumulator on. -/
def prefixNumberFrom (base v : Nat) (t : List Byte) : Nat :=
  ((t.takeWhile (fun c => (digitValue base c).isSome)).filterMap (digitValue base)).foldl (fun v d => v * base + d) v

theorem prefixNumber_eq (base : Nat) (t : List Byte) : prefixNumber base t = prefixNumberFrom base 0 t := rfl

@[simp] theorem prefixNumberFrom_nil (base v : Nat) : prefixNumberFrom base v [] = v := rfl

theorem prefixNumberFrom_cons_digit {base : Nat} {c : Byte} {d : Nat} (h : digitValue base c = some d) (v : Nat)
    (t : List Byte) : prefixNumberFrom base v (c :: t) = prefixNumberFrom base (v * base + d) t := by
  simp [prefixNumberFrom, h]

theorem prefixNumberFrom_cons_stop {base : Nat} {c : Byte} (h : digitValue base c = none) (v : Nat) (t : List Byte) :
    prefixNumberFrom base v (c :: t) = v := by
  simp [prefixNumberFrom, h]

/-- Each digit multiplies the bound by the base. -/
theorem prefixNumberFrom_lt {base : Nat} (hbase : 0 < base) (v : Nat) (t : List Byte) :
    prefixNumberFrom base v t < (v + 1) * base ^ t.length := by
  induction t generalizing v with
  | nil => simp
  | cons c rest ih =>
    cases h : digitValue base c with
    | none =>
      rw [prefixNumberFrom_cons_stop h]
      exact Nat.lt_of_lt_of_le (Nat.lt_succ_self v) (Nat.le_mul_of_pos_right _ (Nat.pow_pos hbase))
    | some d =>
      have hd := digitValue_lt h
      have hstep : v * base + d + 1 ≤ (v + 1) * base := by
        rw [Nat.succ_mul]
        omega
      rw [prefixNumberFrom_cons_digit h, List.length_cons, Nat.pow_succ', ← Nat.mul_assoc]
      exact (ih _).trans_le (Nat.mul_le_mul_right _ hstep)

theorem prefixNumber_lt_two_pow {base : Nat} (hbase : 0 < base) {t : List Byte} {n : Nat} (h : base ^ t.length ≤ 2 ^ n) :
    prefixNumber base t < 2 ^ n := by
  have hlt := prefixNumberFrom_lt hbase 0 t
  rw [Nat.zero_add, Nat.one_mul] at hlt
  exact hlt.trans_le h

/-- One step of a Horner scheme, wrapped before it or not. -/
theorem mod_mul_add_mod (n base d m : Nat) : (n % m * base + d) % m = (n * base + d) % m :=
  ((Nat.mod_modEq n m).mul_right base).add_right d

/-! Base 16 (R177). -/

theorem hexPrefix_toNat {x : Limb} {n : Nat} (hx : x.toNat = n % 2 ^ 64) (t : List Byte) :
    (hexPrefix x t).toNat = prefixNumberFrom 16 n t % 2 ^ 64 := by
  induction t generalizing x n with
  | nil => exact hx
  | cons c rest ih =>
    rw [hexPrefix, digitOf_eq]
    cases h : digitValue 16 c with
    | none => rw [prefixNumberFrom_cons_stop h, hx]
    | some d =>
      rw [prefixNumberFrom_cons_digit h]
      refine ih ?_
      rw [BitVec.toNat_add, BitVec.toNat_mul, hx, BitVec.toNat_ofNat, ← Nat.add_mod]
      exact mod_mul_add_mod n 16 d (2 ^ 64)

theorem hexPrefix_zero_toNat {t : List Byte} (ht : t.length ≤ 16) : (hexPrefix 0 t).toNat = prefixNumber 16 t := by
  have hpow : 16 ^ t.length ≤ 2 ^ 64 := (Nat.pow_le_pow_right (by decide) ht).trans (by decide)
  rw [hexPrefix_toNat (n := 0) rfl, ← prefixNumber_eq, Nat.mod_eq_of_lt (prefixNumber_lt_two_pow (by decide) hpow)]

/-- R177: each part of the window has at most 16 characters, so its number fits its limb. -/
theorem parseHex_toNat (t : List Byte) : (parseHex t).toNat = hexNumber (lastChars 32 t) := by
  have hw := window_length_le 32 t
  rw [parseHex, Value.toNat, hexPrefix_zero_toNat (by rw [List.length_take]; omega),
    hexPrefix_zero_toNat (by rw [List.length_drop]; omega), window_eq]
  rfl

/-! Base 10 and base 8 (R178). -/

theorem countValue_toNat {n : Nat} (h : n < 2 ^ 64) : (countValue n).toNat = n := by
  simp only [countValue, Value.toNat, BitVec.ofNat_eq_ofNat, BitVec.toNat_ofNat]
  omega

theorem digitLoop_toNat {base : Nat} (hbase : base ≤ 10) {v : Value} {n : Nat} (hv : v.toNat = n % 2 ^ 128) (t : List Byte) :
    (digitLoop base v t).toNat = prefixNumberFrom base n t % 2 ^ 128 := by
  induction t generalizing v n with
  | nil => exact hv
  | cons c rest ih =>
    rw [digitLoop, smallDigit_eq hbase]
    cases h : digitValue base c with
    | none => rw [prefixNumberFrom_cons_stop h, hv]
    | some d =>
      have hd := digitValue_lt h
      rw [prefixNumberFrom_cons_digit h]
      refine ih ?_
      rw [valueAdd_toNat, valueMul_toNat, hv, countValue_toNat (by omega), countValue_toNat (by omega),
        Nat.mod_add_mod, mod_mul_add_mod]

/-! Base 2 (R179). -/

/-- A limb that holds a number modulo 2^64 holds it with one more binary digit after the shift. -/
theorem limb_shiftInBit_of_eq_mod {x : Limb} {n d : Nat} (hx : x.toNat = n % 2 ^ 64) (hd : d < 2) :
    ((x <<< 1) ||| BitVec.ofNat 64 d).toNat = (n * 2 + d) % 2 ^ 64 := by
  rw [limb_shiftInBit_toNat x hd, hx]
  omega

/-- The scan of the lower portion. -/
theorem bitLoop_lower {hi lo : Limb} {n : Nat} (hlo : lo.toNat = n % 2 ^ 64) (t : List Byte) :
    (bitLoop 0 ⟨hi, lo⟩ t).hi = hi ∧ (bitLoop 0 ⟨hi, lo⟩ t).lo.toNat = prefixNumberFrom 2 n t % 2 ^ 64 := by
  induction t generalizing lo n with
  | nil => exact ⟨rfl, hlo⟩
  | cons c rest ih =>
    rw [bitLoop, smallDigit_eq (by decide)]
    cases h : digitValue 2 c with
    | none =>
      rw [prefixNumberFrom_cons_stop h]
      exact ⟨rfl, hlo⟩
    | some d =>
      rw [prefixNumberFrom_cons_digit h]
      exact ih (limb_shiftInBit_of_eq_mod hlo (digitValue_lt h))

/-- The scan of the whole window: a stop in the upper portion leaves the lower limb as it is. -/
theorem bitLoop_append {hi : Limb} {n : Nat} (hhi : hi.toNat = n % 2 ^ 64) (upper lower : List Byte) :
    (bitLoop upper.length ⟨hi, 0⟩ (upper ++ lower)).hi.toNat = prefixNumberFrom 2 n upper % 2 ^ 64 ∧
      (bitLoop upper.length ⟨hi, 0⟩ (upper ++ lower)).lo.toNat =
        if upper.all (fun c => (digitValue 2 c).isSome) then prefixNumber 2 lower % 2 ^ 64 else 0 := by
  induction upper generalizing hi n with
  | nil =>
    obtain ⟨h1, h2⟩ := bitLoop_lower (hi := hi) (lo := 0) (n := 0) rfl lower
    exact ⟨(congrArg BitVec.toNat h1).trans hhi, h2⟩
  | cons c rest ih =>
    rw [List.cons_append, bitLoop, smallDigit_eq (by decide)]
    cases h : digitValue 2 c with
    | none =>
      rw [prefixNumberFrom_cons_stop h]
      simp [h, hhi]
    | some d =>
      rw [prefixNumberFrom_cons_digit h]
      simpa [h] using ih (limb_shiftInBit_of_eq_mod hhi (digitValue_lt h))

/-- R179: each portion of the window has at most 64 characters, so its number fits its limb. -/
theorem bitLoop_toNat {w : List Byte} (hw : w.length ≤ 128) :
    (bitLoop (w.length - 64) Value.zero w).toNat = binaryNumber w := by
  have hupper : (w.take (w.length - 64)).length = w.length - 64 := by
    rw [List.length_take]
    omega
  have hfits {p : List Byte} (hp : p.length ≤ 64) : prefixNumber 2 p % 2 ^ 64 = prefixNumber 2 p :=
    Nat.mod_eq_of_lt (prefixNumber_lt_two_pow (by decide) (Nat.pow_le_pow_right (by decide) hp))
  obtain ⟨hhi, hlo⟩ :=
    bitLoop_append (hi := 0) (n := 0) rfl (w.take (w.length - 64)) (w.drop (w.length - 64))
  rw [List.take_append_drop, hupper, ← prefixNumber_eq, hfits (by omega)] at hhi
  rw [List.take_append_drop, hupper, hfits (by rw [List.length_drop]; omega)] at hlo
  rw [binaryNumber, ← hhi, ← hlo]
  rfl

theorem parseBinary_toNat (t : List Byte) : (parseBinary t).toNat = binaryNumber (lastChars 128 t) := by
  rw [← window_eq]
  exact bitLoop_toNat (window_length_le 128 t)

/-! The command (R180). -/

theorem parsedNumber_nil (base : Nat) : parsedNumber base [] = 0 := by
  unfold parsedNumber
  split_ifs <;> rfl

theorem parseText_toNat (base : Nat) (t : List Byte) : (parseText base t).toNat = parsedNumber base t % 2 ^ 128 := by
  have hmod (v : Value) : v.toNat = v.toNat % 2 ^ 128 := (Nat.mod_eq_of_lt (value_toNat_lt v)).symm
  by_cases ht : t = []
  · rw [parseText, if_pos ht, ht, parsedNumber_nil]
    rfl
  rw [parseText, if_neg ht, parsedNumber]
  split_ifs
  · rw [← parseHex_toNat, ← hmod]
  · rw [parseDecimal, digitLoop_toNat (by decide) (n := 0) rfl, window_eq, prefixNumber_eq]
  · rw [parseOctal, digitLoop_toNat (by decide) (n := 0) rfl, window_eq, prefixNumber_eq]
  · rw [← parseBinary_toNat, ← hmod]
  · rfl

/-- Settles O32: `STRDEC` is the register write of the parsed value, whose number is that of the independent parser. -/
theorem strdecParsesTheWindow : Obligations.StrdecParsesTheWindow := fun rd base s =>
  ⟨encodedAs_of_wellFormed rfl (Nat.add_assoc 0x22 (rd.val * 2 ^ 8) (base.toNat * 2 ^ 16)).symm,
    parseText base.toNat (parsedText s), parseText_toNat base.toNat (parsedText s),
    writes_of_exec_eq (parseInput_eq s ▸ rfl)⟩

end Sys2Proof.Machine
end

section
/-! PROOFS. The comparator (45_compare.md R200, R201): each command is a write of `FLAGS`, whose bits are the equations of
the rule limb by limb. -/

namespace Sys2Proof.Machine

open Claims

/-! The comparison of two values and the flags it sets (R200). -/

theorem valueEq_iff_limbs (a b : Value) : valueEq a b = true ↔ a.hi = b.hi ∧ a.lo = b.lo := by
  rw [valueEq, Bool.and_eq_true, beq_iff_eq, beq_iff_eq]

theorem valueLt_iff_limbs (a b : Value) :
    valueLt a b = true ↔ a.hi.toNat < b.hi.toNat ∨ (a.hi = b.hi ∧ a.lo.toNat < b.lo.toNat) := by
  rw [valueLt, Bool.or_eq_true, Bool.and_eq_true, decide_eq_true_eq, decide_eq_true_eq, beq_iff_eq, BitVec.lt_def,
    BitVec.lt_def]

@[simp] theorem cmpFlags_eq (a b : Value) (f : Flags) : (cmpFlags a b f).eq = valueEq a b := rfl
@[simp] theorem cmpFlags_lt (a b : Value) (f : Flags) : (cmpFlags a b f).lt = valueLt a b := rfl
@[simp] theorem cmpFlags_nz (a b : Value) (f : Flags) : (cmpFlags a b f).nz = f.nz := rfl

theorem cmpFlags_gt_iff (a b : Value) (f : Flags) :
    (cmpFlags a b f).gt = true ↔ (cmpFlags a b f).eq = false ∧ (cmpFlags a b f).lt = false := by
  rw [cmpFlags, Bool.and_eq_true, Bool.not_eq_true', Bool.not_eq_true']

/-! The flag that the test for zero sets (R201). -/

@[simp] theorem tstFlags_eq (a : Value) (f : Flags) : (tstFlags a f).eq = f.eq := rfl
@[simp] theorem tstFlags_lt (a : Value) (f : Flags) : (tstFlags a f).lt = f.lt := rfl
@[simp] theorem tstFlags_gt (a : Value) (f : Flags) : (tstFlags a f).gt = f.gt := rfl

theorem tstFlags_nz_iff (a : Value) (f : Flags) : (tstFlags a f).nz = true ↔ a.hi ||| a.lo ≠ 0 := by
  rw [tstFlags, bne_iff_ne]

/-! The commands. -/

theorem exec_cmp (rs1 rs2 : Reg) (s : State) :
    exec (.cmp rs1 rs2) s = .next { s with flags := cmpFlags (s.readReg rs1) (s.readReg rs2) s.flags } := rfl

theorem exec_tst (rs1 : Reg) (s : State) :
    exec (.tst rs1) s = .next { s with flags := tstFlags (s.readReg rs1) s.flags } := rfl

theorem regFields_rd_zero (rs1 rs2 : Nat) : regFields 0 rs1 rs2 = rs1 * 2 ^ 12 + rs2 * 2 ^ 16 := by
  rw [regFields, Nat.zero_mul, Nat.zero_add]

theorem cbufByte_withFlags (s : State) (f : Flags) (k : Nat) : ({ s with flags := f } : State).cbufByte k = s.cbufByte k :=
  cbufByte_congr rfl rfl k

/-- Settles O26: `CMP` is the write of the comparator's flags, of which the first two compare the limbs and the third is
what neither of them covers. -/
theorem cmpWritesEqLtGt : Obligations.CmpWritesEqLtGt := by
  intro rs1 rs2 s
  refine ⟨encodedAs_of_wellFormed rfl (regFields_rd_zero rs1 rs2 ▸ rfl), _, exec_cmp rs1 rs2 s, ?eq, ?lt, ?gt, ?nz, rfl,
    cbufByte_withFlags s _⟩
  case eq => exact valueEq_iff_limbs _ _
  case lt => exact valueLt_iff_limbs _ _
  case gt => exact cmpFlags_gt_iff _ _ _
  case nz => exact cmpFlags_nz _ _ _

/-- Settles O27: `TST` is the write of the flags in which `NZ` alone is new. -/
theorem tstWritesNz : Obligations.TstWritesNz := by
  intro rs1 s
  have hword : Instr.opcode (.tst rs1) + Instr.operandFields (.tst rs1) = 0x19 + regFields 0 rs1 0 := by
    rw [regFields_rd_zero, Nat.zero_mul, Nat.add_zero]
    rfl
  exact ⟨encodedAs_of_wellFormed rfl hword, _, exec_tst rs1 s, tstFlags_nz_iff _ _, tstFlags_eq _ _, tstFlags_lt _ _,
    tstFlags_gt _ _, rfl, cbufByte_withFlags s _⟩

end Sys2Proof.Machine
end

section
/-! PROOFS. The command faults (60_exceptions.md): a faulting command raises the fault of its own word and nothing else
(R210 to R213), the fault record decides nothing of what a command does (R216), and the fault log only grows (R220). -/

namespace Sys2Proof.Machine

open Claims

/-! A legal word is the sum of the fields that the decoder reads from it (R71, R79). -/

/-- The opcode, the fields of the row and the bits that are 0 make up the whole word. -/
theorem encode_of_decode {w : CmdWord} {i : Instr} (h : decode w = .ok i) : encode i = w := by
  obtain ⟨hrow, hzero, _⟩ := decode_eq_ok_iff.mp h
  have hopc : i.opcode = w.toNat % 256 := by rw [opcode_of_selectRow hrow, fieldOPC_eq_mod]
  rw [← opcode_of_selectRow hrow] at hrow
  have hw := w.isLt
  apply BitVec.eq_of_toNat_eq
  rw [Laws.EncodeFields.encode_toNat, hopc]
  cases i with
  | _ =>
    cases Option.some.inj hrow
    simp only [mustBeZeroHolds, mustBeZero, Instr.format, List.all_cons, List.all_nil, Bool.and_true, Bool.and_eq_true,
      beq_iff_eq, field] at hzero
    simp only [Instr.operandFields, fieldRD, fieldRS1, fieldRS2, fieldRD2, fieldBASE, fieldMINLEN, fieldIMM16, field,
      Fin.val_ofNat, BitVec.toNat_ofNat]
    omega

/-! The commands that fault (R210, R212, R213). -/

theorem divCore_of_zero {b : Value} (hb : b.toNat = 0) (a : Value) : divCore a b = none :=
  (divCore_eq_none_iff a b).mpr ((value_toNat_eq_zero b).mp hb)

theorem exec_divu_of_zero {rs2 : Reg} {s : State} (hz : (s.readReg rs2).toNat = 0) (rd rs1 : Reg) :
    exec (.divu rd rs1 rs2) s = .next (raiseFault .divideByZero (encode (.divu rd rs1 rs2)) s) := by
  rw [exec, execDivu, divCore_of_zero hz]

theorem exec_remu_of_zero {rs2 : Reg} {s : State} (hz : (s.readReg rs2).toNat = 0) (rd rs1 : Reg) :
    exec (.remu rd rs1 rs2) s = .next (raiseFault .divideByZero (encode (.remu rd rs1 rs2)) s) := by
  rw [exec, execRemu, divCore_of_zero hz]

theorem exec_divmod_of_zero {rd rd2 rs2 : Reg} {s : State} (hne : rd ≠ rd2) (hz : (s.readReg rs2).toNat = 0)
    (rs1 : Reg) :
    exec (.divmod rd rd2 rs1 rs2) s = .next (raiseFault .divideByZero (encode (.divmod rd rd2 rs1 rs2)) s) := by
  rw [exec, execDivmod, if_neg hne, divCore_of_zero hz]

/-- R75(c): the decoder answers no `DIVMOD` with one destination twice. -/
theorem divmod_destinations_ne {w : CmdWord} {rd rd2 rs1 rs2 : Reg} (h : decode w = .ok (.divmod rd rd2 rs1 rs2)) :
    rd ≠ rd2 :=
  bne_iff_ne.mp (decode_eq_ok_iff.mp h).2.2

theorem completeCommand_of_exec {w : CmdWord} {i : Instr} {s u : State} (hd : decode w = .ok i)
    (hx : exec i s = .next u) : completeCommand w s = .next (retire u) := by
  rw [completeCommand, hd]
  exact congrArg retireOutcome hx

theorem completeCommand_of_raiseFault {w : CmdWord} {i : Instr} {c : Cause} {s : State} (hd : decode w = .ok i)
    (hx : exec i s = .next (raiseFault c (encode i) s)) :
    completeCommand w s = .next (retire (raiseFault c w s)) :=
  completeCommand_of_exec hd (encode_of_decode hd ▸ hx)

/-- R210 to R213: in each fault case the core raises the fault of that cause for the word, and empties `PEND`. -/
theorem completeCommand_of_faultCase {w : CmdWord} {s : State} {c : Cause} {code : BitVec 4}
    (h : FaultCase w s c code) : c.code = code ∧ completeCommand w s = .next (retire (raiseFault c w s)) := by
  obtain ⟨rfl, rfl, e, he⟩ | ⟨rfl, rfl, rd, rs1, rs2, hd, hz⟩ | ⟨rfl, rfl, rs1, base, m, hd, hbase⟩ := h
  · exact ⟨rfl, completeCommand_of_error he s⟩
  · refine ⟨rfl, ?_⟩
    obtain hd | hd | ⟨rd2, hd⟩ := hd
    · exact completeCommand_of_raiseFault hd (exec_divu_of_zero hz rd rs1)
    · exact completeCommand_of_raiseFault hd (exec_remu_of_zero hz rd rs1)
    · exact completeCommand_of_raiseFault hd (exec_divmod_of_zero (divmod_destinations_ne hd) hz rs1)
  · exact ⟨rfl, completeCommand_of_raiseFault hd (exec_strenc_of_invalid_base (by omega) rs1 m s)⟩

/-- The step in which the core completes a faulting command. Which case it is depends on the registers alone, not on what
is left of the events. -/
theorem step_of_faultCase {s : State} {w : CmdWord} {c : Cause} {code : BitVec 4} {rest : List HostEvent}
    (hp : s.pend = some w) (hturn : CoreTurn s rest) (h : FaultCase w s c code) :
    step s = .next (retire (raiseFault c w { s with inputs := rest })) :=
  (step_of_coreTurn hp hturn).trans
    (completeCommand_of_faultCase (s := { s with inputs := rest }) h).2

/-- Settles O34: in each case the step is the raising of the fault, which touches the record and the log alone, before
`PEND` is emptied. -/
theorem faultWritesOnlyItsRecord : Obligations.FaultWritesOnlyItsRecord := by
  intro s w c code rest hp hturn hcase
  obtain ⟨hfirst, hlater, hlogged, hframe, hbytes⟩ := raisesOnly_raiseFault c w { s with inputs := rest }
  obtain rfl := (completeCommand_of_faultCase hcase).1
  exact ⟨_, step_of_faultCase hp hturn hcase, hfirst, hlater, hlogged, rfl, congrArg retire hframe, hbytes⟩

/-! The fault record decides nothing (R216). -/

/-- The state with another fault record: `STATUS.FAULT`, `STATUS.ERR` and `FCMD`. -/
def State.withRecord (s : State) (f : Bool) (e : BitVec 4) (w : CmdWord) : State :=
  { s with fault := f, err := e, fcmd := w }

/-! What a command reads of the state, and the log, are the same under another record. -/

@[simp] theorem withRecord_regs (s : State) (f : Bool) (e : BitVec 4) (w : CmdWord) :
    (s.withRecord f e w).regs = s.regs := rfl
@[simp] theorem withRecord_flags (s : State) (f : Bool) (e : BitVec 4) (w : CmdWord) :
    (s.withRecord f e w).flags = s.flags := rfl
@[simp] theorem withRecord_slen (s : State) (f : Bool) (e : BitVec 4) (w : CmdWord) :
    (s.withRecord f e w).slen = s.slen := rfl
@[simp] theorem withRecord_cbuf (s : State) (f : Bool) (e : BitVec 4) (w : CmdWord) :
    (s.withRecord f e w).cbuf = s.cbuf := rfl
@[simp] theorem withRecord_faultLog (s : State) (f : Bool) (e : BitVec 4) (w : CmdWord) :
    (s.withRecord f e w).faultLog = s.faultLog := rfl
@[simp] theorem readReg_withRecord (s : State) (f : Bool) (e : BitVec 4) (w : CmdWord) (i : Reg) :
    (s.withRecord f e w).readReg i = s.readReg i := rfl

theorem writeBytes_withRecord (s : State) (f : Bool) (e : BitVec 4) (w : CmdWord) (k : Nat) (text : List Byte) :
    (s.withRecord f e w).writeBytes k text = (s.writeBytes k text).withRecord f e w := by
  induction text generalizing s k with
  | nil => rfl
  | cons b rest ih => exact ih (s.setCbufByte k b) (k + 1)

theorem placeText_withRecord (text : List Byte) (s : State) (f : Bool) (e : BitVec 4) (w : CmdWord) :
    placeText text (s.withRecord f e w) = (placeText text s).withRecord f e w := by
  rw [placeText, writeBytes_withRecord]
  rfl

theorem parseInput_withRecord (s : State) (f : Bool) (e : BitVec 4) (w : CmdWord) :
    parseInput (s.withRecord f e w) = parseInput s := by
  rw [parseInput_eq, parseInput_eq]
  rfl

/-- `u` is what the state `t` after a command from `s` becomes when the command starts with another fault record: the
same effect, with that record kept, or the same fault raised. -/
def AlikeUpToRecord (s t u : State) (f : Bool) (e : BitVec 4) (w : CmdWord) : Prop :=
  u = t.withRecord f e w ∨ ∃ c cmd, t = raiseFault c cmd s ∧ u = raiseFault c cmd (s.withRecord f e w)

/-- R216: no command's rule reads the fault record. -/
theorem exec_withRecord {i : Instr} {s t : State} (h : exec i s = .next t) (f : Bool) (e : BitVec 4) (w : CmdWord) :
    ∃ u, exec i (s.withRecord f e w) = .next u ∧ AlikeUpToRecord s t u f e w := by
  cases i with
  | add | sub | neg | mul | and | or | xor | not | shl | shr | bits | ldi | mov | cmp | tst =>
    obtain rfl := Host.Outcome.next.inj h
    exact ⟨_, rfl, .inl rfl⟩
  | strdec rd base =>
    obtain rfl := Host.Outcome.next.inj h
    exact ⟨_, rfl, .inl (parseInput_withRecord s f e w ▸ rfl)⟩
  | strenc rs1 base m =>
    simp only [exec, execStrenc] at h ⊢
    split at h <;> obtain rfl := Host.Outcome.next.inj h
    · next hbase => exact ⟨_, if_pos hbase, .inl (placeText_withRecord _ s f e w)⟩
    · next hbase => exact ⟨_, if_neg hbase, .inr ⟨_, _, rfl, rfl⟩⟩
  | divu rd rs1 rs2 | remu rd rs1 rs2 =>
    simp only [exec, execDivu, execRemu, readReg_withRecord] at h ⊢
    split at h <;> obtain rfl := Host.Outcome.next.inj h
    · exact ⟨_, rfl, .inr ⟨_, _, rfl, rfl⟩⟩
    · exact ⟨_, rfl, .inl rfl⟩
  | divmod rd rd2 rs1 rs2 =>
    simp only [exec, execDivmod, readReg_withRecord] at h ⊢
    split at h
    · next hsame =>
      obtain rfl := Host.Outcome.next.inj h
      exact ⟨_, if_pos hsame, .inr ⟨_, _, rfl, rfl⟩⟩
    · next hdistinct =>
      rw [if_neg hdistinct]
      split at h <;> obtain rfl := Host.Outcome.next.inj h
      · exact ⟨_, rfl, .inr ⟨_, _, rfl, rfl⟩⟩
      · exact ⟨_, rfl, .inl rfl⟩

/-- R216: a command word is completed alike, legal or not. -/
theorem completeCommand_withRecord {next : CmdWord} {s t : State} (h : completeCommand next s = .next t) (f : Bool)
    (e : BitVec 4) (w : CmdWord) :
    ∃ t' u, t = retire t' ∧ completeCommand next (s.withRecord f e w) = .next (retire u) ∧
      AlikeUpToRecord s t' u f e w := by
  obtain ⟨_, hd, rfl⟩ | ⟨i, t', hd, hexec, rfl⟩ := completeCommand_next h
  · exact ⟨_, _, rfl, completeCommand_of_error hd _, .inr ⟨_, _, rfl, rfl⟩⟩
  · obtain ⟨u, hu, halike⟩ := exec_withRecord hexec f e w
    exact ⟨t', u, rfl, completeCommand_of_exec hd hu, halike⟩

/-- Settles O36: the completion with another record is the same effect with that record kept, or the same fault raised,
which an earlier fault keeps from being recorded. -/
theorem faultRecordDoesNotChangeACommand : Obligations.FaultRecordDoesNotChangeACommand := by
  intro next s t f e w h
  obtain ⟨t', u, rfl, hu, rfl | ⟨c, cmd, rfl, rfl⟩⟩ := completeCommand_withRecord h f e w
  · exact ⟨_, hu, rfl, rfl, rfl, rfl, rfl, .inl rfl, fun _ => ⟨rfl, rfl⟩⟩
  · have hraise := raisesOnly_raiseFault c cmd (s.withRecord f e w)
    refine ⟨_, hu, ?regs, ?flags, ?slen, ?cbuf, ?faultLog, .inr (raiseFault_fault c cmd _),
      fun hf => (hraise.later hf).2⟩
    case regs => simp only [retire_regs, raiseFault_regs, withRecord_regs]
    case flags => simp only [retire_flags, raiseFault_flags, withRecord_flags]
    case slen => simp only [retire_slen, raiseFault_slen, withRecord_slen]
    case cbuf => simp only [retire_cbuf, raiseFault_cbuf, withRecord_cbuf]
    case faultLog => simp only [retire_faultLog, raiseFault_faultLog, withRecord_faultLog]

/-! The fault log only grows (R220). -/

theorem exec_faultLog_suffix {i : Instr} {s t : State} (h : exec i s = .next t) : s.faultLog <:+ t.faultLog := by
  obtain ⟨rd, v, rfl⟩ | ⟨rd, rd2, q, r, rfl⟩ | ⟨f, rfl⟩ | ⟨text, rfl⟩ | ⟨c, w, rfl⟩ := exec_next h
  · exact List.suffix_refl _
  · exact List.suffix_refl _
  · exact List.suffix_refl _
  · rw [placeText_faultLog]
  · rw [raiseFault_faultLog]
    exact List.suffix_cons _ _

theorem completeCommand_faultLog_suffix {w : CmdWord} {s t : State} (h : completeCommand w s = .next t) :
    s.faultLog <:+ t.faultLog := by
  obtain ⟨_, _, rfl⟩ | ⟨i, u, _, hexec, rfl⟩ := completeCommand_next h
  · rw [retire_faultLog, raiseFault_faultLog]
    exact List.suffix_cons _ _
  · rw [retire_faultLog]
    exact exec_faultLog_suffix hexec

/-- Not even the host's write-1-to-clear of `STATUS` touches the log. -/
@[simp] theorem writeLocation_faultLog (s : State) (width : Nat) (d : BitVec 64) (l : Location) :
    (writeLocation s width d l).faultLog = s.faultLog := by
  cases l with
  | status =>
    rw [writeLocation]
    split <;> rfl
  | chars k => exact memWrite_faultLog s k width d.toNat
  | cmd | flags | slen | fcmd | limbLo | limbHi => rfl

theorem performAccess_faultLog {a : Access} {s t : State} (h : performAccess a s = .next t) :
    t.faultLog = s.faultLog := by
  obtain ⟨_, _, _, _, _, rfl⟩ | ⟨_, _, _, _, _, _, rfl⟩ := performAccess_next h
  · rw [respond_faultLog]
  · rw [respond_faultLog, writeLocation_faultLog]

theorem step_faultLog_suffix {s t : State} (h : step s = .next t) : s.faultLog <:+ t.faultLog := by
  obtain ⟨keep, rest, _, rfl⟩ | ⟨a, held, rest, _, haccess⟩ | ⟨a, late, rest, w, _, _, _, rfl⟩ |
    ⟨w, rest, _, hcomplete⟩ | ⟨rest, _, _, rfl⟩ := step_cases h
  · rw [resetInput_faultLog]
  · rw [performAccess_faultLog haccess]
  · exact List.suffix_refl _
  · exact completeCommand_faultLog_suffix (s := { s with inputs := rest }) hcomplete
  · exact List.suffix_refl _

/-- Settles O37: every step leaves the log or adds to it, and the completion of a faulting command adds its fault. -/
theorem faultLogIsNeverCleared : Obligations.FaultLogIsNeverCleared := by
  refine fun s t h => ⟨step_faultLog_suffix h, fun w c code rest hp hturn hcase => ?_⟩
  obtain rfl := Host.Outcome.next.inj (h.symm.trans (step_of_faultCase hp hturn hcase))
  rw [retire_faultLog, raiseFault_faultLog]

end Sys2Proof.Machine
end

section
/-! PROOFS. Decoder and encoder are inverse to each other (30_encoding.md R71 to R79), and the decoder reads a command from
the words that select a row of the opcode table. -/

namespace Sys2Proof.Machine

open Claims

/-- Settles O4: the encoding of a well-formed command passes the three checks of the decoder. -/
theorem decodeOfEncodeIsTheCommand : Obligations.DecodeOfEncodeIsTheCommand := fun _ => decode_encode

theorem wellFormed_of_decode {w : CmdWord} {i : Instr} (h : decode w = .ok i) : i.wellFormed = true := by
  obtain ⟨_, _, hwf⟩ := decode_eq_ok_iff.mp h
  exact hwf

/-- Settles O5: the fields that the decoder reads make up the whole word, and its last check is well-formedness. -/
theorem encodeOfDecodeIsTheWord : Obligations.EncodeOfDecodeIsTheWord := fun _ _ h =>
  ⟨encode_of_decode h, wellFormed_of_decode h⟩

/-- Settles O3: the decoder, run on the eleven words. -/
theorem wordsOfTheSpecDecode : Obligations.WordsOfTheSpecDecode := by
  unfold Obligations.WordsOfTheSpecDecode
  decide

/-! The opcode table: a row's mask covers the opcode and the "must be zero" bits of the row's format. -/

/-- The row of the opcode table that R74's opcode and R76's mask make. -/
def rowOfFormat (p : Nat × Format) : TableRow := ⟨p.1, BitVec.ofNat 32 p.1, 0xFF ||| mustBeZeroMask p.2⟩

theorem opcodeTable_eq_rows : opcodeTable = opcodeFormats.map rowOfFormat := by decide

theorem opcode_lt_of_mem {p : Nat × Format} (h : p ∈ opcodeFormats) : p.1 < 256 := by
  revert p
  decide

theorem mustBeZeroMask_and_opcode (f : Format) : mustBeZeroMask f &&& 0xFF = 0 := by
  cases f <;> decide

theorem and_opcode_mask_toNat (w : CmdWord) : (w &&& 0xFF).toNat = w.toNat % 256 :=
  (BitVec.toNat_and w 0xFF).trans (Nat.and_two_pow_sub_one_eq_mod w.toNat 8)

/-- Two masks `o` and `m` that do not overlap check their bits one by one, where `o` holds all bits of the pattern. -/
theorem and_or_eq_iff {w o m c : CmdWord} (hm : m &&& o = 0#32) (hc : c &&& o = c) :
    w &&& (o ||| m) = c ↔ w &&& o = c ∧ w &&& m = 0#32 := by
  have hsplit : w &&& (o ||| m) = w &&& o ||| w &&& m := BitVec.and_or_distrib_left
  constructor
  · intro h
    have hopc : w &&& o = c :=
      calc w &&& o = (w &&& (o ||| m)) &&& o := by
            rw [hsplit, BitVec.and_or_distrib_right, BitVec.and_assoc, BitVec.and_assoc, hm, BitVec.and_self,
              BitVec.and_zero, BitVec.or_zero]
        _ = c := by rw [h, hc]
    have hzero : w &&& m = 0#32 :=
      calc w &&& m = m &&& (w &&& (o ||| m)) := by
            rw [hsplit, BitVec.and_or_distrib_left, BitVec.and_comm w o, ← BitVec.and_assoc, hm, BitVec.zero_and,
              BitVec.zero_or, BitVec.and_comm w m, ← BitVec.and_assoc, BitVec.and_self]
        _ = 0#32 := by rw [h, ← hc, BitVec.and_comm c o, ← BitVec.and_assoc, hm, BitVec.zero_and]
    exact ⟨hopc, hzero⟩
  · rintro ⟨hopc, hzero⟩
    rw [hsplit, hopc, hzero, BitVec.or_zero]

/-- A word selects the row of an opcode exactly if it has that opcode and 0 in the bits that must be zero. -/
theorem rowOfFormat_selects_iff {p : Nat × Format} (hp : p ∈ opcodeFormats) (w : CmdWord) :
    (rowOfFormat p).selects w = true ↔ fieldOPC w = p.1 ∧ mustBeZeroHolds p.2 w = true := by
  have hlt := opcode_lt_of_mem hp
  have hopc : BitVec.ofNat 32 p.1 &&& 0xFF = BitVec.ofNat 32 p.1 := by
    apply BitVec.eq_of_toNat_eq
    rw [and_opcode_mask_toNat, BitVec.toNat_ofNat]
    omega
  rw [TableRow.selects, beq_iff_eq, rowOfFormat, and_or_eq_iff (mustBeZeroMask_and_opcode p.2) hopc,
    mustBeZeroHolds_iff_mask, fieldOPC_eq_mod, ← and_opcode_mask_toNat, ← BitVec.toNat_inj, BitVec.toNat_ofNat,
    Nat.mod_eq_of_lt (by omega)]
  rfl

/-- The row of the table that a word of a command selects. -/
theorem selects_of_decode {w : CmdWord} {i : Instr} (h : decode w = .ok i) :
    (rowOfFormat (i.opcode, i.format)).selects w = true := by
  obtain ⟨hrow, hzero, _⟩ := decode_eq_ok_iff.mp h
  exact (rowOfFormat_selects_iff (opcode_format_mem i) w).mpr ⟨(opcode_of_selectRow hrow).symm, hzero⟩

theorem mem_opcodeTable_iff (r : TableRow) : r ∈ opcodeTable ↔ ∃ p ∈ opcodeFormats, rowOfFormat p = r := by
  rw [opcodeTable_eq_rows, List.mem_map]

/-- A row that a word selects is the row of the command that the decoder selects. -/
theorem selectRow_of_selects {p : Nat × Format} (hp : p ∈ opcodeFormats) {w : CmdWord}
    (h : (rowOfFormat p).selects w = true) :
    ∃ i, selectRow (fieldOPC w) w = some i ∧ mustBeZeroHolds i.format w = true ∧ (i.opcode, i.format) = p := by
  obtain ⟨hopc, hzero⟩ := (rowOfFormat_selects_iff hp w).mp h
  obtain ⟨i, hrow, hformat⟩ := selectRow_of_mem_opcodeFormats hp w
  exact ⟨i, hopc ▸ hrow, hformat ▸ hzero, Prod.ext (opcode_of_selectRow hrow) hformat⟩

/-- Settles O6: the rows of the table are those of the decoder, and a word that selects a row passes the decoder's other
checks unless it is a `DIVMOD` with one destination twice. -/
theorem decoderAgreesWithTheOpcodeTable : Obligations.DecoderAgreesWithTheOpcodeTable := by
  intro w
  refine ⟨⟨fun ⟨i, hi⟩ => ?row, fun ⟨r, hr, hsel, hdistinct⟩ => ?decodes⟩, fun i hi => ?only⟩
  case row =>
    have hrow := (decode_eq_ok_iff.mp hi).1
    refine ⟨_, (mem_opcodeTable_iff _).mpr ⟨_, opcode_format_mem i, rfl⟩, selects_of_decode hi, ?_⟩
    have hwf := (wellFormed_iff_of_selectRow hrow).mp (wellFormed_of_decode hi)
    rwa [← opcode_of_selectRow hrow] at hwf
  case decodes =>
    obtain ⟨p, hp, rfl⟩ := (mem_opcodeTable_iff r).mp hr
    obtain ⟨i, hrow, hzero, rfl⟩ := selectRow_of_selects hp hsel
    rw [rowOfFormat, opcode_of_selectRow hrow] at hdistinct
    exact ⟨i, decode_eq_ok_iff.mpr ⟨hrow, hzero, (wellFormed_iff_of_selectRow hrow).mpr hdistinct⟩⟩
  case only =>
    refine ⟨_, (mem_opcodeTable_iff _).mpr ⟨_, opcode_format_mem i, rfl⟩, rfl, selects_of_decode hi, fun r hr hsel => ?_⟩
    obtain ⟨p, hp, rfl⟩ := (mem_opcodeTable_iff r).mp hr
    obtain ⟨j, hrow, _, rfl⟩ := selectRow_of_selects hp hsel
    rw [Option.some.inj (hrow.symm.trans (decode_eq_ok_iff.mp hi).1)]

end Sys2Proof.Machine
end

section
/-! PROOFS. What a command can do, with the cases in which it does it (30_encoding.md R82, 60_exceptions.md): the frame of
every command, the listed faults, and that no command stops the machine. -/

namespace Sys2Proof.Machine

open Claims

/-! The effects of the commands. -/

/-- What command `i` can make of the state `s`. A register is written without a fault, at the command's destinations;
`FLAGS` by the comparator; a text that fits `CBUF` by `STRENC`; and a fault touches its record and the log alone. -/
inductive Effect (i : Instr) (s : State) : State → Prop
  | register {rd : Reg} (v : Value) (hdest : destinations i = [rd]) (hok : ¬ CommandFaults i s) :
      Effect i s (s.writeReg rd v)
  | registers {rd rd2 : Reg} (q r : Value) (hdest : destinations i = [rd, rd2]) (hok : ¬ CommandFaults i s) :
      Effect i s ((s.writeReg rd q).writeReg rd2 r)
  | order (a b : Value) (hflags : writesFlags i) (hok : ¬ CommandFaults i s) :
      Effect i s { s with flags := cmpFlags a b s.flags }
  | zeroTest (a : Value) (hflags : writesFlags i) (hok : ¬ CommandFaults i s) :
      Effect i s { s with flags := tstFlags a s.flags }
  | text {t : List Byte} (hfits : t.length ≤ 255) (htext : writesText i) (hok : ¬ CommandFaults i s) :
      Effect i s (placeText t s)
  | fault (c : Cause) (w : CmdWord) (hfaults : CommandFaults i s) : Effect i s (raiseFault c w s)

theorem commandFaults_divu_iff (rd rs1 rs2 : Reg) (s : State) :
    CommandFaults (.divu rd rs1 rs2) s ↔ (s.readReg rs2).toNat = 0 := by
  simp [CommandFaults]

theorem commandFaults_remu_iff (rd rs1 rs2 : Reg) (s : State) :
    CommandFaults (.remu rd rs1 rs2) s ↔ (s.readReg rs2).toNat = 0 := by
  simp [CommandFaults]

theorem commandFaults_divmod_iff (rd rd2 rs1 rs2 : Reg) (s : State) :
    CommandFaults (.divmod rd rd2 rs1 rs2) s ↔ (s.readReg rs2).toNat = 0 ∨ rd = rd2 := by
  simp [CommandFaults, eq_comm (a := rd)]

theorem commandFaults_strenc_iff (rs1 : Reg) (base m : BitVec 8) (s : State) :
    CommandFaults (.strenc rs1 base m) s ↔ ¬ (2 ≤ base.toNat ∧ base.toNat ≤ 16) := by
  simp only [CommandFaults, reduceCtorEq, false_or, false_and, exists_false, Instr.strenc.injEq]
  grind

theorem exec_divmod_same (rd rs1 rs2 : Reg) (s : State) :
    exec (.divmod rd rd rs1 rs2) s = .next (raiseFault .illegalCommand (encode (.divmod rd rd rs1 rs2)) s) :=
  if_pos rfl

/-! Division by a nonzero divisor (43_divide.md R151 to R154). -/

theorem exec_divu_of_ne_zero {rs2 : Reg} {s : State} (hnz : (s.readReg rs2).toNat ≠ 0) (rd rs1 : Reg) :
    exec (.divu rd rs1 rs2) s =
      .next (s.writeReg rd (Value.ofNat ((s.readReg rs1).toNat / (s.readReg rs2).toNat))) := by
  rw [exec, execDivu, divCore_eq hnz]

theorem exec_remu_of_ne_zero {rs2 : Reg} {s : State} (hnz : (s.readReg rs2).toNat ≠ 0) (rd rs1 : Reg) :
    exec (.remu rd rs1 rs2) s =
      .next (s.writeReg rd (Value.ofNat ((s.readReg rs1).toNat % (s.readReg rs2).toNat))) := by
  rw [exec, execRemu, divCore_eq hnz]

theorem exec_divmod_of_ne_zero {rd rd2 rs2 : Reg} {s : State} (hne : rd ≠ rd2) (hnz : (s.readReg rs2).toNat ≠ 0)
    (rs1 : Reg) :
    exec (.divmod rd rd2 rs1 rs2) s =
      .next ((s.writeReg rd (Value.ofNat ((s.readReg rs1).toNat / (s.readReg rs2).toNat))).writeReg rd2
        (Value.ofNat ((s.readReg rs1).toNat % (s.readReg rs2).toNat))) := by
  rw [exec, execDivmod, if_neg hne, divCore_eq hnz]

/-- R213, R216: every command, in every state, has one of the effects. -/
theorem exec_effect (i : Instr) (s : State) : ∃ t, exec i s = .next t ∧ Effect i s t := by
  cases i with
  | add | sub | neg | mul | and | or | xor | not | shl | shr | bits | strdec | ldi | mov =>
    exact ⟨_, rfl, .register _ rfl (by simp [CommandFaults])⟩
  | cmp a b => exact ⟨_, rfl, .order _ _ (.inl ⟨a, b, rfl⟩) (by simp [CommandFaults])⟩
  | tst a => exact ⟨_, rfl, .zeroTest _ (.inr ⟨a, rfl⟩) (by simp [CommandFaults])⟩
  | divu rd rs1 rs2 =>
    by_cases hz : (s.readReg rs2).toNat = 0
    · exact ⟨_, exec_divu_of_zero hz rd rs1, .fault _ _ ((commandFaults_divu_iff ..).mpr hz)⟩
    · exact ⟨_, exec_divu_of_ne_zero hz rd rs1, .register _ rfl (mt (commandFaults_divu_iff ..).mp hz)⟩
  | remu rd rs1 rs2 =>
    by_cases hz : (s.readReg rs2).toNat = 0
    · exact ⟨_, exec_remu_of_zero hz rd rs1, .fault _ _ ((commandFaults_remu_iff ..).mpr hz)⟩
    · exact ⟨_, exec_remu_of_ne_zero hz rd rs1, .register _ rfl (mt (commandFaults_remu_iff ..).mp hz)⟩
  | divmod rd rd2 rs1 rs2 =>
    by_cases hsame : rd = rd2
    · subst hsame
      exact ⟨_, exec_divmod_same rd rs1 rs2 s, .fault _ _ ((commandFaults_divmod_iff ..).mpr (.inr rfl))⟩
    by_cases hz : (s.readReg rs2).toNat = 0
    · exact ⟨_, exec_divmod_of_zero hsame hz rs1, .fault _ _ ((commandFaults_divmod_iff ..).mpr (.inl hz))⟩
    · have hok : ¬ CommandFaults (.divmod rd rd2 rs1 rs2) s :=
        mt (commandFaults_divmod_iff ..).mp (not_or.mpr ⟨hz, hsame⟩)
      exact ⟨_, exec_divmod_of_ne_zero hsame hz rs1, .registers _ _ rfl hok⟩
  | strenc rs1 base m =>
    by_cases hbase : 2 ≤ base.toNat ∧ base.toNat ≤ 16
    · have hok : ¬ CommandFaults (.strenc rs1 base m) s :=
        mt (commandFaults_strenc_iff ..).mp (not_not_intro hbase)
      exact ⟨_, exec_strenc_of_base hbase.1 hbase.2 rs1 m s,
        .text (rendered_length_le hbase.1 (value_toNat_lt _) m.isLt) ⟨rs1, base, m, rfl⟩ hok⟩
    · exact ⟨_, exec_strenc_of_invalid_base hbase rs1 m s, .fault _ _ ((commandFaults_strenc_iff ..).mpr hbase)⟩

theorem effect_of_exec {i : Instr} {s t : State} (h : exec i s = .next t) : Effect i s t := by
  obtain ⟨u, hu, heffect⟩ := exec_effect i s
  obtain rfl := Host.Outcome.next.inj (h.symm.trans hu)
  exact heffect

/-! No command stops the machine (R213, R216). -/

theorem completeCommand_answers (w : CmdWord) (s : State) : ∃ t, completeCommand w s = .next t := by
  cases hd : decode w with
  | error e => exact ⟨_, completeCommand_of_error hd s⟩
  | ok i =>
    obtain ⟨t, ht, _⟩ := exec_effect i s
    exact ⟨_, completeCommand_of_exec hd ht⟩

theorem completeCommand_ne_refused (w : CmdWord) (s : State) (r : Refusal) : completeCommand w s ≠ .refused r := by
  obtain ⟨t, ht⟩ := completeCommand_answers w s
  simp [ht]

/-- The port never refuses: off the map an access is a fault of the host. -/
theorem performAccess_ne_refused (a : Access) (s : State) (r : Refusal) : performAccess a s ≠ .refused r := by
  by_cases h : Accepted (offsetOf a) (widthOf a)
  · obtain ⟨t, ht⟩ := performAccess_of_accepted h s
    simp [ht]
  · simp [performAccess_of_not_accepted h s]

theorem ownWork_ne_refused (rest : List HostEvent) (s : State) (r : Refusal) : ownWork rest s ≠ .refused r := by
  unfold ownWork
  split
  · exact completeCommand_ne_refused _ _ r
  · split
    · exact nofun
    · exact performAccess_ne_refused _ _ r

theorem portAccess_ne_refused (a : Access) (late : Bool) (rest : List HostEvent) (s : State) (r : Refusal) :
    portAccess a late rest s ≠ .refused r := by
  unfold portAccess
  split
  · split_ifs
    · exact completeCommand_ne_refused _ _ r
    · exact performAccess_ne_refused _ _ r
    · exact nofun
  · split
    · exact performAccess_ne_refused _ _ r
    · split_ifs
      · exact performAccess_ne_refused _ _ r
      · exact performAccess_ne_refused _ _ r

theorem step_ne_refused (s : State) (r : Refusal) : step s ≠ .refused r := by
  unfold step nextStep
  split
  · exact ownWork_ne_refused _ s r
  · exact ownWork_ne_refused _ s r
  · exact portAccess_ne_refused _ _ _ s r
  · exact nofun

/-- Settles O10: every command has an effect, and a step ends in a completed command, an access or nothing. -/
theorem everyCommandAnswersANextState : Obligations.EveryCommandAnswersANextState := by
  refine ⟨fun i s => ?command, step_ne_refused, fun s w hp hin => ?pending⟩
  case command =>
    obtain ⟨t, ht, _⟩ := exec_effect i s
    exact ⟨t, ht⟩
  case pending => exact step_of_pending_no_event hp hin ▸ completeCommand_answers w s

/-! The frame of every command (R82, R213). -/

theorem effect_readReg {i : Instr} {s t : State} (h : Effect i s t) {r : Reg} (hr : r ∉ destinations i) :
    t.readReg r = s.readReg r := by
  cases h with
  | register v hdest =>
    rw [hdest, List.mem_singleton] at hr
    exact readReg_writeReg_other s v (Ne.symm hr)
  | registers q v hdest =>
    rw [hdest, List.mem_cons, List.mem_singleton, not_or] at hr
    rw [readReg_writeReg_other _ v (Ne.symm hr.2), readReg_writeReg_other s q (Ne.symm hr.1)]
  | order | zeroTest => rfl
  | text => exact readReg_congr (placeText_regs _ s) r
  | fault c w => exact readReg_congr (raiseFault_regs c w s) r

theorem effect_flags {i : Instr} {s t : State} (h : Effect i s t) (hi : ¬ writesFlags i) : t.flags = s.flags := by
  cases h with
  | register | registers => rfl
  | order _ _ hflags | zeroTest _ hflags => exact absurd hflags hi
  | text => exact placeText_flags _ s
  | fault c w => exact raiseFault_flags c w s

theorem effect_text {i : Instr} {s t : State} (h : Effect i s t) (hi : ¬ writesText i) :
    t.slen = s.slen ∧ ∀ k, t.cbufByte k = s.cbufByte k := by
  cases h with
  | register | registers | order | zeroTest => exact ⟨rfl, fun _ => rfl⟩
  | text _ htext => exact absurd htext hi
  | fault c w => exact ⟨raiseFault_slen c w s, cbufByte_raiseFault c w s⟩

/-- R174: the bytes of `CBUF` from the end of the text on keep their values. -/
theorem effect_text_tail {i : Instr} {s t : State} (h : Effect i s t) {k : Nat} (hk : t.slen.toNat ≤ k) :
    t.cbufByte k = s.cbufByte k := by
  cases h with
  | register | registers | order | zeroTest => rfl
  | text hfits =>
    rw [placeText_slen_toNat hfits] at hk
    rw [cbufByte_placeText, if_neg (not_lt.mpr hk)]
  | fault c w => exact cbufByte_raiseFault c w s k

theorem effect_record {i : Instr} {s t : State} (h : Effect i s t) (hi : ¬ CommandFaults i s) :
    t.fault = s.fault ∧ t.err = s.err ∧ t.fcmd = s.fcmd ∧ t.faultLog = s.faultLog := by
  cases h with
  | register | registers | order | zeroTest => exact ⟨rfl, rfl, rfl, rfl⟩
  | text => exact ⟨placeText_fault _ s, placeText_err _ s, placeText_fcmd _ s, placeText_faultLog _ s⟩
  | fault _ _ hfaults => exact absurd hfaults hi

theorem effect_of_faults {i : Instr} {s t : State} (h : Effect i s t) (hi : CommandFaults i s) :
    ∃ c w, t = raiseFault c w s := by
  cases h with
  | register _ _ hok | registers _ _ _ hok | order _ _ _ hok | zeroTest _ _ hok | text _ _ hok => exact absurd hi hok
  | fault c w => exact ⟨c, w, rfl⟩

/-- Everything of the port, and `PEND`, is no command's to change. -/
theorem effect_port {i : Instr} {s t : State} (h : Effect i s t) :
    t.pend = s.pend ∧ t.held = s.held ∧ t.inputs = s.inputs ∧ t.responses = s.responses ∧ t.draw = s.draw := by
  cases h with
  | register | registers | order | zeroTest => exact ⟨rfl, rfl, rfl, rfl, rfl⟩
  | text =>
    exact ⟨placeText_pend _ s, placeText_held _ s, placeText_inputs _ s, placeText_responses _ s, placeText_draw _ s⟩
  | fault c w =>
    exact ⟨raiseFault_pend c w s, raiseFault_held c w s, raiseFault_inputs c w s, raiseFault_responses c w s,
      raiseFault_draw c w s⟩

/-- Settles O39: each clause is the frame of one kind of effect. -/
theorem commandsWriteOnlyTheirDestinations : Obligations.CommandsWriteOnlyTheirDestinations := by
  intro i s t h
  have heffect := effect_of_exec h
  refine ⟨fun _ => effect_readReg heffect, effect_flags heffect, effect_text heffect,
    fun _ _ => effect_text_tail heffect, effect_record heffect, fun hfaults => ?fault, effect_port heffect⟩
  case fault =>
    obtain ⟨c, w, rfl⟩ := effect_of_faults heffect hfaults
    exact (raisesOnly_raiseFault c w s).frame

/-! The fault cases of a pending command (R210 to R212). -/

/-- A legal word faults in the cases in which its command does. -/
theorem faultCase_of_commandFaults {w : CmdWord} {i : Instr} {s : State} (hd : decode w = .ok i)
    (h : CommandFaults i s) : ∃ c code, FaultCase w s c code := by
  obtain ⟨rd, rs1, rs2, hi, hz⟩ | ⟨rd, rs1, rs2, rfl⟩ | ⟨rs1, base, m, rfl, hbase⟩ := h
  · refine ⟨_, _, .inr (.inl ⟨rfl, rfl, rd, rs1, rs2, ?_, hz⟩)⟩
    obtain rfl | rfl | ⟨rd2, rfl⟩ := hi
    · exact .inl hd
    · exact .inr (.inl hd)
    · exact .inr (.inr ⟨rd2, hd⟩)
  · exact absurd rfl (divmod_destinations_ne hd)
  · exact ⟨_, _, .inr (.inr ⟨rfl, rfl, rs1, base, m, hd, hbase⟩)⟩

/-- Outside the fault cases a word is legal and its completion leaves the log and the record as they were. -/
theorem completeCommand_record_of_no_faultCase {w : CmdWord} {s t : State} (hno : ∀ c code, ¬ FaultCase w s c code)
    (h : completeCommand w s = .next t) :
    t.faultLog = s.faultLog ∧ t.fault = s.fault ∧ t.err = s.err ∧ t.fcmd = s.fcmd := by
  obtain ⟨e, hd, rfl⟩ | ⟨i, u, hd, hexec, rfl⟩ := completeCommand_next h
  · exact absurd (.inl ⟨rfl, rfl, e, hd⟩) (hno .illegalCommand 1)
  · have hok : ¬ CommandFaults i s := fun hfaults =>
      let ⟨c, code, hcase⟩ := faultCase_of_commandFaults hd hfaults
      hno c code hcase
    obtain ⟨hfault, herr, hfcmd, hlog⟩ := effect_record (effect_of_exec hexec) hok
    exact ⟨hlog, hfault, herr, hfcmd⟩

/-- Settles O35: in a fault case the core raises that fault; in every other case the completion keeps log and record. -/
theorem commandsFaultExactlyInTheListedCases : Obligations.CommandsFaultExactlyInTheListedCases := by
  intro s w rest hp hturn
  obtain ⟨t, ht⟩ := completeCommand_answers w { s with inputs := rest }
  have hstep := (step_of_coreTurn hp hturn).trans ht
  refine ⟨t, hstep, fun c code hcase => ?fault, fun hno => ?none⟩
  case fault =>
    obtain rfl := Host.Outcome.next.inj (hstep.symm.trans (step_of_faultCase hp hturn hcase))
    obtain rfl := (completeCommand_of_faultCase hcase).1
    refine ⟨raiseFault_faultLog c w _, fun hfirst => ?_⟩
    obtain ⟨_, herr, _⟩ := (raisesOnly_raiseFault c w { s with inputs := rest }).first hfirst
    exact herr
  case none => exact completeCommand_record_of_no_faultCase (s := { s with inputs := rest }) hno ht

end Sys2Proof.Machine
end

section
/-! PROOFS. The invariant (10_state.md R23 to R27): it speaks of a few fields, and each command, each access and each step
keeps their legal values. -/

namespace Sys2Proof.Machine

open Claims

theorem inv_writeReg {s : State} (hs : s.Inv) (i : Reg) (v : Value) : (s.writeReg i v).Inv :=
  ⟨hs.slen_legal, hs.cbuf_wf, hs.clear_record, hs.fault_record, hs.flags_one_hot⟩

theorem inv_retire {s : State} (hs : s.Inv) : (retire s).Inv :=
  ⟨hs.slen_legal, hs.cbuf_wf, hs.clear_record, hs.fault_record, hs.flags_one_hot⟩

theorem inv_respond {s : State} (hs : s.Inv) (a : Access) (r : Response) : (s.respond a r).Inv :=
  ⟨hs.slen_legal, hs.cbuf_wf, hs.clear_record, hs.fault_record, hs.flags_one_hot⟩

/-- The invariant does not speak of the port. -/
theorem inv_withPort {s : State} (hs : s.Inv) (held : List Access) (inputs : List HostEvent) :
    ({ s with held := held, inputs := inputs } : State).Inv :=
  ⟨hs.slen_legal, hs.cbuf_wf, hs.clear_record, hs.fault_record, hs.flags_one_hot⟩

theorem inv_withPend {s : State} (hs : s.Inv) (pend : Option CmdWord) : ({ s with pend := pend } : State).Inv :=
  ⟨hs.slen_legal, hs.cbuf_wf, hs.clear_record, hs.fault_record, hs.flags_one_hot⟩

theorem inv_withFlags {s : State} (hs : s.Inv) {f : Flags}
    (hf : (f.eq && f.lt) = false ∧ (f.eq && f.gt) = false ∧ (f.lt && f.gt) = false) :
    ({ s with flags := f } : State).Inv :=
  ⟨hs.slen_legal, hs.cbuf_wf, hs.clear_record, hs.fault_record, hf⟩

/-- R200: equal numbers are not in order, and `GT` is what the other two leave. -/
theorem cmpFlags_one_hot (a b : Value) (f : Flags) :
    ((cmpFlags a b f).eq && (cmpFlags a b f).lt) = false ∧ ((cmpFlags a b f).eq && (cmpFlags a b f).gt) = false ∧
      ((cmpFlags a b f).lt && (cmpFlags a b f).gt) = false := by
  have hexcl : (valueEq a b && valueLt a b) = false := by
    rw [Bool.and_eq_false_imp, valueEq_iff_limbs]
    rintro ⟨hhi, hlo⟩
    rw [← Bool.not_eq_true, valueLt_iff_limbs, hhi, hlo]
    simp
  have hgt : (cmpFlags a b f).gt = (!valueEq a b && !valueLt a b) := rfl
  refine ⟨hexcl, ?eqGt, ?ltGt⟩
  case eqGt => rw [cmpFlags_eq, hgt, ← Bool.and_assoc, Bool.and_not_self, Bool.false_and]
  case ltGt => rw [cmpFlags_lt, hgt, Bool.and_comm, Bool.and_assoc, Bool.not_and_self, Bool.and_false]

theorem inv_placeText {s : State} (hs : s.Inv) {t : List Byte} (hfits : t.length ≤ 255) : (placeText t s).Inv where
  slen_legal := by
    rw [placeText_slen_toNat hfits]
    omega
  cbuf_wf := wf_writeBytes s 0 t (by omega) hs.cbuf_wf
  clear_record := by simpa using hs.clear_record
  fault_record := by simpa using hs.fault_record
  flags_one_hot := by simpa using hs.flags_one_hot

/-- R213: the record of the fault raised, or of an earlier one, is in the log. -/
theorem inv_raiseFault {s : State} (hs : s.Inv) (c : Cause) (w : CmdWord) : (raiseFault c w s).Inv where
  slen_legal := (raiseFault_slen c w s) ▸ hs.slen_legal
  cbuf_wf := (raiseFault_cbuf c w s) ▸ hs.cbuf_wf
  clear_record h := by simp at h
  fault_record _ := by
    rw [raiseFault_faultLog, raiseFault_err, raiseFault_fcmd]
    cases hf : s.fault with
    | false => exact ⟨_, List.mem_cons_self, rfl, rfl⟩
    | true =>
      obtain ⟨r, hr, herr, hfcmd⟩ := hs.fault_record hf
      exact ⟨r, List.mem_cons_of_mem _ hr, herr, hfcmd⟩
  flags_one_hot := (raiseFault_flags c w s) ▸ hs.flags_one_hot

theorem inv_clearFault {s : State} (hs : s.Inv) : (clearFault s).Inv :=
  ⟨hs.slen_legal, hs.cbuf_wf, fun _ => ⟨rfl, rfl⟩, nofun, hs.flags_one_hot⟩

theorem inv_writeSlen {s : State} (hs : s.Inv) (w : BitVec 32) : (s.writeSlen w).Inv where
  slen_legal := by
    rw [writeSlen_slen, BitVec.toNat_ofNat]
    omega
  cbuf_wf := hs.cbuf_wf
  clear_record := hs.clear_record
  fault_record := hs.fault_record
  flags_one_hot := hs.flags_one_hot

theorem inv_memWrite {s : State} (hs : s.Inv) {k n : Nat} (hk : k + n ≤ 256) (v : Nat) : (s.memWrite k n v).Inv where
  slen_legal := (memWrite_slen s k n v) ▸ hs.slen_legal
  cbuf_wf := wf_memWrite s k n v hk hs.cbuf_wf
  clear_record := by simpa using hs.clear_record
  fault_record := by simpa using hs.fault_record
  flags_one_hot := (memWrite_flags s k n v) ▸ hs.flags_one_hot

/-- R240: a reset clears every register that the invariant speaks of. -/
theorem inv_resetInput (s : State) (keep : Bool) : (s.resetInput keep).Inv :=
  ⟨Nat.zero_le _, rfl, fun _ => ⟨rfl, rfl⟩, nofun, ⟨rfl, rfl, rfl⟩⟩

/-- Settles O52: the invariant does not speak of the host's events. -/
theorem invHoldsAfterReset : Obligations.InvHoldsAfterReset := fun _ =>
  ⟨Nat.zero_le _, rfl, fun _ => ⟨rfl, rfl⟩, nofun, ⟨rfl, rfl, rfl⟩⟩

/-! Commands. -/

theorem effect_keeps_inv {i : Instr} {s t : State} (h : Effect i s t) (hs : s.Inv) : t.Inv := by
  cases h with
  | register v => exact inv_writeReg hs _ v
  | registers q r => exact inv_writeReg (inv_writeReg hs _ q) _ r
  | order a b => exact inv_withFlags hs (cmpFlags_one_hot a b s.flags)
  | zeroTest a => exact inv_withFlags hs hs.flags_one_hot
  | text hfits => exact inv_placeText hs hfits
  | fault c w => exact inv_raiseFault hs c w

theorem completeCommand_keeps_inv {w : CmdWord} {s t : State} (h : completeCommand w s = .next t) (hs : s.Inv) :
    t.Inv := by
  obtain ⟨_, _, rfl⟩ | ⟨i, u, _, hexec, rfl⟩ := completeCommand_next h
  · exact inv_retire (inv_raiseFault hs _ w)
  · exact inv_retire (effect_keeps_inv (effect_of_exec hexec) hs)

/-! Accesses. -/

/-- R42, R54: an accepted access to `CBUF` ends inside it. -/
theorem chars_fit_of_locate {off width k : Nat} (h : locate off width = some (.chars k)) : k + width ≤ 256 := by
  rcases Nat.lt_or_ge off 0x100 with hctrl | hlow
  · unfold locate at h
    rw [if_pos hctrl] at h
    split_ifs at h
    split at h <;> cases h
  rcases Nat.lt_or_ge off 0x200 with hlimb | hmid
  · rw [locate_of_limb hlow hlimb] at h
    split_ifs at h <;> cases h
  by_cases hchar : 0x400 ≤ off ∧ off < 0x500
  · obtain ⟨j, rfl⟩ := Nat.exists_eq_add_of_le hchar.1
    rw [locate_of_char (by omega), Option.ite_none_right_eq_some] at h
    obtain ⟨⟨hwidth, haligned⟩, hj⟩ := h
    cases hj
    obtain rfl | rfl | rfl | rfl := hwidth <;> omega
  · rw [locate_of_reserved (by omega)] at h
    cases h

theorem writeLocation_keeps_inv {off width : Nat} {l : Location} (hl : locate off width = some l) {s : State}
    (hs : s.Inv) (d : BitVec 64) : (writeLocation s width d l).Inv := by
  cases l with
  | cmd => exact inv_withPend hs _
  | status =>
    rw [writeLocation]
    split_ifs
    · exact inv_clearFault hs
    · exact hs
  | flags | fcmd => exact hs
  | slen => exact inv_writeSlen hs _
  | limbLo | limbHi => exact inv_writeReg hs _ _
  | chars k => exact inv_memWrite hs (chars_fit_of_locate hl) d.toNat

theorem performAccess_keeps_inv {a : Access} {s t : State} (h : performAccess a s = .next t) (hs : s.Inv) : t.Inv := by
  obtain ⟨_, _, _, _, _, rfl⟩ | ⟨_, _, d, _, _, hl, rfl⟩ := performAccess_next h
  · exact inv_respond hs _ _
  · exact inv_respond (writeLocation_keeps_inv hl hs d) _ _

/-- Settles O53: by what a step can do; a reset, an access and a command keep the invariant, and the rest of a step is the
port's. -/
theorem stepKeepsInv : Obligations.StepKeepsInv := by
  intro s t hs h
  obtain ⟨keep, rest, _, rfl⟩ | ⟨a, held, rest, _, haccess⟩ | ⟨a, late, rest, w, _, _, _, rfl⟩ |
    ⟨w, rest, _, hcomplete⟩ | ⟨rest, _, _, rfl⟩ := step_cases h
  · exact inv_resetInput _ keep
  · exact performAccess_keeps_inv haccess (inv_withPort hs held rest)
  · exact inv_withPort hs _ rest
  · exact completeCommand_keeps_inv hcomplete (inv_withPort hs s.held rest)
  · exact inv_withPort hs s.held rest

end Sys2Proof.Machine
end

section
/-! PROOFS. Single steps: a reset event (70_reset_and_hazards.md R240), the core's turn (10_state.md R29), the idle core
(60_exceptions.md R226), and the host's accesses to the control registers (20_memory.md R45 to R51, R56, R58). -/

namespace Sys2Proof.Machine

open Claims

/-! Reset. -/

theorem step_of_reset {s : State} {keep : Bool} {rest : List HostEvent} (h : s.inputs = .reset keep :: rest) :
    step s = .next (State.resetInput { s with inputs := rest } keep) := by
  simp only [step, nextStep, h]

/-- Settles O2: the step is the reset, whose fields are those of `State.reset` but for the port's and the log. -/
theorem resetInputAbandonsThePendingCommand : Obligations.ResetInputAbandonsThePendingCommand := by
  intro s keep rest h
  refine ⟨_, step_of_reset h, fun i => ?regs, flagsWord_of_flags_clear rfl, statusWord_of_idle_unfaulted rfl rfl rfl,
    rfl, rfl, rfl, fun k _ => cbufByte_of_cbuf_unwritten rfl k, rfl, rfl, rfl, rfl⟩
  case regs => rw [readReg_of_regs_zero rfl i, value_zero_toNat]

/-! `STATUS` and `FLAGS` as numbers (R23, R24). -/

theorem statusWord_toNat (s : State) :
    (statusWord s).toNat = (if busy s then 1 else 0) + (if s.fault then 2 else 0) + 16 * s.err.toNat := by
  have herr := s.err.isLt
  rw [statusWord, BitVec.toNat_ofNat, bitAt, bitAt]
  split_ifs <;> omega

theorem flagsWord_toNat (s : State) :
    (flagsWord s).toNat = (if s.flags.eq then 1 else 0) + (if s.flags.lt then 2 else 0) + (if s.flags.gt then 4 else 0) +
      (if s.flags.nz then 8 else 0) := by
  rw [flagsWord, BitVec.toNat_ofNat, bitAt, bitAt, bitAt, bitAt]
  split_ifs <;> rfl

/-- `BUSY` is bit 0 of `STATUS`. -/
theorem statusWord_getLsbD_zero (s : State) : (statusWord s).getLsbD 0 = busy s := by
  rw [BitVec.getLsbD, statusWord_toNat, Nat.testBit_zero]
  cases busy s with
  | false =>
    simp only [Bool.false_eq_true, ↓reduceIte, decide_eq_false_iff_not]
    split_ifs <;> omega
  | true =>
    simp only [↓reduceIte, decide_eq_true_eq]
    split_ifs <;> omega

/-! The core's turn. -/

/-- The fault record does not depend on `PEND`. -/
theorem retire_raiseFault (c : Cause) (w : CmdWord) (s : State) :
    retire (raiseFault c w s) = raiseFault c w (retire s) := by
  cases hfault : s.fault with
  | false => simp [raiseFault, retire, hfault]
  | true => simp [raiseFault, retire, hfault]

/-- Settles O8: in the core's turn a step completes the pending word, legal or not, and empties `PEND`. -/
theorem stepCompletesThePendingCommand : Obligations.StepCompletesThePendingCommand := by
  intro s w rest hp hturn
  have hstep := step_of_coreTurn hp hturn
  refine ⟨fun i t hd hexec => ⟨hstep.trans (completeCommand_of_exec hd hexec), statusWord_getLsbD_zero (retire t)⟩,
    fun e hd => ⟨_, hstep.trans (completeCommand_of_error hd _), statusWord_getLsbD_zero (retire _), ?fault⟩⟩
  case fault =>
    rw [retire_raiseFault]
    exact raisesOnly_raiseFault .illegalCommand w _

/-- The word that `withFetchWord` latches from all 32 bits of a command word is that word. -/
theorem withFetchWord_eq_latchCommand (s : State) (w : CmdWord) : s.withFetchWord 32 w.toNat = latchCommand s w := by
  rw [State.withFetchWord, Nat.mod_eq_of_lt w.isLt, BitVec.ofNat_toNat, BitVec.setWidth_eq]

/-- Settles O9: the latched word is pending, and the idle slot before the other events is the core's turn. -/
theorem withFetchWordRunsTheWord : Obligations.WithFetchWordRunsTheWord := by
  intro s t w i hd hexec
  rw [withFetchWord_eq_latchCommand, step_of_pending_idle (latchCommand_pend s w) (latchCommand_inputs s w)]
  exact completeCommand_of_exec hd hexec

theorem step_of_quiet_no_event {s : State} (hq : Quiet s) (h : s.inputs = []) : step s = .next s := by
  obtain ⟨hpend, hheld⟩ := hq
  simp only [step, nextStep, h, ownWork, hpend, hheld]
  rw [← h, ← hpend, ← hheld]

theorem step_of_quiet_idle {s : State} {rest : List HostEvent} (hq : Quiet s) (h : s.inputs = .idle :: rest) :
    step s = .next { s with inputs := rest } := by
  obtain ⟨hpend, hheld⟩ := hq
  simp only [step, nextStep, h, ownWork, hpend, hheld]

/-- Settles O51: with nothing to do of its own, the core lets an idle slot pass. -/
theorem idleCoreKeepsAllState : Obligations.IdleCoreKeepsAllState := fun _ hq =>
  ⟨step_of_quiet_no_event hq, fun _ => step_of_quiet_idle hq⟩

/-! Reads of the control registers. -/

/-- A 32-bit register is read zero-extended. -/
theorem register_data {w : BitVec 32} {n : Nat} (h : w.toNat = n) : w.setWidth 64 = BitVec.ofNat 64 n := by
  rw [← h, BitVec.ofNat_toNat]

theorem busy_of_pend_none {s : State} (h : s.pend = none) : busy s = false := by
  rw [busy, h, Option.isSome_none]

theorem busy_of_pend_some {s : State} {w : CmdWord} (h : s.pend = some w) : busy s = true := by
  rw [busy, h, Option.isSome_some]

theorem statusWord_data_of_pend_none {s : State} (h : s.pend = none) :
    (statusWord s).setWidth 64 = BitVec.ofNat 64 ((if s.fault then 2 else 0) + 16 * s.err.toNat) := by
  refine register_data ((statusWord_toNat s).trans ?_)
  rw [busy_of_pend_none h, if_neg Bool.false_ne_true, Nat.zero_add]

theorem statusWord_data_of_pend_some {s : State} {w : CmdWord} (h : s.pend = some w) :
    (statusWord s).setWidth 64 = BitVec.ofNat 64 (1 + (if s.fault then 2 else 0) + 16 * s.err.toNat) := by
  refine register_data ((statusWord_toNat s).trans ?_)
  rw [busy_of_pend_some h, if_pos rfl]

/-- Settles O42: each offset locates its register, whose data the read answers. -/
theorem hostReadsControlRegisters : Obligations.HostReadsControlRegisters := by
  intro s late rest hq
  have hpend : ({ s with inputs := rest } : State).pend = none := hq.1
  refine ⟨fun h => ?cmd, fun h => ?status, fun h => ?flags, fun h => ?slen, fun h => ?fcmd⟩
  case cmd => exact step_of_quiet_read hq (l := .cmd) rfl h
  case status =>
    rw [step_of_quiet_read hq (l := .status) rfl h, readLocation, statusWord_data_of_pend_none hpend]
  case flags =>
    rw [step_of_quiet_read hq (l := .flags) rfl h, readLocation, register_data (flagsWord_toNat _)]
  case slen => rw [step_of_quiet_read hq (l := .slen) rfl h, readLocation, register_data rfl]
  case fcmd => rw [step_of_quiet_read hq (l := .fcmd) rfl h, readLocation, register_data rfl]

/-! Writes of the control registers. -/

/-- The data of a 32-bit write is the word. -/
theorem data_setWidth (w : CmdWord) : (BitVec.ofNat 64 w.toNat).setWidth 32 = w := by
  rw [BitVec.ofNat_toNat, BitVec.setWidth_setWidth_of_le w (by decide), BitVec.setWidth_eq]

theorem data_getLsbD_one_iff (w : CmdWord) : (BitVec.ofNat 64 w.toNat).getLsbD 1 = true ↔ w.toNat / 2 % 2 = 1 := by
  rw [BitVec.getLsbD_ofNat, Nat.testBit_succ, Nat.testBit_zero]
  simp

/-- Settles O43: each offset locates its register, and the write does what the register's rule says. -/
theorem hostWritesControlRegisters : Obligations.HostWritesControlRegisters := by
  intro s w late rest hq
  refine ⟨fun h => ?status, fun h => ?flags, fun h => ?fcmd,
    fun h => ⟨_, step_of_quiet_write hq (l := .slen) rfl h, ?slen, rfl⟩⟩
  case status =>
    rw [step_of_quiet_write hq (l := .status) rfl h, writeLocation]
    by_cases hbit : w.toNat / 2 % 2 = 1
    · rw [if_pos ((data_getLsbD_one_iff w).mpr hbit), if_pos hbit]
      rfl
    · rw [if_neg (mt (data_getLsbD_one_iff w).mp hbit), if_neg hbit]
      rfl
  case flags => exact step_of_quiet_write hq (l := .flags) rfl h
  case fcmd => exact step_of_quiet_write hq (l := .fcmd) rfl h
  case slen =>
    rw [writeLocation, respond_slen, writeSlen_slen, data_setWidth, BitVec.toNat_ofNat]
    omega

/-- Settles O45: offset 0 locates `CMD`, whose write latches the word. -/
theorem cmdWriteFillsPend : Obligations.CmdWriteFillsPend := by
  intro s w late rest hq h
  have hstep := step_of_quiet_write hq (l := .cmd) rfl h
  rw [writeLocation, data_setWidth] at hstep
  exact ⟨_, hstep, rfl, (statusWord_getLsbD_zero _).trans (busy_of_pend_some rfl), rfl⟩

/-! Reads have no side effect (R58). -/

theorem performAccess_read_next {off : BitVec 12} {width : Nat} {s t : State}
    (h : performAccess (.read off width) s = .next t) :
    ∃ r, t = { s with responses := ⟨.read off width, r⟩ :: s.responses } := by
  obtain ⟨_, _, _, ha, _, rfl⟩ | ⟨_, _, _, _, ha, _, _⟩ := performAccess_next h
  · cases ha
    exact ⟨_, rfl⟩
  · cases ha

/-- A late `STATUS` read goes before the held accesses (log 4). -/
theorem step_of_late_status {s : State} {rest : List HostEvent} (hp : s.pend = none)
    (h : NextAccess s (.read 0x004 4) true rest) : step s = performAccess (.read 0x004 4) { s with inputs := rest } := by
  have hin : s.inputs = .access (.read 0x004 4) true :: rest := h
  by_cases hheld : s.held = []
  · exact step_of_quiet_access ⟨hp, hheld⟩ h
  · obtain ⟨a, as, hheld⟩ := List.exists_cons_of_ne_nil hheld
    simp only [step, nextStep, hin, portAccess, hp, hheld]
    rfl

/-- Settles O46: each of the four steps performs the read, which only answers. -/
theorem readsHaveNoSideEffect : Obligations.ReadsHaveNoSideEffect := by
  intro s t off width
  refine ⟨performAccess_read_next, fun late rest hq hnext h => ?accepted, fun hs hp hheld hreset hlate h => ?oldest,
    fun late rest hlate hnext h => ?status⟩
  case accepted =>
    rw [step_of_quiet_access hq hnext] at h
    exact performAccess_read_next h
  case oldest =>
    rw [step_of_held hp hheld hreset hlate] at h
    exact performAccess_read_next h
  case status =>
    subst hlate
    cases hp : s.pend with
    | none =>
      rw [hp] at hnext
      rw [step_of_late_status hp hnext] at h
      exact hp ▸ performAccess_read_next h
    | some w =>
      rw [hp] at hnext
      rw [step_of_pending_early hp hnext] at h
      exact hp ▸ performAccess_read_next h

/-! `STATUS` read while `PEND` is full (R56). -/

theorem completeCommand_pend {w : CmdWord} {s t : State} (h : completeCommand w s = .next t) : t.pend = none := by
  obtain ⟨_, _, rfl⟩ | ⟨_, _, _, _, rfl⟩ := completeCommand_next h <;> rfl

theorem completeCommand_inputs {w : CmdWord} {s t : State} (h : completeCommand w s = .next t) :
    t.inputs = s.inputs := by
  obtain ⟨_, _, rfl⟩ | ⟨i, u, _, hexec, rfl⟩ := completeCommand_next h
  · rw [retire_inputs, raiseFault_inputs]
  · obtain ⟨_, _, hinputs, _⟩ := effect_port (effect_of_exec hexec)
    exact hinputs

theorem performAccess_status (s : State) :
    performAccess (.read 0x004 4) s = .next (s.respond (.read 0x004 4) (.data ((statusWord s).setWidth 64))) :=
  performAccess_read (l := .status) rfl s

/-- Settles O48: an early read is answered at once; before a late one the core completes the command, which leaves the
read next. -/
theorem statusReadSeesBeforeOrAfter : Obligations.StatusReadSeesBeforeOrAfter := by
  intro s w rest hp
  refine ⟨fun h => ?before, fun h => ?after⟩
  case before =>
    rw [step_of_pending_early hp h, performAccess_status,
      statusWord_data_of_pend_some (s := { s with inputs := rest }) hp]
    rfl
  case after =>
    obtain ⟨t, ht⟩ := completeCommand_answers w s
    have hpend := completeCommand_pend ht
    have hnext : NextAccess t (.read 0x004 4) true rest := (completeCommand_inputs ht).trans h
    refine ⟨t, ht, (step_of_pending_late hp h).trans ht, hpend, completeCommand_held ht, ?_⟩
    rw [step_of_late_status hpend hnext, performAccess_status,
      statusWord_data_of_pend_none (s := { t with inputs := rest }) hpend]
    rfl

end Sys2Proof.Machine
end

section
/-! PROOFS. The arithmetic of numbers behind the units (41_arith.md, 42_logic_shift.md, 43_divide.md, 45_compare.md, the lines
marked derived): addition, subtraction, negation, shifts, division and order of the numbers that values stand for. -/

namespace Sys2Proof.Machine

open Claims

/-! Addition, subtraction, negation (41_arith.md sections 1 and 2). -/

theorem valueNeg_eq_not_add_one (a : Value) : valueNeg a = valueAdd (valueNot a) Value.one := rfl

theorem valueNeg_toNat (a : Value) : (valueNeg a).toNat = (2 ^ 128 - a.toNat) % 2 ^ 128 := by
  have ha := value_toNat_lt a
  rw [valueNeg_eq_not_add_one, valueAdd_toNat, valueNot_toNat, value_one_toNat]
  omega

/-- Settles O17: each command is the register write of its unit's value, whose number is that of the operation. -/
theorem addSubNegWrapModulo : Obligations.AddSubNegWrapModulo := fun _ _ _ _ =>
  ⟨⟨_, valueAdd_toNat _ _, writes_of_exec_eq rfl⟩, ⟨_, valueSub_toNat _ _, writes_of_exec_eq rfl⟩,
    ⟨_, valueNeg_toNat _, writes_of_exec_eq rfl⟩⟩

/-! The laws of the units (R115), each from the same law of numbers modulo 2^128. -/

theorem valueAdd_zero (a : Value) : valueAdd a Value.zero = a := by
  apply value_eq_of_toNat_eq
  rw [valueAdd_toNat, value_zero_toNat, Nat.add_zero, Nat.mod_eq_of_lt (value_toNat_lt a)]

theorem valueMul_one (a : Value) : valueMul a Value.one = a := by
  apply value_eq_of_toNat_eq
  rw [valueMul_toNat, value_one_toNat, Nat.mul_one, Nat.mod_eq_of_lt (value_toNat_lt a)]

theorem valueSub_self (a : Value) : valueSub a a = Value.zero := by
  apply value_eq_of_toNat_eq
  rw [valueSub_toNat, value_zero_toNat, Nat.add_sub_cancel_left, Nat.mod_self]

theorem valueXor_self (a : Value) : valueXor a a = Value.zero := by
  rw [valueXor, BitVec.xor_self, BitVec.xor_self]
  rfl

theorem valueNot_not (a : Value) : valueNot (valueNot a) = a := by
  rw [valueNot, valueNot, BitVec.not_not, BitVec.not_not]

theorem valueSub_add_cancel (a b : Value) : valueSub (valueAdd a b) b = a := by
  have ha := value_toNat_lt a
  have hb := value_toNat_lt b
  apply value_eq_of_toNat_eq
  rw [valueSub_toNat, valueAdd_toNat]
  omega

theorem valueAdd_comm (a b : Value) : valueAdd a b = valueAdd b a := by
  apply value_eq_of_toNat_eq
  rw [valueAdd_toNat, valueAdd_toNat, Nat.add_comm]

theorem valueMul_comm (a b : Value) : valueMul a b = valueMul b a := by
  apply value_eq_of_toNat_eq
  rw [valueMul_toNat, valueMul_toNat, Nat.mul_comm]

theorem valueMul_assoc (a b c : Value) : valueMul (valueMul a b) c = valueMul a (valueMul b c) := by
  apply value_eq_of_toNat_eq
  simp only [valueMul_toNat, Nat.mod_mul_mod, Nat.mul_mod_mod, Nat.mul_assoc]

theorem valueMul_add (a b c : Value) : valueMul a (valueAdd b c) = valueAdd (valueMul a b) (valueMul a c) := by
  apply value_eq_of_toNat_eq
  simp only [valueMul_toNat, valueAdd_toNat, Nat.mul_mod_mod, Nat.add_mod_mod, Nat.mod_add_mod, Nat.mul_add]

theorem valueNeg_eq_zero_sub (a : Value) : valueNeg a = valueSub Value.zero a := by
  apply value_eq_of_toNat_eq
  rw [valueNeg_toNat, valueSub_toNat, value_zero_toNat, Nat.zero_add]

/-- Settles O18: the laws one by one. -/
theorem arithmeticLaws : Obligations.ArithmeticLaws := fun a b c =>
  ⟨valueAdd_zero a, valueMul_one a, valueSub_self a, valueXor_self a, valueNot_not a, valueSub_add_cancel a b,
    valueAdd_comm a b, valueMul_comm a b, valueMul_assoc a b c, valueMul_add a b c, valueNeg_eq_zero_sub a,
    valueNeg_eq_not_add_one a⟩

/-! Shifts (R134 to R137). -/

theorem limb_shiftLeft_toNat (x : Limb) (n : Nat) : (x <<< n).toNat = x.toNat * 2 ^ n % 2 ^ 64 := by
  rw [BitVec.toNat_shiftLeft, Nat.shiftLeft_eq]

theorem limb_shiftRight_toNat (x : Limb) (n : Nat) : (x >>> n).toNat = x.toNat / 2 ^ n := by
  rw [BitVec.toNat_ushiftRight, Nat.shiftRight_eq_div_pow]

/-- The bits that one limb leaves free are those that come in from the other, so the two parts add up. -/
theorem limb_funnel_toNat (h l : Limb) {k : Nat} (hk : k ≤ 64) :
    ((h <<< k) ||| (l >>> (64 - k))).toNat = h.toNat * 2 ^ k % 2 ^ 64 + l.toNat / 2 ^ (64 - k) := by
  have hpow : 2 ^ 64 = 2 ^ (64 - k) * 2 ^ k := by rw [← Nat.pow_add, Nat.sub_add_cancel hk]
  have hlow : l.toNat / 2 ^ (64 - k) < 2 ^ k := Nat.div_lt_of_lt_mul (hpow ▸ l.isLt)
  have hhigh : h.toNat * 2 ^ k % 2 ^ 64 = 2 ^ k * (h.toNat % 2 ^ (64 - k)) := by
    rw [hpow, Nat.mul_mod_mul_right, Nat.mul_comm]
  rw [BitVec.toNat_or, limb_shiftLeft_toNat, limb_shiftRight_toNat, hhigh, Nat.two_pow_add_eq_or_of_lt hlow]

/-- R135: the left shift by its four cases multiplies by a power of two, modulo 2^128. -/
theorem shiftLeftBy_toNat (a : Value) {n : Nat} (hn : n < 128) :
    (shiftLeftBy a n).toNat = a.toNat * 2 ^ n % 2 ^ 128 := by
  unfold shiftLeftBy
  split_ifs with hzero hlow heq
  · rw [hzero, Nat.pow_zero, Nat.mul_one, Nat.mod_eq_of_lt (value_toNat_lt a)]
  · have hcarry : a.lo.toNat / 2 ^ (64 - n) = a.lo.toNat * 2 ^ n / 2 ^ 64 := by
      rw [← Nat.mul_div_mul_right _ _ (Nat.two_pow_pos n), ← Nat.pow_add, Nat.sub_add_cancel hlow.le]
    have hdistrib : (a.hi.toNat * 2 ^ 64 + a.lo.toNat) * 2 ^ n = a.hi.toNat * 2 ^ n * 2 ^ 64 + a.lo.toNat * 2 ^ n := by
      ring
    have hfits := (a.hi <<< n ||| a.lo >>> (64 - n)).isLt
    rw [limb_funnel_toNat a.hi a.lo hlow.le, hcarry] at hfits
    rw [Value.toNat, limb_funnel_toNat a.hi a.lo hlow.le, limb_shiftLeft_toNat, hcarry, Value.toNat, hdistrib]
    omega
  · simp only [heq, Value.toNat, BitVec.ofNat_eq_ofNat, BitVec.toNat_ofNat]
    omega
  · have hdistrib : (a.hi.toNat * 2 ^ 64 + a.lo.toNat) * 2 ^ n =
        a.hi.toNat * 2 ^ (n - 64) * 2 ^ 128 + a.lo.toNat * 2 ^ (n - 64) * 2 ^ 64 := by
      obtain ⟨m, rfl⟩ := Nat.exists_eq_add_of_le (by omega : 64 ≤ n)
      rw [Nat.add_sub_cancel_left, Nat.pow_add]
      ring
    simp only [Value.toNat, limb_shiftLeft_toNat, hdistrib, BitVec.ofNat_eq_ofNat, BitVec.toNat_ofNat]
    omega

/-- R136: the right shift by its four cases divides by a power of two. -/
theorem shiftRightBy_toNat (a : Value) (n : Nat) : (shiftRightBy a n).toNat = a.toNat / 2 ^ n := by
  unfold shiftRightBy
  split_ifs with hzero hlow heq
  · rw [hzero, Nat.pow_zero, Nat.div_one]
  · have hpow : 2 ^ 64 = 2 ^ (64 - n) * 2 ^ n := by rw [← Nat.pow_add, Nat.sub_add_cancel hlow.le]
    have hupper : a.hi.toNat / 2 ^ n = a.hi.toNat * 2 ^ (64 - n) / 2 ^ 64 := by
      rw [hpow, Nat.mul_comm (2 ^ (64 - n)), Nat.mul_div_mul_right _ _ (Nat.two_pow_pos _)]
    have hall : (a.hi.toNat * 2 ^ 64 + a.lo.toNat) / 2 ^ n = a.hi.toNat * 2 ^ (64 - n) + a.lo.toNat / 2 ^ n := by
      rw [hpow, ← Nat.mul_assoc, Nat.mul_comm _ (2 ^ n), Nat.mul_add_div (Nat.two_pow_pos n)]
    have hjoin := limb_funnel_toNat a.hi a.lo (Nat.sub_le 64 n)
    rw [Nat.sub_sub_self hlow.le] at hjoin
    rw [Value.toNat, BitVec.or_comm, hjoin, limb_shiftRight_toNat, hupper, Value.toNat, hall]
    omega
  · simp only [heq, Value.toNat, BitVec.ofNat_eq_ofNat, BitVec.toNat_ofNat]
    omega
  · have hlo : (a.hi.toNat * 2 ^ 64 + a.lo.toNat) / 2 ^ 64 = a.hi.toNat := by
      have := a.lo.isLt
      omega
    obtain ⟨m, rfl⟩ := Nat.exists_eq_add_of_le (by omega : 64 ≤ n)
    rw [Value.toNat, limb_shiftRight_toNat, Value.toNat, Nat.pow_add, ← Nat.div_div_eq_div_mul, hlo,
      Nat.add_sub_cancel_left, BitVec.ofNat_eq_ofNat, BitVec.toNat_ofNat, Nat.zero_mod, Nat.zero_mul, Nat.zero_add]

theorem valueShl_of_lt {n : Value} (hn : n.toNat < 128) (a : Value) : valueShl a n = shiftLeftBy a n.toNat := by
  rw [valueShl, shiftOperand_eq, if_pos hn]

theorem valueShr_of_lt {n : Value} (hn : n.toNat < 128) (a : Value) : valueShr a n = shiftRightBy a n.toNat := by
  rw [valueShr, shiftOperand_eq, if_pos hn]

theorem valueShl_of_ge {n : Value} (hn : 128 ≤ n.toNat) (a : Value) : valueShl a n = Value.zero := by
  rw [valueShl, shiftOperand_eq, if_neg (not_lt.mpr hn)]

theorem valueShr_of_ge {n : Value} (hn : 128 ≤ n.toNat) (a : Value) : valueShr a n = Value.zero := by
  rw [valueShr, shiftOperand_eq, if_neg (not_lt.mpr hn)]

theorem valueShl_toNat (a n : Value) :
    (valueShl a n).toNat = if n.toNat < 128 then a.toNat * 2 ^ n.toNat % 2 ^ 128 else 0 := by
  split_ifs with hn
  · rw [valueShl_of_lt hn, shiftLeftBy_toNat a hn]
  · rw [valueShl_of_ge (not_lt.mp hn), value_zero_toNat]

theorem valueShr_toNat (a n : Value) :
    (valueShr a n).toNat = if n.toNat < 128 then a.toNat / 2 ^ n.toNat else 0 := by
  split_ifs with hn
  · rw [valueShr_of_lt hn, shiftRightBy_toNat]
  · rw [valueShr_of_ge (not_lt.mp hn), value_zero_toNat]

/-- Settles O22: each shift is the register write of its unit's value, whose number is that of the scaling. -/
theorem shiftsScaleByPowersOfTwo : Obligations.ShiftsScaleByPowersOfTwo := fun _ _ _ _ =>
  ⟨⟨_, writes_of_exec_eq rfl, valueShl_toNat _ _⟩, ⟨_, writes_of_exec_eq rfl, valueShr_toNat _ _⟩⟩

/-- R130: the limb-wise AND is that of the numbers. -/
theorem valueAnd_toNat (a b : Value) : (valueAnd a b).toNat = a.toNat &&& b.toNat := by
  refine Nat.eq_of_testBit_eq fun i => ?_
  rw [Nat.testBit_and, ← value_bit_eq_testBit, ← value_bit_eq_testBit, ← value_bit_eq_testBit]
  simp only [Value.bit, valueAnd]
  split_ifs <;> exact BitVec.getLsbD_and

/-- R137: shifting left and back keeps the low `128 - n` bits. -/
theorem valueShr_valueShl {n : Value} (hn : n.toNat < 128) (a : Value) :
    valueShr (valueShl a n) n = valueAnd a (Value.ofNat (2 ^ (128 - n.toNat) - 1)) := by
  have hpow : 2 ^ 128 = 2 ^ (128 - n.toNat) * 2 ^ n.toNat := by rw [← Nat.pow_add, Nat.sub_add_cancel hn.le]
  have hmask : 2 ^ (128 - n.toNat) - 1 < 2 ^ 128 :=
    (Nat.sub_one_lt (Nat.two_pow_pos _).ne').trans_le (Nat.pow_le_pow_right Nat.two_pos (Nat.sub_le _ _))
  apply value_eq_of_toNat_eq
  rw [valueShr_toNat, if_pos hn, valueShl_toNat, if_pos hn, valueAnd_toNat, value_ofNat_toNat, Nat.mod_eq_of_lt hmask,
    Nat.and_two_pow_sub_one_eq_mod, hpow, Nat.mul_mod_mul_right, Nat.mul_div_cancel _ (Nat.two_pow_pos _)]

theorem value_toNat_64 : (⟨0, 64⟩ : Value).toNat = 64 := rfl

/-- Settles O23: the amounts 0, 64 and 128 select a case of the shift, and the last law is that of the numbers. -/
theorem shiftLaws : Obligations.ShiftLaws := by
  refine fun a n => ⟨?shlZero, ?shrZero, fun hn => ⟨valueShl_of_ge hn a, valueShr_of_ge hn a⟩, ?shl64, ?shr64,
    fun hn => valueShr_valueShl hn a⟩
  case shlZero => rw [valueShl_of_lt (by decide), value_zero_toNat, shiftLeftBy, if_pos rfl]
  case shrZero => rw [valueShr_of_lt (by decide), value_zero_toNat, shiftRightBy, if_pos rfl]
  case shl64 =>
    rw [valueShl_of_lt (by decide), value_toNat_64]
    rfl
  case shr64 =>
    rw [valueShr_of_lt (by decide), value_toNat_64]
    rfl

/-! Division (43_divide.md R151 to R154). -/

theorem value_ofNat_toNat_of_le {n : Nat} {a : Value} (h : n ≤ a.toNat) : (Value.ofNat n).toNat = n := by
  rw [value_ofNat_toNat, Nat.mod_eq_of_lt (h.trans_lt (value_toNat_lt a))]

/-- Settles O24: on a nonzero divisor the commands write what the divider answers, the quotient and the remainder. -/
theorem divisionWritesFloorAndRemainder : Obligations.DivisionWritesFloorAndRemainder := by
  intro rd rd2 rs1 rs2 s hnz
  refine ⟨_, _, value_ofNat_toNat_of_le (Nat.div_le_self _ _), value_ofNat_toNat_of_le (Nat.mod_le _ _),
    writes_of_exec_eq (exec_divu_of_ne_zero hnz rd rs1), writes_of_exec_eq (exec_remu_of_ne_zero hnz rd rs1),
    fun hne => ⟨_, exec_divmod_of_ne_zero hne hnz rs1, ?quotient, readReg_writeReg_same _ rd2 _, fun x h1 h2 => ?others,
      ⟨rfl, fun _ => rfl⟩⟩⟩
  case quotient => rw [readReg_writeReg_other _ _ hne.symm, readReg_writeReg_same]
  case others => rw [readReg_writeReg_other _ _ h2.symm, readReg_writeReg_other _ _ h1.symm]

/-- Settles O25: on a zero divisor each command raises the fault of its own word. -/
theorem divisionByZeroWritesNoDestination : Obligations.DivisionByZeroWritesNoDestination := by
  intro rd rd2 rs1 rs2 s hz
  refine ⟨encodedAs_of_wellFormed rfl rfl, encodedAs_of_wellFormed rfl rfl,
    ⟨_, exec_divu_of_zero hz rd rs1, raisesOnly_raiseFault .divideByZero _ s⟩,
    ⟨_, exec_remu_of_zero hz rd rs1, raisesOnly_raiseFault .divideByZero _ s⟩, fun hne => ?divmod⟩
  case divmod =>
    have hword : Instr.opcode (.divmod rd rd2 rs1 rs2) + Instr.operandFields (.divmod rd rd2 rs1 rs2) =
        0x12 + regFields rd rs1 rs2 + rd2.val * 2 ^ 20 := (Nat.add_assoc _ _ _).symm
    refine ⟨encodedAs_of_wellFormed (bne_iff_ne.mpr hne) hword, _, exec_divmod_of_zero hne hz rs1, ?_⟩
    rw [encode, hword]
    exact raisesOnly_raiseFault .divideByZero _ s

/-! Order (45_compare.md R200). -/

theorem valueEq_iff (a b : Value) : valueEq a b = true ↔ a.toNat = b.toNat :=
  (valueEq_iff_limbs a b).trans ⟨fun ⟨hhi, hlo⟩ => by rw [Value.toNat, hhi, hlo, Value.toNat],
    fun h => value_eq_of_toNat_eq h ▸ ⟨rfl, rfl⟩⟩

theorem cmpFlags_gt_iff_lt (a b : Value) (f : Flags) : (cmpFlags a b f).gt = true ↔ b.toNat < a.toNat := by
  rw [cmpFlags_gt_iff, cmpFlags_eq, cmpFlags_lt, ← Bool.not_eq_true, ← Bool.not_eq_true, valueEq_iff, valueLt_iff]
  omega

/-- R23, R200: bits 2:0 of `FLAGS` after `CMP`, as a number, and the bits above them. -/
theorem flagsWord_cmpFlags (a b : Value) {s t : State} (h : t.flags = cmpFlags a b s.flags) :
    (flagsWord t).toNat = (if a.toNat = b.toNat then 1 else if a.toNat < b.toNat then 2 else 4) +
      (if s.flags.nz then 8 else 0) := by
  rw [flagsWord_toNat, h, cmpFlags_nz, if_congr (cmpFlags_gt_iff_lt a b s.flags) rfl rfl, cmpFlags_eq, cmpFlags_lt,
    if_congr (valueEq_iff a b) rfl rfl, if_congr (valueLt_iff a b) rfl rfl]
  split_ifs <;> omega

/-- Settles O28: bits 2:0 hold one of 1, 2 and 4, and `NZ` stands above them. -/
theorem cmpIsTheUnsignedOrder : Obligations.CmpIsTheUnsignedOrder := by
  intro rs1 rs2 s
  refine ⟨_, exec_cmp rs1 rs2 s, ?_⟩
  rw [flagsWord_cmpFlags (s.readReg rs1) (s.readReg rs2) (s := s) rfl]
  split_ifs <;> exact ⟨rfl, rfl⟩

end Sys2Proof.Machine
end

section
/-! PROOFS. The codec's round trip (44_codec.md R174, R181): the text of a value is the text of its digits, no character of
which ends the text or is skipped, and the window keeps every digit that is not a leading zero. -/

namespace Sys2Proof.Machine

open Claims

/-! The digits of a rendered text. -/

/-- The text of digits listed from the least significant one on. -/
def digitText (digits : List Nat) : List Byte := digits.reverse.map digitChar

/-- The digits that `rendered` writes, the least significant first, the padding last. -/
def renderedDigits (base a m : Nat) : List Nat :=
  let digits := if a = 0 then [0] else Nat.digits base a
  digits ++ List.replicate (m - digits.length) 0

theorem rendered_eq_digitText (base a m : Nat) : rendered base a m = digitText (renderedDigits base a m) := by
  unfold rendered renderedDigits digitText
  split_ifs <;> simp

theorem renderedDigits_lt {base a m d : Nat} (hbase : 2 ≤ base) (hd : d ∈ renderedDigits base a m) : d < base := by
  unfold renderedDigits at hd
  rcases List.mem_append.mp hd with hd | hd
  · split_ifs at hd
    · rw [List.mem_singleton.mp hd]
      omega
    · exact Nat.digits_lt_base hbase hd
  · rw [List.eq_of_mem_replicate hd]
    omega

theorem ofDigits_renderedDigits (base a m : Nat) : Nat.ofDigits base (renderedDigits base a m) = a := by
  rw [renderedDigits, Nat.ofDigits_append_replicate_zero]
  split_ifs with hzero
  · rw [hzero, Nat.ofDigits_singleton]
  · exact Nat.ofDigits_digits base a

@[simp] theorem digitText_length (digits : List Nat) : (digitText digits).length = digits.length := by
  simp [digitText]

theorem renderedDigits_length_pos {base a m : Nat} : 0 < (renderedDigits base a m).length := by
  unfold renderedDigits
  split_ifs with hzero
  · simp
  · have := List.length_pos_of_ne_nil (Nat.digits_ne_nil_iff_ne_zero.mpr hzero : Nat.digits base a ≠ [])
    rw [List.length_append]
    omega

theorem le_renderedDigits_length (base a m : Nat) : m ≤ (renderedDigits base a m).length := by
  rw [renderedDigits, List.length_append, List.length_replicate]
  omega

/-- Settles O31: `SLEN` is the number of digits and padding, which fit `CBUF`. -/
theorem renderedTextFitsTheBuffer : Obligations.RenderedTextFitsTheBuffer := by
  intro rs1 base m s h2 h16
  have hfits := rendered_length_le h2 (value_toNat_lt (s.readReg rs1)) m.isLt
  have hlen := placeText_slen_toNat hfits s
  rw [rendered_eq_digitText, digitText_length] at hlen hfits
  refine ⟨_, exec_strenc_of_base h2 h16 rs1 m s, ?_⟩
  rw [rendered_eq_digitText, hlen]
  exact ⟨renderedDigits_length_pos, hfits, le_renderedDigits_length _ _ _⟩

/-! The text that `STRDEC` reads back. -/

/-- No digit's character is NUL or whitespace. -/
theorem digitChar_visible : ∀ d < 16, digitChar d ≠ 0 ∧ (digitChar d).toNat ∉ [0x20, 0x09, 0x0A, 0x0B, 0x0C, 0x0D] := by
  decide

theorem bytes_placeText {t : List Byte} (hfits : t.length ≤ 255) (s : State) :
    (List.range (placeText t s).slen.toNat).map (placeText t s).cbufByte = t := by
  rw [placeText_slen_toNat hfits]
  refine List.ext_getElem (by simp) fun k _ hk => ?_
  rw [List.getElem_map, List.getElem_range, cbufByte_placeText, if_pos hk, List.getD_eq_getElem _ _ hk]

/-- R175: the whole text is parsed when no character of it is NUL or whitespace. -/
theorem parsedText_placeText {t : List Byte} (hfits : t.length ≤ 255)
    (hvisible : ∀ c ∈ t, c ≠ 0 ∧ c.toNat ∉ [0x20, 0x09, 0x0A, 0x0B, 0x0C, 0x0D]) (s : State) :
    parsedText (placeText t s) = t := by
  rw [parsedText, bytes_placeText hfits, List.takeWhile_eq_self_iff.mpr fun c hc => bne_iff_ne.mpr (hvisible c hc).1,
    List.dropWhile_eq_self_iff]
  intro hpos
  rw [decide_eq_true_eq]
  exact (hvisible _ (List.getElem_mem hpos)).2

/-! The parts of a text of digits. -/

theorem digitText_take (digits : List Nat) (n : Nat) :
    (digitText digits).take ((digitText digits).length - n) = digitText (digits.drop n) := by
  rw [digitText_length, digitText, ← List.map_take, ← List.reverse_drop, digitText]

theorem digitText_drop (digits : List Nat) (n : Nat) :
    (digitText digits).drop ((digitText digits).length - n) = digitText (digits.take n) := by
  rw [digitText_length, digitText, ← List.map_drop, ← List.reverse_take, digitText]

theorem lastChars_digitText (n : Nat) (digits : List Nat) : lastChars n (digitText digits) = digitText (digits.take n) :=
  (window_eq n _).symm.trans (digitText_drop digits n)

/-! The number that a text of digits writes. -/

/-- The character of a digit stands for that digit in each base that `STRDEC` parses. -/
theorem digitValue_digitChar : ∀ base ∈ [2, 8, 10, 16], ∀ d < base, digitValue base (digitChar d) = some d := by
  decide

theorem prefixNumberFrom_digits {base : Nat} (hbase : base ∈ [2, 8, 10, 16]) (v : Nat) {digits : List Nat}
    (hlt : ∀ d ∈ digits, d < base) :
    prefixNumberFrom base v (digits.map digitChar) = digits.foldl (fun v d => v * base + d) v := by
  induction digits generalizing v with
  | nil => rfl
  | cons d rest ih =>
    rw [List.map_cons, prefixNumberFrom_cons_digit (digitValue_digitChar base hbase d (hlt d List.mem_cons_self)),
      ih _ fun e he => hlt e (List.mem_cons_of_mem d he), List.foldl_cons]

theorem prefixNumber_digitText {base : Nat} (hbase : base ∈ [2, 8, 10, 16]) {digits : List Nat}
    (hlt : ∀ d ∈ digits, d < base) : prefixNumber base (digitText digits) = Nat.ofDigits base digits := by
  rw [prefixNumber_eq, digitText, prefixNumberFrom_digits hbase 0 fun d hd => hlt d (List.mem_reverse.mp hd),
    List.foldl_reverse, Nat.ofDigits_eq_foldr]
  simp only [Nat.mul_comm, Nat.add_comm, Nat.cast_id]

/-- The window keeps the number if it is long enough for it. -/
theorem ofDigits_window {base a n : Nat} (hbase : 2 ≤ base) (ha : a < base ^ n) (m : Nat) :
    Nat.ofDigits base ((renderedDigits base a m).take n) = a := by
  rw [← Nat.ofDigits_mod_pow_eq_ofDigits_take n (by omega) _ fun _ => renderedDigits_lt hbase, ofDigits_renderedDigits,
    Nat.mod_eq_of_lt ha]

/-- The upper digits at their weight and the lower digits make up the number. -/
theorem ofDigits_split {base : Nat} (hbase : 0 < base) {digits : List Nat} (hlt : ∀ d ∈ digits, d < base) (n : Nat) :
    Nat.ofDigits base (digits.drop n) * base ^ n + Nat.ofDigits base (digits.take n) = Nat.ofDigits base digits := by
  rw [← Nat.ofDigits_div_pow_eq_ofDigits_drop n hbase digits hlt,
    ← Nat.ofDigits_mod_pow_eq_ofDigits_take n hbase digits hlt, Nat.div_add_mod']

/-- R177: the two parts of a text of hex digits. -/
theorem hexNumber_digitText {digits : List Nat} (hlt : ∀ d ∈ digits, d < 16) :
    hexNumber (digitText digits) = Nat.ofDigits 16 digits := by
  rw [hexNumber, digitText_take, digitText_drop,
    prefixNumber_digitText (by decide) fun d hd => hlt d (List.mem_of_mem_drop hd),
    prefixNumber_digitText (by decide) fun d hd => hlt d (List.mem_of_mem_take hd), ← ofDigits_split (by decide) hlt 16]
  rfl

/-- R179: no character of the upper portion stops the scan. -/
theorem binaryNumber_digitText {digits : List Nat} (hlt : ∀ d ∈ digits, d < 2) :
    binaryNumber (digitText digits) = Nat.ofDigits 2 digits := by
  have hall : (digitText (digits.drop 64)).all (fun c => (digitValue 2 c).isSome) = true := by
    rw [List.all_eq_true]
    intro c hc
    obtain ⟨d, hd, rfl⟩ := List.mem_map.mp hc
    have hdigit : d < 2 := hlt d (List.mem_of_mem_drop (List.mem_reverse.mp hd))
    rw [digitValue_digitChar 2 (by decide) d hdigit, Option.isSome_some]
  rw [binaryNumber, digitText_take, digitText_drop, hall, if_pos rfl,
    prefixNumber_digitText (by decide) fun d hd => hlt d (List.mem_of_mem_drop hd),
    prefixNumber_digitText (by decide) fun d hd => hlt d (List.mem_of_mem_take hd), ofDigits_split (by decide) hlt 64]

/-- A window that is long enough holds a text of digits whose number is the value. -/
theorem number_of_window {base n a : Nat} {number : List Byte → Nat} (hbase : 2 ≤ base)
    (hnumber : ∀ {digits : List Nat}, (∀ d ∈ digits, d < base) → number (digitText digits) = Nat.ofDigits base digits)
    (ha : a < base ^ n) (m : Nat) : number (lastChars n (digitText (renderedDigits base a m))) = a := by
  have hlt : ∀ d ∈ (renderedDigits base a m).take n, d < base := fun d hd =>
    renderedDigits_lt hbase (List.mem_of_mem_take hd)
  rw [lastChars_digitText, hnumber hlt, ofDigits_window hbase ha]

/-- R181: parsing a rendered number gives it back. The windows of 128, 43, 39 and 32 characters hold every 128-bit number. -/
theorem parsedNumber_rendered {base a : Nat} (hbase : base ∈ [2, 8, 10, 16]) (ha : a < 2 ^ 128) (m : Nat) :
    parsedNumber base (rendered base a m) = a := by
  have hcases := hbase
  simp only [List.mem_cons, List.not_mem_nil, or_false] at hcases
  rw [rendered_eq_digitText]
  obtain rfl | rfl | rfl | rfl := hcases
  · exact number_of_window (by decide) binaryNumber_digitText ha m
  · exact number_of_window (n := 43) (by decide) (prefixNumber_digitText hbase) (ha.trans (by norm_num)) m
  · exact number_of_window (n := 39) (by decide) (prefixNumber_digitText hbase) (ha.trans (by norm_num)) m
  · exact number_of_window (by decide) hexNumber_digitText (ha.trans_eq (by norm_num)) m

theorem exec_strdec (rd : Reg) (base : BitVec 8) (s : State) :
    exec (.strdec rd base) s = .next (s.writeReg rd (parseText base.toNat (parsedText s))) :=
  parseInput_eq s ▸ rfl

/-- Settles O33: the text of digits is read back whole, and its number is that of the value. -/
theorem strdecOfStrencIsTheValue : Obligations.StrdecOfStrencIsTheValue := by
  intro rs1 rd base m s hbase
  have hrange : 2 ≤ base.toNat ∧ base.toNat ≤ 16 := by
    simp only [List.mem_cons, List.not_mem_nil, or_false] at hbase
    omega
  obtain ⟨h2, h16⟩ := hrange
  have ha := value_toNat_lt (s.readReg rs1)
  have hvisible : ∀ c ∈ rendered base.toNat (s.readReg rs1).toNat m.toNat,
      c ≠ 0 ∧ c.toNat ∉ [0x20, 0x09, 0x0A, 0x0B, 0x0C, 0x0D] := by
    rw [rendered_eq_digitText]
    intro c hc
    obtain ⟨d, hd, rfl⟩ := List.mem_map.mp hc
    exact digitChar_visible d ((renderedDigits_lt h2 (List.mem_reverse.mp hd)).trans_le h16)
  refine ⟨_, _, exec_strenc_of_base h2 h16 rs1 m s, exec_strdec rd base _, ?_⟩
  rw [readReg_writeReg_same, parsedText_placeText (rendered_length_le h2 ha m.isLt) hvisible]
  apply value_eq_of_toNat_eq
  rw [parseText_toNat, parsedNumber_rendered hbase ha, Nat.mod_eq_of_lt ha]

end Sys2Proof.Machine
end

section
/-! PROOFS. Commands read only their operands (10_state.md R22), and what the pseudo-instructions compute
(30_encoding.md R83). -/

namespace Sys2Proof.Machine

open Claims

/-! Two states, one command. -/

/-- Command `i` has made `t` of `s` and `t'` of `s'` with the same effect: a fault in both or in neither, and without one the
same destinations, the same text, and the same `FLAGS` where they were the same. -/
def SameEffect (i : Instr) (s s' t t' : State) : Prop :=
  (t.faultLog = s.faultLog ↔ t'.faultLog = s'.faultLog) ∧
    (t.faultLog = s.faultLog → (∀ r ∈ destinations i, t.readReg r = t'.readReg r) ∧
      (writesText i → t.slen = t'.slen ∧ ∀ k, k < t.slen.toNat → t.cbufByte k = t'.cbufByte k) ∧
      (s.flags = s'.flags → t.flags = t'.flags))

section
variable {i : Instr} (s s' : State)

theorem sameEffect_register {rd : Reg} (hdest : destinations i = [rd]) (htext : ¬ writesText i) (v : Value) :
    SameEffect i s s' (s.writeReg rd v) (s'.writeReg rd v) := by
  refine ⟨iff_of_true rfl rfl, fun _ => ⟨fun r hr => ?dest, fun h => absurd h htext, fun h => h⟩⟩
  case dest =>
    rw [hdest, List.mem_singleton] at hr
    rw [hr, readReg_writeReg_same, readReg_writeReg_same]

theorem sameEffect_registers {rd rd2 : Reg} (hdest : destinations i = [rd, rd2]) (htext : ¬ writesText i) (q r : Value) :
    SameEffect i s s' ((s.writeReg rd q).writeReg rd2 r) ((s'.writeReg rd q).writeReg rd2 r) := by
  refine ⟨iff_of_true rfl rfl, fun _ => ⟨fun x hx => ?dest, fun h => absurd h htext, fun h => h⟩⟩
  case dest =>
    rw [hdest, List.mem_cons, List.mem_singleton] at hx
    simp only [readReg_writeReg]
    obtain rfl | rfl := hx
    · rw [if_pos (rfl : x = x), if_pos (rfl : x = x)]
    · rw [if_pos rfl, if_pos rfl]

theorem sameEffect_flags (hdest : destinations i = []) (htext : ¬ writesText i) {f f' : Flags}
    (hf : s.flags = s'.flags → f = f') : SameEffect i s s' { s with flags := f } { s' with flags := f' } :=
  ⟨iff_of_true rfl rfl, fun _ => ⟨by simp [hdest], fun h => absurd h htext, hf⟩⟩

theorem sameEffect_text (hdest : destinations i = []) {text : List Byte} (hfits : text.length ≤ 255) :
    SameEffect i s s' (placeText text s) (placeText text s') := by
  refine ⟨iff_of_true (placeText_faultLog text s) (placeText_faultLog text s'),
    fun _ => ⟨by simp [hdest], fun _ => ⟨rfl, fun k hk => ?bytes⟩, fun h => ?flags⟩⟩
  case bytes =>
    rw [placeText_slen_toNat hfits] at hk
    rw [cbufByte_placeText, cbufByte_placeText, if_pos hk, if_pos hk]
  case flags => rw [placeText_flags, placeText_flags, h]

theorem sameEffect_fault (c : Cause) (w : CmdWord) : SameEffect i s s' (raiseFault c w s) (raiseFault c w s') := by
  have hlogs (u : State) : (raiseFault c w u).faultLog ≠ u.faultLog := by
    rw [raiseFault_faultLog]
    exact List.cons_ne_self _ _
  exact ⟨iff_of_false (hlogs s) (hlogs s'), fun h => absurd h (hlogs s)⟩

end

/-- R175: the text that `STRDEC` parses is read from `SLEN` and `CBUF` alone. -/
theorem parsedText_congr {s s' : State} (hslen : s.slen = s'.slen) (hbytes : ∀ k, s.cbufByte k = s'.cbufByte k) :
    parsedText s = parsedText s' := by
  rw [parsedText, hslen, funext hbytes, parsedText]

/-- R22: each command's effect is a function of its operands. -/
theorem exec_sameEffect {i : Instr} {s s' : State} (hsrc : ∀ r ∈ sources i, s.readReg r = s'.readReg r)
    (hread : readsText i → s.slen = s'.slen ∧ ∀ k, s.cbufByte k = s'.cbufByte k) :
    ∃ t t', exec i s = .next t ∧ exec i s' = .next t' ∧ SameEffect i s s' t t' := by
  cases i with
  | add _ a b | sub _ a b | mul _ a b | and _ a b | or _ a b | xor _ a b | shl _ a b | shr _ a b =>
    have ha : s.readReg a = s'.readReg a := hsrc a (by simp [sources])
    have hb : s.readReg b = s'.readReg b := hsrc b (by simp [sources])
    refine ⟨_, _, rfl, rfl, ?_⟩
    rw [ha, hb]
    exact sameEffect_register s s' rfl (by simp [writesText]) _
  | neg _ a | not _ a | bits _ a | mov _ a =>
    have ha : s.readReg a = s'.readReg a := hsrc a (by simp [sources])
    refine ⟨_, _, rfl, rfl, ?_⟩
    rw [ha]
    exact sameEffect_register s s' rfl (by simp [writesText]) _
  | ldi => exact ⟨_, _, rfl, rfl, sameEffect_register s s' rfl (by simp [writesText]) _⟩
  | strdec rd base =>
    obtain ⟨hslen, hbytes⟩ := hread ⟨rd, base, rfl⟩
    refine ⟨_, _, exec_strdec rd base s, exec_strdec rd base s', ?_⟩
    rw [parsedText_congr hslen hbytes]
    exact sameEffect_register s s' rfl (by simp [writesText]) _
  | cmp a b =>
    have ha : s.readReg a = s'.readReg a := hsrc a (by simp [sources])
    have hb : s.readReg b = s'.readReg b := hsrc b (by simp [sources])
    exact ⟨_, _, exec_cmp a b s, exec_cmp a b s',
      sameEffect_flags s s' rfl (by simp [writesText]) fun hf => by rw [ha, hb, hf]⟩
  | tst a =>
    have ha : s.readReg a = s'.readReg a := hsrc a (by simp [sources])
    exact ⟨_, _, exec_tst a s, exec_tst a s',
      sameEffect_flags s s' rfl (by simp [writesText]) fun hf => by rw [ha, hf]⟩
  | divu rd a b =>
    have ha : s.readReg a = s'.readReg a := hsrc a (by simp [sources])
    have hb : s.readReg b = s'.readReg b := hsrc b (by simp [sources])
    by_cases hz : (s'.readReg b).toNat = 0
    · exact ⟨_, _, exec_divu_of_zero (hb ▸ hz) rd a, exec_divu_of_zero hz rd a, sameEffect_fault s s' _ _⟩
    · refine ⟨_, _, exec_divu_of_ne_zero (hb ▸ hz) rd a, exec_divu_of_ne_zero hz rd a, ?_⟩
      rw [ha, hb]
      exact sameEffect_register s s' rfl (by simp [writesText]) _
  | remu rd a b =>
    have ha : s.readReg a = s'.readReg a := hsrc a (by simp [sources])
    have hb : s.readReg b = s'.readReg b := hsrc b (by simp [sources])
    by_cases hz : (s'.readReg b).toNat = 0
    · exact ⟨_, _, exec_remu_of_zero (hb ▸ hz) rd a, exec_remu_of_zero hz rd a, sameEffect_fault s s' _ _⟩
    · refine ⟨_, _, exec_remu_of_ne_zero (hb ▸ hz) rd a, exec_remu_of_ne_zero hz rd a, ?_⟩
      rw [ha, hb]
      exact sameEffect_register s s' rfl (by simp [writesText]) _
  | divmod rd rd2 a b =>
    have ha : s.readReg a = s'.readReg a := hsrc a (by simp [sources])
    have hb : s.readReg b = s'.readReg b := hsrc b (by simp [sources])
    by_cases hsame : rd = rd2
    · subst hsame
      exact ⟨_, _, exec_divmod_same rd a b s, exec_divmod_same rd a b s', sameEffect_fault s s' _ _⟩
    by_cases hz : (s'.readReg b).toNat = 0
    · exact ⟨_, _, exec_divmod_of_zero hsame (hb ▸ hz) a, exec_divmod_of_zero hsame hz a, sameEffect_fault s s' _ _⟩
    · refine ⟨_, _, exec_divmod_of_ne_zero hsame (hb ▸ hz) a, exec_divmod_of_ne_zero hsame hz a, ?_⟩
      rw [ha, hb]
      exact sameEffect_registers s s' rfl (by simp [writesText]) _ _
  | strenc a base m =>
    have ha : s.readReg a = s'.readReg a := hsrc a (by simp [sources])
    by_cases hbase : 2 ≤ base.toNat ∧ base.toNat ≤ 16
    · refine ⟨_, _, exec_strenc_of_base hbase.1 hbase.2 a m s, exec_strenc_of_base hbase.1 hbase.2 a m s', ?_⟩
      rw [ha]
      exact sameEffect_text s s' rfl (rendered_length_le hbase.1 (value_toNat_lt _) m.isLt)
    · exact ⟨_, _, exec_strenc_of_invalid_base hbase a m s, exec_strenc_of_invalid_base hbase a m s',
        sameEffect_fault s s' _ _⟩

/-- Settles O38: the two answers are those of the same effect. -/
theorem commandsReadOnlyTheirOperands : Obligations.CommandsReadOnlyTheirOperands := by
  intro i s s' t t' hsrc hread h h'
  obtain ⟨u, u', hu, hu', hsame⟩ := exec_sameEffect hsrc hread
  obtain rfl := Host.Outcome.next.inj (h.symm.trans hu)
  obtain rfl := Host.Outcome.next.inj (h'.symm.trans hu')
  exact hsame

/-! The pseudo-instructions (R83). -/

theorem immOperand_zero_toNat : (immOperand 0).toNat = 0 := by decide
theorem immOperand_one_toNat : (immOperand 1).toNat = 1 := by decide
theorem immOperand_neg_one_toNat : (immOperand (-1)).toNat = 2 ^ 128 - 1 := by decide

/-- The two commands of `INC` and `DECR`: a scratch register other than the operand gets the immediate first. -/
theorem readReg_of_scratch {vd vt : Reg} (hne : vt ≠ vd) (s : State) (v : Value) (op : Value → Value → Value) :
    (((s.writeReg vt v).writeReg vd (op ((s.writeReg vt v).readReg vd) ((s.writeReg vt v).readReg vt))).readReg vd) =
      op (s.readReg vd) v := by
  rw [readReg_writeReg_same, readReg_writeReg_other s v hne, readReg_writeReg_same]

/-- The three commands of `SWAP`, through a scratch register other than both. -/
theorem readReg_of_swap {va vb vt : Reg} (ha : vt ≠ va) (hb : vt ≠ vb) (s : State) :
    let u := (s.writeReg vt (s.readReg va)).writeReg va ((s.writeReg vt (s.readReg va)).readReg vb)
    (u.writeReg vb (u.readReg vt)).readReg va = s.readReg vb ∧
      (u.writeReg vb (u.readReg vt)).readReg vb = s.readReg va := by
  intro u
  have hscratch : u.readReg vt = s.readReg va := by
    rw [readReg_writeReg_other _ _ ha.symm, readReg_writeReg_same]
  refine ⟨?_, by rw [readReg_writeReg_same, hscratch]⟩
  by_cases hsame : vb = va
  · rw [hsame, readReg_writeReg_same, hscratch]
  · rw [readReg_writeReg_other _ _ hsame, readReg_writeReg_same, readReg_writeReg_other _ _ hb]

/-- Settles O54: each expansion is a chain of register writes, which computes what the unit of its last command does. -/
theorem pseudoInstructionsCompute : Obligations.PseudoInstructionsCompute := by
  intro vd vs vt s
  refine ⟨⟨_, rfl, ?clr⟩, ⟨_, rfl, ?ones⟩, fun h => ⟨_, rfl, ?inc⟩, fun h => ⟨_, rfl, ?decr⟩, ⟨_, rfl, ?sqr⟩,
    fun h => ⟨_, rfl, ?swap⟩⟩
  case clr => rw [readReg_writeReg_same, immOperand_zero_toNat]
  case ones => rw [readReg_writeReg_same, immOperand_neg_one_toNat]
  case inc =>
    rw [readReg_of_scratch (bne_iff_ne.mp h) s _ valueAdd, valueAdd_toNat, immOperand_one_toNat]
  case decr =>
    rw [readReg_of_scratch (bne_iff_ne.mp h) s _ valueSub, valueSub_toNat, immOperand_one_toNat]
  case sqr => rw [readReg_writeReg_same, valueMul_toNat, Nat.pow_two]
  case swap =>
    rw [pseudoWellFormed, Bool.and_eq_true, bne_iff_ne, bne_iff_ne] at h
    exact readReg_of_swap h.1 h.2 s

end Sys2Proof.Machine
end

section
/-! PROOFS. Liveness (70_reset_and_hazards.md R241, R248): while the host does anything but leave the core its turn, a step
only takes one of its events. -/

namespace Sys2Proof.Machine

open Claims

theorem run_succ_of_step {s t : State} (h : step s = .next t) (n : Nat) :
    Sys2Proof.core.run (n + 1) s = Sys2Proof.core.run n t := by
  have hstep : Sys2Proof.core.step s = .next t := h
  simp only [Host.Core.run, hstep]

/-- What O50 says of a state with word `w` in `PEND`. -/
def Completes (s : State) (w : CmdWord) : Prop :=
  ∃ n u t, n ≤ s.inputs.length ∧ Sys2Proof.core.run n s = .next u ∧
    u = { s with held := u.held, inputs := u.inputs, responses := u.responses } ∧ u.inputs <:+ s.inputs ∧
    step u = .next t ∧ t.pend = none ∧
    (completeCommand w { u with inputs := t.inputs } = .next t ∨ ∃ keep rest, u.inputs = .reset keep :: rest)

/-- The core's turn has come. -/
theorem completes_of_coreTurn {s : State} {w : CmdWord} {rest : List HostEvent} (hp : s.pend = some w)
    (hturn : CoreTurn s rest) : Completes s w := by
  obtain ⟨t, ht⟩ := completeCommand_answers w { s with inputs := rest }
  refine ⟨0, s, t, Nat.zero_le _, rfl, rfl, List.suffix_refl _, (step_of_coreTurn hp hturn).trans ht,
    completeCommand_pend ht, .inl ?_⟩
  rwa [completeCommand_inputs ht]

theorem completes_of_reset {s : State} {w : CmdWord} {keep : Bool} {rest : List HostEvent}
    (h : s.inputs = .reset keep :: rest) : Completes s w :=
  ⟨0, s, _, Nat.zero_le _, rfl, rfl, List.suffix_refl _, step_of_reset h, rfl, .inr ⟨keep, rest, h⟩⟩

/-- A step that takes one event, and changes only what the port holds and has answered, comes before the completion. -/
theorem completes_of_step {s : State} {w : CmdWord} {e : HostEvent} {rest : List HostEvent} {held : List Access}
    {responses : List BusRecord} (hin : s.inputs = e :: rest)
    (hstep : step s = .next { s with held := held, inputs := rest, responses := responses })
    (h : Completes { s with held := held, inputs := rest, responses := responses } w) : Completes s w := by
  obtain ⟨n, u, t, hn, hrun, hu, hsuffix, hlast⟩ := h
  refine ⟨n + 1, u, t, ?_, (run_succ_of_step hstep n).trans hrun, hu, ?_, hlast⟩
  · rw [hin, List.length_cons]
    exact Nat.succ_le_succ hn
  · rw [hin]
    exact hsuffix.trans (List.suffix_cons e rest)

theorem completes_of_pending {w : CmdWord} (events : List HostEvent) {s : State} (hin : s.inputs = events)
    (hp : s.pend = some w) : Completes s w := by
  induction events generalizing s with
  | nil => exact completes_of_coreTurn hp (.inr (.inl ⟨hin, rfl⟩))
  | cons e rest ih =>
    cases e with
    | idle => exact completes_of_coreTurn hp (.inl hin)
    | reset keep => exact completes_of_reset hin
    | access a late =>
      by_cases ha : a = .read 0x004 4
      · subst ha
        cases late with
        | true => exact completes_of_coreTurn hp (.inr (.inr ⟨rfl, rest, hin⟩))
        | false =>
          have hstep := (step_of_pending_early hp hin).trans (performAccess_status _)
          exact completes_of_step hin hstep (ih rfl hp)
      · exact completes_of_step (responses := s.responses) hin (step_of_pending_access hp hin ha) (ih rfl hp)

/-- Settles O50: by induction on the host's events; each comes before the core's turn, gives it, or is a reset. -/
theorem pendingCommandCompletes : Obligations.PendingCommandCompletes := fun s _ hp =>
  completes_of_pending s.inputs rfl hp

end Sys2Proof.Machine
end

section
/-! PROOFS. Every timing gives the sequential result (20_memory.md R56, 70_reset_and_hazards.md R250): commands and accesses
do not depend on what waits at the port, so each step of the machine takes one piece off the work that the sequential run
has left, or only moves it. -/

namespace Sys2Proof.Machine

open Claims

/-! What waits at the port plays no part in a command or an access. -/

/-- The state with other accesses held and other events to come. -/
def State.withPort (s : State) (held : List Access) (inputs : List HostEvent) : State :=
  { s with held := held, inputs := inputs }

theorem withPort_eq_self {s : State} {held : List Access} {inputs : List HostEvent} (hheld : s.held = held)
    (hinputs : s.inputs = inputs) : s.withPort held inputs = s := by
  subst hheld hinputs
  rfl

theorem raiseFault_withPort (c : Cause) (w : CmdWord) (s : State) (held : List Access) (inputs : List HostEvent) :
    raiseFault c w (s.withPort held inputs) = (raiseFault c w s).withPort held inputs := by
  cases hfault : s.fault with
  | false => simp [raiseFault, State.withPort, hfault]
  | true => simp [raiseFault, State.withPort, hfault]

theorem writeBytes_withPort (s : State) (held : List Access) (inputs : List HostEvent) (k : Nat) (text : List Byte) :
    (s.withPort held inputs).writeBytes k text = (s.writeBytes k text).withPort held inputs := by
  induction text generalizing s k with
  | nil => rfl
  | cons b rest ih => exact ih (s.setCbufByte k b) (k + 1)

theorem placeText_withPort (text : List Byte) (s : State) (held : List Access) (inputs : List HostEvent) :
    placeText text (s.withPort held inputs) = (placeText text s).withPort held inputs := by
  rw [placeText, writeBytes_withPort]
  rfl

theorem memWrite_withPort (s : State) (held : List Access) (inputs : List HostEvent) (k n v : Nat) :
    (s.withPort held inputs).memWrite k n v = (s.memWrite k n v).withPort held inputs := by
  induction n generalizing s k v with
  | zero => rfl
  | succ n ih => exact ih (s.setCbufByte k _) (k + 1) (v / 256)

theorem readReg_withPort (s : State) (held : List Access) (inputs : List HostEvent) (i : Reg) :
    (s.withPort held inputs).readReg i = s.readReg i := rfl

theorem writeReg_withPort (s : State) (held : List Access) (inputs : List HostEvent) (i : Reg) (v : Value) :
    (s.withPort held inputs).writeReg i v = (s.writeReg i v).withPort held inputs := rfl

theorem parsedText_withPort (s : State) (held : List Access) (inputs : List HostEvent) :
    parsedText (s.withPort held inputs) = parsedText s := rfl

/-- The fault of a command from a state with another port is the fault with that port. -/
theorem exec_raise_withPort {i : Instr} {c : Cause} {w : CmdWord} {s : State} {held : List Access}
    {inputs : List HostEvent} (h : exec i (s.withPort held inputs) = .next (raiseFault c w (s.withPort held inputs))) :
    exec i (s.withPort held inputs) = .next ((raiseFault c w s).withPort held inputs) :=
  raiseFault_withPort c w s held inputs ▸ h

theorem exec_answers_withPort (i : Instr) (s : State) (held : List Access) (inputs : List HostEvent) :
    ∃ t, exec i s = .next t ∧ exec i (s.withPort held inputs) = .next (t.withPort held inputs) := by
  have hreg := readReg_withPort s held inputs
  cases i with
  | add | sub | neg | mul | and | or | xor | not | shl | shr | bits | ldi | mov | cmp | tst => exact ⟨_, rfl, rfl⟩
  | strdec rd base =>
    refine ⟨_, exec_strdec rd base s, ?_⟩
    rw [exec_strdec, parsedText_withPort, writeReg_withPort]
  | divu rd a b =>
    by_cases hz : (s.readReg b).toNat = 0
    · exact ⟨_, exec_divu_of_zero hz rd a, exec_raise_withPort (exec_divu_of_zero (hreg b ▸ hz) rd a)⟩
    · refine ⟨_, exec_divu_of_ne_zero hz rd a, ?_⟩
      rw [exec_divu_of_ne_zero (hreg b ▸ hz), hreg, hreg, writeReg_withPort]
  | remu rd a b =>
    by_cases hz : (s.readReg b).toNat = 0
    · exact ⟨_, exec_remu_of_zero hz rd a, exec_raise_withPort (exec_remu_of_zero (hreg b ▸ hz) rd a)⟩
    · refine ⟨_, exec_remu_of_ne_zero hz rd a, ?_⟩
      rw [exec_remu_of_ne_zero (hreg b ▸ hz), hreg, hreg, writeReg_withPort]
  | divmod rd rd2 a b =>
    by_cases hsame : rd = rd2
    · subst hsame
      exact ⟨_, exec_divmod_same rd a b s, exec_raise_withPort (exec_divmod_same rd a b _)⟩
    by_cases hz : (s.readReg b).toNat = 0
    · exact ⟨_, exec_divmod_of_zero hsame hz a, exec_raise_withPort (exec_divmod_of_zero hsame (hreg b ▸ hz) a)⟩
    · refine ⟨_, exec_divmod_of_ne_zero hsame hz a, ?_⟩
      rw [exec_divmod_of_ne_zero hsame (hreg b ▸ hz), hreg, hreg, writeReg_withPort, writeReg_withPort]
  | strenc a base m =>
    by_cases hbase : 2 ≤ base.toNat ∧ base.toNat ≤ 16
    · refine ⟨_, exec_strenc_of_base hbase.1 hbase.2 a m s, ?_⟩
      rw [exec_strenc_of_base hbase.1 hbase.2, hreg, placeText_withPort]
    · exact ⟨_, exec_strenc_of_invalid_base hbase a m s, exec_raise_withPort (exec_strenc_of_invalid_base hbase a m _)⟩

theorem exec_withPort {i : Instr} {s t : State} (h : exec i s = .next t) (held : List Access)
    (inputs : List HostEvent) : exec i (s.withPort held inputs) = .next (t.withPort held inputs) := by
  obtain ⟨u, hu, hport⟩ := exec_answers_withPort i s held inputs
  obtain rfl := Host.Outcome.next.inj (h.symm.trans hu)
  exact hport

theorem completeCommand_withPort {w : CmdWord} {s t : State} (h : completeCommand w s = .next t) (held : List Access)
    (inputs : List HostEvent) : completeCommand w (s.withPort held inputs) = .next (t.withPort held inputs) := by
  obtain ⟨e, hd, rfl⟩ | ⟨i, u, hd, hexec, rfl⟩ := completeCommand_next h
  · rw [completeCommand_of_error hd, raiseFault_withPort]
    rfl
  · exact completeCommand_of_exec hd (exec_withPort hexec held inputs)

theorem readLocation_withPort (s : State) (held : List Access) (inputs : List HostEvent) (width : Nat) (l : Location) :
    readLocation (s.withPort held inputs) width l = readLocation s width l := by
  cases l with
  | chars k =>
    rw [readLocation, readLocation, memRead_eq_sum, memRead_eq_sum]
    rfl
  | cmd | status | flags | slen | fcmd | limbLo | limbHi => rfl

theorem writeLocation_withPort (s : State) (held : List Access) (inputs : List HostEvent) (width : Nat) (d : BitVec 64)
    (l : Location) :
    writeLocation (s.withPort held inputs) width d l = (writeLocation s width d l).withPort held inputs := by
  cases l with
  | status =>
    rw [writeLocation, writeLocation]
    split_ifs <;> rfl
  | chars k => exact memWrite_withPort s held inputs k width d.toNat
  | cmd | flags | slen | fcmd | limbLo | limbHi => rfl

theorem performAccess_withPort {a : Access} {s t : State} (h : performAccess a s = .next t) (held : List Access)
    (inputs : List HostEvent) : performAccess a (s.withPort held inputs) = .next (t.withPort held inputs) := by
  obtain ⟨_, _, _, rfl, hl, rfl⟩ | ⟨_, _, _, _, rfl, hl, rfl⟩ := performAccess_next h
  · rw [performAccess_read hl, readLocation_withPort]
    rfl
  · rw [performAccess_write hl, writeLocation_withPort]
    rfl

@[simp] theorem writeLocation_inputs (s : State) (width : Nat) (d : BitVec 64) (l : Location) :
    (writeLocation s width d l).inputs = s.inputs := by
  cases l with
  | status =>
    rw [writeLocation]
    split_ifs <;> rfl
  | chars k => exact memWrite_inputs s k width d.toNat
  | cmd | flags | slen | fcmd | limbLo | limbHi => rfl

theorem performAccess_inputs {a : Access} {s t : State} (h : performAccess a s = .next t) : t.inputs = s.inputs := by
  obtain ⟨_, _, _, _, _, rfl⟩ | ⟨_, _, _, _, _, _, rfl⟩ := performAccess_next h
  · rw [respond_inputs]
  · rw [respond_inputs, writeLocation_inputs]

/-! The sequential run from any state of the machine. -/

/-- The command in `PEND`, if any, is executed. -/
def finishPending (s : State) : Host.Outcome State Fault Refusal :=
  match s.pend with
  | some w => completeCommand w s
  | none => .next s

theorem finishPending_of_some {s : State} {w : CmdWord} (h : s.pend = some w) : finishPending s = completeCommand w s := by
  rw [finishPending, h]

theorem finishPending_of_none {s : State} (h : s.pend = none) : finishPending s = .next s := by
  rw [finishPending, h]

theorem performWhole_of_next {a : Access} {s v : State} (h : performAccess a s = .next v) :
    performWhole a s = finishPending v := by
  rw [performWhole, h]
  rfl

/-- A sequential run begins with its first access, and the command which that issues. -/
theorem sequentialRun_cons_next {a : Access} {as : List Access} {s t : State} (h : sequentialRun (a :: as) s = .next t) :
    ∃ v u, performAccess a s = .next v ∧ finishPending v = .next u ∧ sequentialRun as u = .next t := by
  cases hv : performAccess a s with
  | next v =>
    rw [sequentialRun, performWhole_of_next hv] at h
    cases hu : finishPending v with
    | next u =>
      rw [hu] at h
      exact ⟨v, u, rfl, hu, h⟩
    | fault r =>
      rw [hu] at h
      cases h
    | refused r =>
      rw [hu] at h
      cases h
  | fault r =>
    rw [sequentialRun, performWhole, hv] at h
    cases h
  | refused r =>
    rw [sequentialRun, performWhole, hv] at h
    cases h

/-- What is left to do at `s` ends in `t` when done in sequence: the pending command, the held accesses, and the accesses
to come. -/
def SequentialResult (s t : State) : Prop :=
  ∃ u, finishPending (s.withPort [] []) = .next u ∧ sequentialRun (s.held ++ accessesOf s.inputs) u = .next t

/-- With the pending command completed, what is left is the accesses. -/
theorem sequentialResult_of_complete {s t : State} {w : CmdWord} (hp : s.pend = some w) (h : SequentialResult s t) :
    ∃ u : State, (∀ inputs, completeCommand w { s with inputs := inputs } = .next (u.withPort s.held inputs)) ∧
      ∀ inputs, accessesOf inputs = accessesOf s.inputs → SequentialResult (u.withPort s.held inputs) t := by
  obtain ⟨u, hu, hrun⟩ := h
  rw [finishPending_of_some (s := s.withPort [] []) hp] at hu
  have hpend : u.pend = none := completeCommand_pend hu
  have hbare : u.withPort [] [] = u := withPort_eq_self (completeCommand_held hu) (completeCommand_inputs hu)
  refine ⟨u, fun inputs => completeCommand_withPort hu s.held inputs, fun inputs hin => ⟨u, ?_, ?_⟩⟩
  · exact (finishPending_of_none (s := u.withPort [] []) hpend).trans (congrArg _ hbare)
  · exact (congrArg (fun as => sequentialRun (s.held ++ as) u) hin).trans hrun

/-- With nothing pending, what is left after the first access is the command that it issues and the other accesses. -/
theorem sequentialResult_of_perform {s t : State} {a : Access} {as : List Access} (hp : s.pend = none)
    (has : s.held ++ accessesOf s.inputs = a :: as) (h : SequentialResult s t) :
    ∃ v : State, (∀ held inputs, performAccess a (s.withPort held inputs) = .next (v.withPort held inputs)) ∧
      ∀ held inputs, held ++ accessesOf inputs = as → SequentialResult (v.withPort held inputs) t := by
  obtain ⟨u, hu, hrun⟩ := h
  rw [finishPending_of_none (s := s.withPort [] []) hp] at hu
  obtain rfl := Host.Outcome.next.inj hu
  rw [has] at hrun
  obtain ⟨v, u, hv, hu, hrest⟩ := sequentialRun_cons_next hrun
  have hbare : v.withPort [] [] = v := withPort_eq_self (performAccess_held hv) (performAccess_inputs hv)
  refine ⟨v, fun held inputs => performAccess_withPort hv held inputs, fun held inputs heq => ⟨u, ?_, ?_⟩⟩
  · exact (congrArg finishPending hbare).trans hu
  · exact (congrArg (sequentialRun · u) heq).trans hrest

/-! One step of the machine. -/

/-- How many steps the machine has before it, at most: an access to come may be held, performed, and issue a command. -/
def workLeft (s : State) : Nat := 3 * s.inputs.length + 2 * s.held.length + s.pend.toList.length

/-- A step that keeps what is left to do, and brings it nearer to its end. -/
def Progress (s t : State) : Prop :=
  ∃ s', step s = .next s' ∧ PlainEvents s'.inputs ∧ SequentialResult s' t ∧ workLeft s' < workLeft s

theorem plainEvents_tail {e : HostEvent} {rest : List HostEvent} (h : PlainEvents (e :: rest)) : PlainEvents rest :=
  fun x hx => h x (List.mem_cons_of_mem e hx)

theorem not_statusRead_of_plain {a : Access} {late : Bool} {rest : List HostEvent}
    (h : PlainEvents (.access a late :: rest)) : a ≠ .read 0x004 4 := by
  obtain h | ⟨b, l, hb, hns⟩ := h _ List.mem_cons_self
  · cases h
  · cases hb
    rw [Ne, ← isStatusRead_iff, hns]
    exact Bool.false_ne_true

theorem not_reset_of_plain {s : State} (h : PlainEvents s.inputs) (keep : Bool) (rest : List HostEvent) :
    s.inputs ≠ .reset keep :: rest := by
  intro hin
  obtain h | ⟨_, _, h, _⟩ := h (.reset keep) (hin ▸ List.mem_cons_self)
  · cases h
  · cases h

theorem progress_of_pending {s t : State} {w : CmdWord} (hp : s.pend = some w) (hplain : PlainEvents s.inputs)
    (h : SequentialResult s t) : Progress s t := by
  obtain ⟨u, hcomplete, hresult⟩ := sequentialResult_of_complete hp h
  have hpend : u.pend = none := (completeCommand_pend (hcomplete s.inputs) : (u.withPort s.held s.inputs).pend = none)
  match hin : s.inputs with
  | [] =>
    refine ⟨_, (step_of_coreTurn hp (.inr (.inl ⟨hin, rfl⟩))).trans (hcomplete []), nofun, hresult [] (hin ▸ rfl), ?_⟩
    simp only [workLeft, State.withPort, hin, hp, hpend, Option.toList, List.length_cons]
    omega
  | .idle :: rest =>
    rw [hin] at hplain
    refine ⟨_, (step_of_coreTurn hp (.inl hin)).trans (hcomplete rest), plainEvents_tail hplain,
      hresult rest (hin ▸ rfl), ?_⟩
    simp only [workLeft, State.withPort, hin, hp, hpend, Option.toList, List.length_cons]
    omega
  | .reset keep :: rest => exact absurd hin (not_reset_of_plain hplain keep rest)
  | .access a late :: rest =>
    rw [hin] at hplain
    refine ⟨_, step_of_pending_access hp hin (not_statusRead_of_plain hplain), plainEvents_tail hplain, ?_, ?_⟩
    · obtain ⟨v, hv, hrun⟩ := h
      refine ⟨v, hv, ?_⟩
      rw [hin, accessesOf] at hrun
      rwa [List.append_assoc]
    · simp only [workLeft, hin, List.length_append, List.length_cons, List.length_nil]
      omega

theorem progress_of_held {s t : State} {a : Access} {as : List Access} (hp : s.pend = none) (hheld : s.held = a :: as)
    (hplain : PlainEvents s.inputs) (h : SequentialResult s t) : Progress s t := by
  have hlate : ∀ rest, ¬ NextAccess s (.read 0x004 4) true rest := fun rest hnext =>
    not_statusRead_of_plain (hnext ▸ hplain) rfl
  obtain ⟨v, hperform, hresult⟩ := sequentialResult_of_perform hp (congrArg (· ++ accessesOf s.inputs) hheld) h
  refine ⟨_, (step_of_held hp hheld (not_reset_of_plain hplain) hlate).trans (hperform as s.inputs), hplain,
    hresult as s.inputs rfl, ?_⟩
  have hpend : v.pend.toList.length ≤ 1 := Option.length_toList_le
  simp only [workLeft, State.withPort, hheld, List.length_cons]
  omega

theorem progress_of_quiet {s t : State} {e : HostEvent} {rest : List HostEvent} (hq : Quiet s)
    (hin : s.inputs = e :: rest) (hplain : PlainEvents s.inputs) (h : SequentialResult s t) : Progress s t := by
  have htail : PlainEvents rest := plainEvents_tail (hin ▸ hplain)
  obtain ⟨hp, hheld⟩ := hq
  cases e with
  | idle =>
    refine ⟨_, step_of_quiet_idle ⟨hp, hheld⟩ hin, htail, ?_, ?_⟩
    · obtain ⟨u, hu, hrun⟩ := h
      rw [hin] at hrun
      exact ⟨u, hu, hrun⟩
    · simp only [workLeft, hin, List.length_cons]
      omega
  | reset keep => exact absurd hin (not_reset_of_plain hplain keep rest)
  | access a late =>
    obtain ⟨v, hperform, hresult⟩ := sequentialResult_of_perform (a := a) (as := accessesOf rest) hp
      (by rw [hheld, hin]; rfl) h
    refine ⟨_, (step_of_quiet_access ⟨hp, hheld⟩ hin).trans (hperform s.held rest), htail,
      hresult s.held rest (by rw [hheld]; rfl), ?_⟩
    have hpend : v.pend.toList.length ≤ 1 := Option.length_toList_le
    simp only [workLeft, State.withPort, hin, List.length_cons]
    omega

/-- R250: the machine goes on until nothing is left, and then has the sequential result. -/
theorem run_of_sequentialResult {s t : State} (hplain : PlainEvents s.inputs) (h : SequentialResult s t) :
    ∃ n, Sys2Proof.core.run n s = .next t ∧ t.inputs = [] ∧ Quiet t := by
  have goOn (hprogress : Progress s t) : ∃ n, Sys2Proof.core.run n s = .next t ∧ t.inputs = [] ∧ Quiet t := by
    obtain ⟨s', hstep, hplain', h', hless⟩ := hprogress
    obtain ⟨n, hrun, hend⟩ := run_of_sequentialResult hplain' h'
    exact ⟨n + 1, (run_succ_of_step hstep n).trans hrun, hend⟩
  cases hp : s.pend with
  | some w => exact goOn (progress_of_pending hp hplain h)
  | none =>
    cases hheld : s.held with
    | cons a as => exact goOn (progress_of_held hp hheld hplain h)
    | nil =>
      cases hin : s.inputs with
      | cons e rest => exact goOn (progress_of_quiet ⟨hp, hheld⟩ hin hplain h)
      | nil =>
        obtain ⟨u, hu, hrun⟩ := h
        rw [withPort_eq_self hheld hin, finishPending_of_none hp] at hu
        obtain rfl := Host.Outcome.next.inj hu
        rw [hheld, hin] at hrun
        obtain rfl := Host.Outcome.next.inj hrun
        exact ⟨0, rfl, hin, hp, hheld⟩
termination_by workLeft s
decreasing_by exact hless

/-- Settles O49: from a quiet state what is left to do is the accesses to come, and the machine keeps its result. -/
theorem everyTimingGivesTheSequentialResult : Obligations.EveryTimingGivesTheSequentialResult := by
  intro s t hq hplain hrun
  obtain ⟨hp, hheld⟩ := hq
  refine run_of_sequentialResult hplain ⟨_, finishPending_of_none (s := s.withPort [] []) hp, ?_⟩
  have hbare : s.withPort [] [] = { s with inputs := [] } := by
    rw [State.withPort, ← hheld]
  rw [hheld, hbare]
  exact hrun

end Sys2Proof.Machine
end
